-- ==== Sys2Proof/Word.lean ====
section
/-! DEFINITION. The value types of the core: words, limbs, command words, and the three composite values that a
register of files E, K and P holds (R20 to R23). Only shapes stand here; what is computed with them stands under Machine/. -/

namespace Sys2Proof

/-- A 64-bit word of the host port and of the B, E and P files (R20, R41). -/
abbrev Word := BitVec 64

/-- A 32-bit limb of a scalar (R22). -/
abbrev Limb := BitVec 32

/-- A 32-bit command word (R60). -/
abbrev CommandWord := BitVec 32

/-- A 320-bit word of the random port (R49). -/
abbrev RandomWord := BitVec 320

/-- A register number 0 to 15 of any of the four files (R61). -/
abbrev RegNum := Fin 16

/-- An Ext5 value `(a0, a1, a2, a3, a4)`, standing for a0 + a1·z + a2·z² + a3·z³ + a4·z⁴ (R21, R100). -/
structure Ext5 where
  a0 : Word
  a1 : Word
  a2 : Word
  a3 : Word
  a4 : Word
  deriving DecidableEq, Repr

/-- A 320-bit scalar as ten 32-bit limbs, limb 0 least significant (R22). -/
structure Scalar where
  l0 : Limb
  l1 : Limb
  l2 : Limb
  l3 : Limb
  l4 : Limb
  l5 : Limb
  l6 : Limb
  l7 : Limb
  l8 : Limb
  l9 : Limb
  deriving DecidableEq, Repr

/-- A point value `(x, y, inf)`: coordinates are stored also when `inf` is set (R23, R132). -/
structure Point where
  x : Ext5
  y : Ext5
  inf : Bool
  deriving DecidableEq, Repr

/-- ZERO5 = (0,0,0,0,0) (R7). -/
def Ext5.zero : Ext5 := ⟨0, 0, 0, 0, 0⟩

/-- ONE5 = (1,0,0,0,0) (R7). -/
def Ext5.one : Ext5 := ⟨1, 0, 0, 0, 0⟩

/-- The scalar 0: all ten limbs 0 (R30). -/
def Scalar.zero : Scalar := ⟨0, 0, 0, 0, 0, 0, 0, 0, 0, 0⟩

/-- INF0 = (ZERO5, ZERO5, 1), the canonical infinite point (R7, R132). -/
def Point.inf0 : Point := ⟨Ext5.zero, Ext5.zero, true⟩

end Sys2Proof
end

