-- ==== Sys2Proof/Syntax.lean ====
section
/-! DEFINITION. The 43 commands of the core, one constructor per row of spec/opcode_table.json (R64). Register fields are
register numbers 0 to 15; a transfer's slot is a number inside its window (R45, R47), so a slot out of range is no
instruction but an illegal word, which the decoder rejects (R66 c). -/

namespace Sys2Proof

/-- A command with its operands (R61 to R64). -/
inductive Instr where
  /-- BADD Bd, Ba, Bb: `B[rd] <- B[ra] +p B[rb]` (R84). -/
  | badd (rd ra rb : RegNum)
  /-- BSUB Bd, Ba, Bb: `B[rd] <- B[ra] −p B[rb]` (R85). -/
  | bsub (rd ra rb : RegNum)
  /-- BMUL Bd, Ba, Bb: `B[rd] <- B[ra] *p B[rb]` (R86). -/
  | bmul (rd ra rb : RegNum)
  /-- BNEG Bd, Ba: `B[rd] <- −p B[ra]` (R87). -/
  | bneg (rd ra : RegNum)
  /-- BINV Bd, Ba: `B[rd] <- inv_p(B[ra])`, DivisionByZero on 0 (R88). -/
  | binv (rd ra : RegNum)
  /-- BDIV Bd, Ba, Bb: `B[rd] <- B[ra] *p inv_p(B[rb])`, DivisionByZero on a zero divisor (R89). -/
  | bdiv (rd ra rb : RegNum)
  /-- BEQ Ba, Bb: writes T (R90). -/
  | beq (ra rb : RegNum)
  /-- BMOV Bd, Ba (R91). -/
  | bmov (rd ra : RegNum)
  /-- EADD Ed, Ea, Eb (R105). -/
  | eadd (rd ra rb : RegNum)
  /-- ESUB Ed, Ea, Eb (R106). -/
  | esub (rd ra rb : RegNum)
  /-- EMUL Ed, Ea, Eb (R107). -/
  | emul (rd ra rb : RegNum)
  /-- ESQR Ed, Ea (R108). -/
  | esqr (rd ra : RegNum)
  /-- ENEG Ed, Ea (R109). -/
  | eneg (rd ra : RegNum)
  /-- EINV Ed, Ea: DivisionByZero on ZERO5 (R110). -/
  | einv (rd ra : RegNum)
  /-- EEQ Ea, Eb: writes T (R111). -/
  | eeq (ra rb : RegNum)
  /-- EMOV Ed, Ea (R112). -/
  | emov (rd ra : RegNum)
  /-- EFROMB Ed, Ba: `ra` names a B register (R113). -/
  | efromb (rd ra : RegNum)
  /-- EMULI Ed, Ea, imm8 (R114). -/
  | emuli (rd ra : RegNum) (imm8 : BitVec 8)
  /-- KRED Kd, Ka: reduction modulo n (R122). -/
  | kred (rd ra : RegNum)
  /-- KEQ Ka, Kb: raw comparison, writes T (R123). -/
  | keq (ra rb : RegNum)
  /-- KRND Kd: a draw from the random port (R125). -/
  | krnd (rd : RegNum)
  /-- KMOV Kd, Ka (R124). -/
  | kmov (rd ra : RegNum)
  /-- PADD Pd, Pa, Pb (R141). -/
  | padd (rd ra rb : RegNum)
  /-- PDBL Pd, Pa (R142). -/
  | pdbl (rd ra : RegNum)
  /-- PNEG Pd, Pa (R143). -/
  | pneg (rd ra : RegNum)
  /-- PEQ Pa, Pb: writes T (R144). -/
  | peq (ra rb : RegNum)
  /-- PMUL Pd, Pa, Kb: `rb` names a K register (R145). -/
  | pmul (rd ra rb : RegNum)
  /-- PCHK Pa: InvalidPoint off the curve, else T <- 1 (R146). -/
  | pchk (ra : RegNum)
  /-- PGEN Pd: the generator G (R147). -/
  | pgen (rd : RegNum)
  /-- PMOV Pd, Pa (R148). -/
  | pmov (rd ra : RegNum)
  /-- GPUB Pd, Ka: `rd` = public key, `ra` = private scalar (R161). -/
  | gpub (rd ra : RegNum)
  /-- GENC Pd, Pa, Pb, Pc, Ke: `rd` = Ca, `ra` = Cb, `rb` = pk, `rc` = M, `re` = r; rd ≠ ra (R162). -/
  | genc (rd ra rb rc re : RegNum)
  /-- GRMK Pd, Pa, Pb, Pc, Pe, Kf: `rd` = Ca', `ra` = Cb', `rb` = Ca, `rc` = Cb, `re` = pk, `rf` = r'; rd ≠ ra (R163). -/
  | grmk (rd ra rb rc re rf : RegNum)
  /-- GDEC Pd, Ka, Pb, Pc: `rd` = M, `ra` = sk, `rb` = Ca, `rc` = Cb (R164). -/
  | gdec (rd ra rb rc : RegNum)
  /-- WRB Bd[0], wdata: the window has one slot, slot 0 (R171). -/
  | wrb (r : RegNum)
  /-- RDB Ba[0]: the window has one slot, slot 0 (R172). -/
  | rdb (r : RegNum)
  /-- WRE Ed[k], wdata (R173). -/
  | wre (r : RegNum) (slot : Fin 5)
  /-- RDE Ea[k] (R174). -/
  | rde (r : RegNum) (slot : Fin 5)
  /-- WRK Kd[j], wdata: InvalidScalarLength when wdata ≥ 2^32 (R175). -/
  | wrk (r : RegNum) (slot : Fin 10)
  /-- RDK Ka[j] (R176). -/
  | rdk (r : RegNum) (slot : Fin 10)
  /-- WRP Pd[s], wdata: slot 10 raises InvalidPoint when wdata > 1 (R177). -/
  | wrp (r : RegNum) (slot : Fin 11)
  /-- RDP Pa[s] (R178). -/
  | rdp (r : RegNum) (slot : Fin 11)
  /-- RDSR s: STATUS for slot 0, FCMD for slot 1; executes also while halted (R179). -/
  | rdsr (slot : Fin 2)
  deriving DecidableEq, Repr

end Sys2Proof
end

