-- ==== Sys2Proof/WellFormed.lean ====
section
/-! DEFINITION. Which terms of Instr stand for a legal command. The only condition the types do not already carry is the
extra condition of GENC and GRMK (R64, R66 d): two results never go into one register. -/

namespace Sys2Proof

/-- The instruction's encoding is a legal word (R66). -/
def Instr.wellFormed : Instr → Bool
  | .badd _ _ _ => true
  | .bsub _ _ _ => true
  | .bmul _ _ _ => true
  | .bneg _ _ => true
  | .binv _ _ => true
  | .bdiv _ _ _ => true
  | .beq _ _ => true
  | .bmov _ _ => true
  | .eadd _ _ _ => true
  | .esub _ _ _ => true
  | .emul _ _ _ => true
  | .esqr _ _ => true
  | .eneg _ _ => true
  | .einv _ _ => true
  | .eeq _ _ => true
  | .emov _ _ => true
  | .efromb _ _ => true
  | .emuli _ _ _ => true
  | .kred _ _ => true
  | .keq _ _ => true
  | .krnd _ => true
  | .kmov _ _ => true
  | .padd _ _ _ => true
  | .pdbl _ _ => true
  | .pneg _ _ => true
  | .peq _ _ => true
  | .pmul _ _ _ => true
  | .pchk _ => true
  | .pgen _ => true
  | .pmov _ _ => true
  | .gpub _ _ => true
  | .genc rd ra _ _ _ => decide (rd ≠ ra)
  | .grmk rd ra _ _ _ _ => decide (rd ≠ ra)
  | .gdec _ _ _ _ => true
  | .wrb _ => true
  | .rdb _ => true
  | .wre _ _ => true
  | .rde _ _ => true
  | .wrk _ _ => true
  | .rdk _ _ => true
  | .wrp _ _ => true
  | .rdp _ _ => true
  | .rdsr _ => true

end Sys2Proof
end

