-- ==== Sys2Proof/Decode.lean ====
section
/-! DEFINITION. Decoding of 32-bit command words, total on all 2^32 of them (R68), and the encoder written from the same
formats (R61 to R63). A word is rejected by `none`: its opcode is unassigned, a reserved field is not 0, a slot lies above the
window's last slot, or GENC or GRMK has rd = ra (R65, R66). -/

namespace Sys2Proof

/-- `w[lo+len−1 : lo]`, the unsigned integer made of `len` bits from bit `lo` up (R6). -/
def bits (w : CommandWord) (lo len : Nat) : Nat := w.toNat / 2 ^ lo % 2 ^ len

/-- A 4-bit register field whose low bit is bit `lo` (R61). -/
def regField (w : CommandWord) (lo : Nat) : RegNum := Fin.ofNat 16 (bits w lo 4)

/-- `rd`, bits 23:20; also the field `r` of format X (R61, R63). -/
def rdField (w : CommandWord) : RegNum := regField w 20

/-- `ra`, bits 19:16 (R61). -/
def raField (w : CommandWord) : RegNum := regField w 16

/-- `rb`, bits 15:12 (R61). -/
def rbField (w : CommandWord) : RegNum := regField w 12

/-- `rc`, bits 11:8 (R61). -/
def rcField (w : CommandWord) : RegNum := regField w 8

/-- `re`, bits 7:4 (R61). -/
def reField (w : CommandWord) : RegNum := regField w 4

/-- `rf`, bits 3:0 (R61). -/
def rfField (w : CommandWord) : RegNum := regField w 0

/-- `imm8`, bits 7:0 of format I, used as is (R62, R71). -/
def immField (w : CommandWord) : BitVec 8 := BitVec.ofNat 8 (bits w 0 8)

/-- The instruction when its row's reserved fields are 0, else an illegal word (R65). -/
def legal (reservedZero : Bool) (i : Instr) : Option Instr := if reservedZero then some i else none

/-- A transfer of a window of `n` slots: bits 19:8 are reserved and the slot is below `n` (R63, R66 c). -/
def transfer (w : CommandWord) (n : Nat) (mk : Fin n → Instr) : Option Instr :=
  if h : bits w 0 8 < n then legal (bits w 8 12 == 0) (mk ⟨bits w 0 8, h⟩) else none

/-- The command a word spells, or none for an illegal word (R68). -/
def decode (w : CommandWord) : Option Instr :=
  match bits w 24 8 with
  | 0x10 => legal (bits w 0 12 == 0) (.badd (rdField w) (raField w) (rbField w))
  | 0x11 => legal (bits w 0 12 == 0) (.bsub (rdField w) (raField w) (rbField w))
  | 0x12 => legal (bits w 0 12 == 0) (.bmul (rdField w) (raField w) (rbField w))
  | 0x13 => legal (bits w 0 16 == 0) (.bneg (rdField w) (raField w))
  | 0x14 => legal (bits w 0 16 == 0) (.binv (rdField w) (raField w))
  | 0x15 => legal (bits w 0 12 == 0) (.bdiv (rdField w) (raField w) (rbField w))
  | 0x16 => legal (bits w 0 12 == 0 && bits w 20 4 == 0) (.beq (raField w) (rbField w))
  | 0x17 => legal (bits w 0 16 == 0) (.bmov (rdField w) (raField w))
  | 0x20 => legal (bits w 0 12 == 0) (.eadd (rdField w) (raField w) (rbField w))
  | 0x21 => legal (bits w 0 12 == 0) (.esub (rdField w) (raField w) (rbField w))
  | 0x22 => legal (bits w 0 12 == 0) (.emul (rdField w) (raField w) (rbField w))
  | 0x23 => legal (bits w 0 16 == 0) (.esqr (rdField w) (raField w))
  | 0x24 => legal (bits w 0 16 == 0) (.eneg (rdField w) (raField w))
  | 0x25 => legal (bits w 0 16 == 0) (.einv (rdField w) (raField w))
  | 0x26 => legal (bits w 0 12 == 0 && bits w 20 4 == 0) (.eeq (raField w) (rbField w))
  | 0x27 => legal (bits w 0 16 == 0) (.emov (rdField w) (raField w))
  | 0x28 => legal (bits w 0 16 == 0) (.efromb (rdField w) (raField w))
  | 0x29 => legal (bits w 8 8 == 0) (.emuli (rdField w) (raField w) (immField w))
  | 0x30 => legal (bits w 0 16 == 0) (.kred (rdField w) (raField w))
  | 0x31 => legal (bits w 0 12 == 0 && bits w 20 4 == 0) (.keq (raField w) (rbField w))
  | 0x32 => legal (bits w 0 20 == 0) (.krnd (rdField w))
  | 0x33 => legal (bits w 0 16 == 0) (.kmov (rdField w) (raField w))
  | 0x40 => legal (bits w 0 12 == 0) (.padd (rdField w) (raField w) (rbField w))
  | 0x41 => legal (bits w 0 16 == 0) (.pdbl (rdField w) (raField w))
  | 0x42 => legal (bits w 0 16 == 0) (.pneg (rdField w) (raField w))
  | 0x43 => legal (bits w 0 12 == 0 && bits w 20 4 == 0) (.peq (raField w) (rbField w))
  | 0x44 => legal (bits w 0 12 == 0) (.pmul (rdField w) (raField w) (rbField w))
  | 0x45 => legal (bits w 0 16 == 0 && bits w 20 4 == 0) (.pchk (raField w))
  | 0x46 => legal (bits w 0 20 == 0) (.pgen (rdField w))
  | 0x47 => legal (bits w 0 16 == 0) (.pmov (rdField w) (raField w))
  | 0x50 => legal (bits w 0 16 == 0) (.gpub (rdField w) (raField w))
  | 0x51 => legal (bits w 0 4 == 0 && rdField w != raField w) (.genc (rdField w) (raField w) (rbField w) (rcField w) (reField w))
  | 0x52 => legal (rdField w != raField w) (.grmk (rdField w) (raField w) (rbField w) (rcField w) (reField w) (rfField w))
  | 0x53 => legal (bits w 0 8 == 0) (.gdec (rdField w) (raField w) (rbField w) (rcField w))
  | 0x60 => legal (bits w 0 8 == 0 && bits w 8 12 == 0) (.wrb (rdField w))
  | 0x61 => legal (bits w 0 8 == 0 && bits w 8 12 == 0) (.rdb (rdField w))
  | 0x62 => transfer w 5 (.wre (rdField w))
  | 0x63 => transfer w 5 (.rde (rdField w))
  | 0x64 => transfer w 10 (.wrk (rdField w))
  | 0x65 => transfer w 10 (.rdk (rdField w))
  | 0x66 => transfer w 11 (.wrp (rdField w))
  | 0x67 => transfer w 11 (.rdp (rdField w))
  | 0x68 => if bits w 20 4 = 0 then transfer w 2 .rdsr else none
  | _ => none

/-- Format R (R61): the fields at their positions, a field not used being 0. -/
def formatR (op : Nat) (rd ra rb rc re rf : RegNum) : CommandWord :=
  BitVec.ofNat 32 (op * 2 ^ 24 + rd.val * 2 ^ 20 + ra.val * 2 ^ 16 + rb.val * 2 ^ 12 + rc.val * 2 ^ 8 + re.val * 2 ^ 4 + rf.val)

/-- Format I (R62). -/
def formatI (op : Nat) (rd ra : RegNum) (imm8 : BitVec 8) : CommandWord :=
  BitVec.ofNat 32 (op * 2 ^ 24 + rd.val * 2 ^ 20 + ra.val * 2 ^ 16 + imm8.toNat)

/-- Format X (R63). -/
def formatX (op : Nat) (r : RegNum) (slot : Nat) : CommandWord :=
  BitVec.ofNat 32 (op * 2 ^ 24 + r.val * 2 ^ 20 + slot)

/-- The opcode byte, bits 31:24 (R64). -/
def Instr.opcode : Instr → Nat
  | .badd _ _ _ => 0x10
  | .bsub _ _ _ => 0x11
  | .bmul _ _ _ => 0x12
  | .bneg _ _ => 0x13
  | .binv _ _ => 0x14
  | .bdiv _ _ _ => 0x15
  | .beq _ _ => 0x16
  | .bmov _ _ => 0x17
  | .eadd _ _ _ => 0x20
  | .esub _ _ _ => 0x21
  | .emul _ _ _ => 0x22
  | .esqr _ _ => 0x23
  | .eneg _ _ => 0x24
  | .einv _ _ => 0x25
  | .eeq _ _ => 0x26
  | .emov _ _ => 0x27
  | .efromb _ _ => 0x28
  | .emuli _ _ _ => 0x29
  | .kred _ _ => 0x30
  | .keq _ _ => 0x31
  | .krnd _ => 0x32
  | .kmov _ _ => 0x33
  | .padd _ _ _ => 0x40
  | .pdbl _ _ => 0x41
  | .pneg _ _ => 0x42
  | .peq _ _ => 0x43
  | .pmul _ _ _ => 0x44
  | .pchk _ => 0x45
  | .pgen _ => 0x46
  | .pmov _ _ => 0x47
  | .gpub _ _ => 0x50
  | .genc _ _ _ _ _ => 0x51
  | .grmk _ _ _ _ _ _ => 0x52
  | .gdec _ _ _ _ => 0x53
  | .wrb _ => 0x60
  | .rdb _ => 0x61
  | .wre _ _ => 0x62
  | .rde _ _ => 0x63
  | .wrk _ _ => 0x64
  | .rdk _ _ => 0x65
  | .wrp _ _ => 0x66
  | .rdp _ _ => 0x67
  | .rdsr _ => 0x68

/-- The mnemonic (R64). -/
def Instr.mnemonic : Instr → String
  | .badd _ _ _ => "BADD"
  | .bsub _ _ _ => "BSUB"
  | .bmul _ _ _ => "BMUL"
  | .bneg _ _ => "BNEG"
  | .binv _ _ => "BINV"
  | .bdiv _ _ _ => "BDIV"
  | .beq _ _ => "BEQ"
  | .bmov _ _ => "BMOV"
  | .eadd _ _ _ => "EADD"
  | .esub _ _ _ => "ESUB"
  | .emul _ _ _ => "EMUL"
  | .esqr _ _ => "ESQR"
  | .eneg _ _ => "ENEG"
  | .einv _ _ => "EINV"
  | .eeq _ _ => "EEQ"
  | .emov _ _ => "EMOV"
  | .efromb _ _ => "EFROMB"
  | .emuli _ _ _ => "EMULI"
  | .kred _ _ => "KRED"
  | .keq _ _ => "KEQ"
  | .krnd _ => "KRND"
  | .kmov _ _ => "KMOV"
  | .padd _ _ _ => "PADD"
  | .pdbl _ _ => "PDBL"
  | .pneg _ _ => "PNEG"
  | .peq _ _ => "PEQ"
  | .pmul _ _ _ => "PMUL"
  | .pchk _ => "PCHK"
  | .pgen _ => "PGEN"
  | .pmov _ _ => "PMOV"
  | .gpub _ _ => "GPUB"
  | .genc _ _ _ _ _ => "GENC"
  | .grmk _ _ _ _ _ _ => "GRMK"
  | .gdec _ _ _ _ => "GDEC"
  | .wrb _ => "WRB"
  | .rdb _ => "RDB"
  | .wre _ _ => "WRE"
  | .rde _ _ => "RDE"
  | .wrk _ _ => "WRK"
  | .rdk _ _ => "RDK"
  | .wrp _ _ => "WRP"
  | .rdp _ _ => "RDP"
  | .rdsr _ => "RDSR"

/-- The command word of an instruction (R61 to R64). -/
def encode : Instr → CommandWord
  | .badd rd ra rb => formatR 0x10 rd ra rb 0 0 0
  | .bsub rd ra rb => formatR 0x11 rd ra rb 0 0 0
  | .bmul rd ra rb => formatR 0x12 rd ra rb 0 0 0
  | .bneg rd ra => formatR 0x13 rd ra 0 0 0 0
  | .binv rd ra => formatR 0x14 rd ra 0 0 0 0
  | .bdiv rd ra rb => formatR 0x15 rd ra rb 0 0 0
  | .beq ra rb => formatR 0x16 0 ra rb 0 0 0
  | .bmov rd ra => formatR 0x17 rd ra 0 0 0 0
  | .eadd rd ra rb => formatR 0x20 rd ra rb 0 0 0
  | .esub rd ra rb => formatR 0x21 rd ra rb 0 0 0
  | .emul rd ra rb => formatR 0x22 rd ra rb 0 0 0
  | .esqr rd ra => formatR 0x23 rd ra 0 0 0 0
  | .eneg rd ra => formatR 0x24 rd ra 0 0 0 0
  | .einv rd ra => formatR 0x25 rd ra 0 0 0 0
  | .eeq ra rb => formatR 0x26 0 ra rb 0 0 0
  | .emov rd ra => formatR 0x27 rd ra 0 0 0 0
  | .efromb rd ra => formatR 0x28 rd ra 0 0 0 0
  | .emuli rd ra imm8 => formatI 0x29 rd ra imm8
  | .kred rd ra => formatR 0x30 rd ra 0 0 0 0
  | .keq ra rb => formatR 0x31 0 ra rb 0 0 0
  | .krnd rd => formatR 0x32 rd 0 0 0 0 0
  | .kmov rd ra => formatR 0x33 rd ra 0 0 0 0
  | .padd rd ra rb => formatR 0x40 rd ra rb 0 0 0
  | .pdbl rd ra => formatR 0x41 rd ra 0 0 0 0
  | .pneg rd ra => formatR 0x42 rd ra 0 0 0 0
  | .peq ra rb => formatR 0x43 0 ra rb 0 0 0
  | .pmul rd ra rb => formatR 0x44 rd ra rb 0 0 0
  | .pchk ra => formatR 0x45 0 ra 0 0 0 0
  | .pgen rd => formatR 0x46 rd 0 0 0 0 0
  | .pmov rd ra => formatR 0x47 rd ra 0 0 0 0
  | .gpub rd ra => formatR 0x50 rd ra 0 0 0 0
  | .genc rd ra rb rc re => formatR 0x51 rd ra rb rc re 0
  | .grmk rd ra rb rc re rf => formatR 0x52 rd ra rb rc re rf
  | .gdec rd ra rb rc => formatR 0x53 rd ra rb rc 0 0
  | .wrb r => formatX 0x60 r 0
  | .rdb r => formatX 0x61 r 0
  | .wre r slot => formatX 0x62 r slot.val
  | .rde r slot => formatX 0x63 r slot.val
  | .wrk r slot => formatX 0x64 r slot.val
  | .rdk r slot => formatX 0x65 r slot.val
  | .wrp r slot => formatX 0x66 r slot.val
  | .rdp r slot => formatX 0x67 r slot.val
  | .rdsr slot => formatX 0x68 0 slot.val

/-- What the decoder reads from an instruction whose low `nbits` bits are those of `w` and whose other bits are 0: every
command is one 32-bit word and there are no bytes at the interface, so the number is the word itself (R46, R60). -/
def decodeTableWord (nbits w : Nat) : Option Instr := decode (BitVec.ofNat 32 (w % 2 ^ nbits))

end Sys2Proof
end

