-- ==== Sys2Proof/Config.lean ====
section
/-! DEFINITION. The implementation parameters of the core (R5). None of them is left free: each has the value R5 gives it.
The curve's coefficients, the generator and the group order stand with the functions that use them (Machine/PointArith.lean,
Machine/ScalarArith.lean). There is no free value in this model: 93_implementation_defined.md leaves no result undefined, and the
random words are a parameter of the run held in State (log 2). -/

namespace Sys2Proof

/-- `P_MOD`: p = 2^64 − 2^32 + 1 (R5, R80). -/
def Config.pMod : Nat := 18446744069414584321

/-- `EPS`: ε = 2^64 − p = 2^32 − 1 (R5). -/
def Config.eps : Nat := 4294967295

/-- `EXT_W`: the relation z^5 = 3 (R5). -/
def Config.extW : Nat := 3

/-- `SCALAR_BITS`: the ladder runs over 320 bits (R5, R138). -/
def Config.scalarBits : Nat := 320

end Sys2Proof
end

