-- ==== Sys2Proof/Machine/State.lean ====
section
/-! DEFINITION. The state of the core as plain data: everything 10_state.md names, the lines of the host port, and the two
parameters of a run that the one-core machine must hold to be a machine of its own, the host's list of actions and the random
source's words (R56). There is no memory and no program counter (R25, R40). -/

namespace Sys2Proof.Machine

open Sys2Proof

/-- A fault the core raises (R190). A fault is no stop of the model: it is a next state (fault entry, R196). -/
inductive FaultCode where
  /-- "inversion of the zero field element" (R191). -/
  | divisionByZero
  /-- A finite point off the curve in PCHK, or an infinity flag other than 0 or 1 in WRP slot 10 (R192). -/
  | invalidPoint
  /-- A limb of 2^32 or more in WRK (R193). -/
  | invalidScalarLength
  /-- An illegal command word (R194). -/
  | illegalCommand
  deriving DecidableEq, Repr

/-- The response to a command (R42): the 4-bit code of R208 and the data word. -/
structure Response where
  err : BitVec 4
  rdata : Word
  deriving DecidableEq, Repr

/-- One thing the host may do to the core (R53). DESIGN CHOICE (log 1, log 7). -/
inductive HostEvent where
  /-- Present a command word and a data word and wait for the response. -/
  | command (cmd : CommandWord) (wdata : Word)
  /-- Assert `rst` between commands, or while a KRND waits for the random source (R210). -/
  | reset
  /-- Present a command and assert `rst` while it is in flight, after it has consumed `drawn` random words (R212). -/
  | resetDuring (cmd : CommandWord) (drawn : Nat)
  deriving DecidableEq, Repr

/-- The state of the core, its port, and the run's parameters. -/
structure State where
  /-- File B (R20). -/
  b : Vector Word 16
  /-- File E (R21). -/
  e : Vector Ext5 16
  /-- File K (R22). -/
  k : Vector Scalar 16
  /-- File P (R23). -/
  p : Vector Point 16
  /-- The test flag T (R26). -/
  t : Bool
  /-- STATUS.FAULT (R27). -/
  fault : Bool
  /-- STATUS.CAUSE (R27). -/
  cause : BitVec 4
  /-- FCMD, the command word that faulted (R28). -/
  fcmd : CommandWord
  /-- The command word last taken from the port (R41). -/
  cmd : CommandWord
  /-- The data word last taken from the port (R41, R44). -/
  wdata : Word
  /-- A command is in flight: `cmd_ready` is 0. Only a KRND that waits for the random source is seen so (R41, R221). -/
  busy : Bool
  /-- The response on the port: `rsp_valid`, `err` and `rdata` (R41, R42). -/
  rsp : Option Response
  /-- The words the random source will still answer, in order (R49, R56). The model's own field (log 2). -/
  rnd : List RandomWord
  /-- What the host will still do, in order (R53, R56). The model's own field (log 1). -/
  host : List HostEvent
  deriving DecidableEq, Repr

/-- How a step could stop with a fault: in no way, so this type has no constructor. The core's own faults are next states
(R196, R197), a KRND with no random word left waits in a next state (R221, log 3), and a core with no command idles (R56, log 4). -/
inductive Fault where
  deriving DecidableEq, Repr

/-- How a step could be refused a meaning. -/
inductive Refusal where
  /-- An instruction with no meaning yet. Raised by nothing: every command of R64 has its meaning, and every other word is
  illegal and has one too (R194). It would be safe. -/
  | notModelled (mnemonic : String)
  deriving DecidableEq, Repr

/-- The machine right after reset (R30, R210). The lines `cmd` and `wdata` and the run's parameters `rnd` and `host` are not the
core's state, and stand at the model's choice (logs 1, 2, 5, 6). -/
def State.reset : State where
  b := Vector.replicate 16 0
  e := Vector.replicate 16 Ext5.zero
  k := Vector.replicate 16 Scalar.zero
  p := Vector.replicate 16 Point.inf0
  t := false
  fault := false
  cause := 0
  fcmd := 0
  cmd := 0
  wdata := 0
  busy := false
  rsp := none
  rnd := []
  host := []

end Sys2Proof.Machine
end

