-- ==== Sys2Proof/Machine/FieldArith.lean ====
section
/-! DEFINITION. BaseField: arithmetic modulo p (R80, R92), and beside each function the datapath the spec describes for the unit
that computes it (R81, R82), which is held equal to it by a statement and called by nothing. -/

namespace Sys2Proof.Machine

open Sys2Proof

/-- The representative in [0, p) of an integer, as a word (R7). -/
def redInt (v : Int) : Word := BitVec.ofNat 64 (v % Config.pMod).toNat

/-- The representative in [0, p) of a natural number, as a word (R7). -/
def redNat (v : Nat) : Word := BitVec.ofNat 64 (v % Config.pMod)

/-- The word is an element of BaseField: it lies in [0, p) (R80). -/
abbrev Canonical (w : Word) : Prop := w.toNat < Config.pMod

/-- `a +p b` (R7, R92). -/
def addP (a b : Word) : Word := redNat (a.toNat + b.toNat)

/-- `a −p b` (R7, R92). -/
def subP (a b : Word) : Word := redInt ((a.toNat : Int) - (b.toNat : Int))

/-- `−p a` (R7, R92). -/
def negP (a : Word) : Word := redInt (-(a.toNat : Int))

/-- `a *p b` (R7, R92). -/
def mulP (a b : Word) : Word := redNat (a.toNat * b.toNat)

/-- `x` to the power `e`, for `e` below `2 ^ fuel`, by square-and-multiply with `*p` (R83). -/
def powP (x : Word) : Nat → Nat → Word
  | 0, _ => 1
  | fuel + 1, e =>
    let h := powP x fuel (e / 2)
    let sq := mulP h h
    if e % 2 = 1 then mulP sq x else sq

/-- `inv_p(a)` by Fermat, a^(p−2) (R83; log 10). It is called only for `a` ≠ 0, where `inv_p` is defined. -/
def invP (a : Word) : Word := powP a 64 (Config.pMod - 2)

/-- `from_int64(w)`: the canonical reduction of a word the host writes (R170). -/
def fromInt64 (w : Word) : Word := redNat w.toNat

/-- ADD of the adder unit: the 65-bit sum's carry, then the correction by ε (R81). -/
def adderAdd (a b : Word) : Word :=
  let carry := 2 ^ 64 ≤ a.toNat + b.toNat
  let t := a + b
  if carry ∨ Config.pMod ≤ t.toNat then t + BitVec.ofNat 64 Config.eps else t

/-- SUB of the adder unit: the borrow, then the correction by ε (R81). -/
def adderSub (a b : Word) : Word :=
  let borrow := a.toNat < b.toNat
  let t := a - b
  if borrow then t - BitVec.ofNat 64 Config.eps else t

/-- NEG of the adder unit: SUB with a = 0 (R81). -/
def adderNeg (a : Word) : Word := adderSub 0 a

/-- The multiplier: the 128-bit product split into `lo`, `hl` and `hh` and reduced with 2^64 ≡ ε and 2^96 ≡ −1 (R82). -/
def multiplier (a b : Word) : Word :=
  let x := a.toNat * b.toNat
  let lo := x % 2 ^ 64
  let hl := x / 2 ^ 64 % 2 ^ 32
  let hh := x / 2 ^ 96
  addP (subP (redNat lo) (redNat hh)) (redNat (hl * Config.eps))

end Sys2Proof.Machine
end

