-- ==== Sys2Proof/Machine/ExtArith.lean ====
section
/-! DEFINITION. Ext5: the functions of the degree-5 extension with z^5 = 3 (R100 to R104). -/

namespace Sys2Proof.Machine

open Sys2Proof

/-- All five coefficients are elements of BaseField (R21). -/
abbrev CanonicalExt (a : Ext5) : Prop :=
  Canonical a.a0 ∧ Canonical a.a1 ∧ Canonical a.a2 ∧ Canonical a.a3 ∧ Canonical a.a4

/-- `e_add` (R101). -/
def eAdd (a b : Ext5) : Ext5 :=
  ⟨addP a.a0 b.a0, addP a.a1 b.a1, addP a.a2 b.a2, addP a.a3 b.a3, addP a.a4 b.a4⟩

/-- `e_sub` (R101). -/
def eSub (a b : Ext5) : Ext5 :=
  ⟨subP a.a0 b.a0, subP a.a1 b.a1, subP a.a2 b.a2, subP a.a3 b.a3, subP a.a4 b.a4⟩

/-- `e_neg` (R101). -/
def eNeg (a : Ext5) : Ext5 := ⟨negP a.a0, negP a.a1, negP a.a2, negP a.a3, negP a.a4⟩

/-- `e_eq` (R101): all five components are equal. -/
def eEq (a b : Ext5) : Bool :=
  a.a0 == b.a0 && a.a1 == b.a1 && a.a2 == b.a2 && a.a3 == b.a3 && a.a4 == b.a4

/-- `e_from(v)` (R101): the constant term, other coefficients zero. -/
def eFrom (v : Word) : Ext5 := ⟨v, 0, 0, 0, 0⟩

/-- Every coefficient multiplied by a BaseField element (R104 b). -/
def eScale (a : Ext5) (v : Word) : Ext5 :=
  ⟨mulP a.a0 v, mulP a.a1 v, mulP a.a2 v, mulP a.a3 v, mulP a.a4 v⟩

/-- `e_muli(a, m)`, m an integer (R101). -/
def eMuli (a : Ext5) (m : Nat) : Ext5 :=
  ⟨redNat (a.a0.toNat * m), redNat (a.a1.toNat * m), redNat (a.a2.toNat * m), redNat (a.a3.toNat * m), redNat (a.a4.toNat * m)⟩

/-- `e_mul` (R102): each coefficient is the exact integer value of its expression, reduced into [0, p). -/
def eMul (a b : Ext5) : Ext5 :=
  let a0 := a.a0.toNat
  let a1 := a.a1.toNat
  let a2 := a.a2.toNat
  let a3 := a.a3.toNat
  let a4 := a.a4.toNat
  let b0 := b.a0.toNat
  let b1 := b.a1.toNat
  let b2 := b.a2.toNat
  let b3 := b.a3.toNat
  let b4 := b.a4.toNat
  ⟨redNat (a0 * b0 + Config.extW * (a1 * b4 + a2 * b3 + a3 * b2 + a4 * b1)),
   redNat (a0 * b1 + a1 * b0 + Config.extW * (a2 * b4 + a3 * b3 + a4 * b2)),
   redNat (a0 * b2 + a1 * b1 + a2 * b0 + Config.extW * (a3 * b4 + a4 * b3)),
   redNat (a0 * b3 + a1 * b2 + a2 * b1 + a3 * b0 + Config.extW * (a4 * b4)),
   redNat (a0 * b4 + a1 * b3 + a2 * b2 + a3 * b1 + a4 * b0)⟩

/-- `e_sqr(a) = e_mul(a, a)` (R103). -/
def eSqr (a : Ext5) : Ext5 := eMul a a

/-- The optimised square a squarer unit computes (R103), held equal to `eSqr` by a statement and called by nothing. -/
def eSqrOptimised (a : Ext5) : Ext5 :=
  let a0 := a.a0.toNat
  let a1 := a.a1.toNat
  let a2 := a.a2.toNat
  let a3 := a.a3.toNat
  let a4 := a.a4.toNat
  ⟨redNat (a0 ^ 2 + 6 * (a1 * a4 + a2 * a3)),
   redNat (2 * a0 * a1 + 3 * (a3 ^ 2 + 2 * a2 * a4)),
   redNat (a1 ^ 2 + 2 * a0 * a2 + 6 * a3 * a4),
   redNat (2 * (a0 * a3 + a1 * a2) + 3 * a4 ^ 2),
   redNat (a2 ^ 2 + 2 * (a0 * a4 + a1 * a3))⟩

/-- γ = 3^((p−1)/5) mod p to the power k modulo 5 (R104 b). -/
def gammaPow (k : Nat) : Word :=
  match k % 5 with
  | 0 => 1
  | 1 => 1041288259238279555
  | 2 => 15820824984080659046
  | 3 => 211587555138949697
  | _ => 1373043270956696022

/-- `frob_k(a)`, which is a^(p^k) (R104 b). -/
def frob (k : Nat) (a : Ext5) : Ext5 :=
  ⟨a.a0, mulP a.a1 (gammaPow k), mulP a.a2 (gammaPow (2 * k)), mulP a.a3 (gammaPow (3 * k)), mulP a.a4 (gammaPow (4 * k))⟩

/-- t = frob_1(a)·frob_2(a)·frob_3(a)·frob_4(a) (R104 b). -/
def frobProduct (a : Ext5) : Ext5 := eMul (eMul (frob 1 a) (frob 2 a)) (eMul (frob 3 a) (frob 4 a))

/-- N, the constant term of a·t (R104 b). -/
def frobNorm (a : Ext5) : Word := (eMul a (frobProduct a)).a0

/-- `e_inv(a)` by the Frobenius method (R104 b; log 10). It is called only for `a` ≠ ZERO5, where `e_inv` is defined. -/
def eInv (a : Ext5) : Ext5 := eScale (frobProduct a) (invP (frobNorm a))

end Sys2Proof.Machine

namespace Sys2Proof

/-- Coefficient `slot` of an Ext5 value (R8, R45). -/
def Ext5.coeff (a : Ext5) (slot : Fin 5) : Word :=
  match slot with
  | 0 => a.a0
  | 1 => a.a1
  | 2 => a.a2
  | 3 => a.a3
  | 4 => a.a4

/-- The value with coefficient `slot` replaced, the other four kept (R48). -/
def Ext5.setCoeff (a : Ext5) (slot : Fin 5) (v : Word) : Ext5 :=
  match slot with
  | 0 => { a with a0 := v }
  | 1 => { a with a1 := v }
  | 2 => { a with a2 := v }
  | 3 => { a with a3 := v }
  | 4 => { a with a4 := v }

end Sys2Proof
end

