-- ==== Sys2Proof/Machine/ScalarArith.lean ====
section
/-! DEFINITION. 320-bit scalars: their integer value, the group order n, reduction modulo n, raw equality, and the rejection
sampling of KRND over the random source's words (R8, R120 to R126). -/

namespace Sys2Proof

/-- The ten limbs, limb 0 first (R22, R45). -/
def Scalar.limbList (k : Scalar) : List Limb := [k.l0, k.l1, k.l2, k.l3, k.l4, k.l5, k.l6, k.l7, k.l8, k.l9]

/-- The sum of limb j times 2^(32·j), limb 0 first (R8). -/
def limbsValue : List Limb → Nat
  | [] => 0
  | l :: ls => l.toNat + 2 ^ 32 * limbsValue ls

/-- `val(K[i])` (R8, R22). -/
def Scalar.val (k : Scalar) : Nat := limbsValue k.limbList

/-- Limb `slot` of a scalar (R8, R45). -/
def Scalar.limb (k : Scalar) (slot : Fin 10) : Limb :=
  match slot with
  | 0 => k.l0
  | 1 => k.l1
  | 2 => k.l2
  | 3 => k.l3
  | 4 => k.l4
  | 5 => k.l5
  | 6 => k.l6
  | 7 => k.l7
  | 8 => k.l8
  | 9 => k.l9

/-- The scalar with limb `slot` replaced, the other nine kept (R48). -/
def Scalar.setLimb (k : Scalar) (slot : Fin 10) (v : Limb) : Scalar :=
  match slot with
  | 0 => { k with l0 := v }
  | 1 => { k with l1 := v }
  | 2 => { k with l2 := v }
  | 3 => { k with l3 := v }
  | 4 => { k with l4 := v }
  | 5 => { k with l5 := v }
  | 6 => { k with l6 := v }
  | 7 => { k with l7 := v }
  | 8 => { k with l8 := v }
  | 9 => { k with l9 := v }

end Sys2Proof

namespace Sys2Proof.Machine

open Sys2Proof

/-- n, the order of the curve's large subgroup (R120). PRESUMED by the spec itself, from general knowledge (K3; log 11). -/
def groupOrder : Nat :=
  1067993516717146951041484916571792702745057740581727230159139685185762082554198619328292418486241

/-- Limb j of `limbs(v)`: (v >> 32·j) mod 2^32 (R8). -/
def limbOf (v j : Nat) : Limb := BitVec.ofNat 32 (v >>> (32 * j))

/-- `limbs(v)` (R8). -/
def limbs (v : Nat) : Scalar :=
  ⟨limbOf v 0, limbOf v 1, limbOf v 2, limbOf v 3, limbOf v 4, limbOf v 5, limbOf v 6, limbOf v 7, limbOf v 8, limbOf v 9⟩

/-- Reduction modulo n of the whole 320-bit value (R122). -/
def kReduce (k : Scalar) : Scalar := limbs (k.val % groupOrder)

/-- One conditional subtraction of n (R126). -/
def subOrderOnce (v : Nat) : Nat := if groupOrder ≤ v then v - groupOrder else v

/-- The reduction datapath: two conditional subtractions (R126), held equal to `v mod n` by a statement and called by nothing. -/
def reductionUnit (v : Nat) : Nat := subOrderOnce (subOrderOnce v)

/-- Equality of the raw ten limbs (R123). -/
def kEq (a b : Scalar) : Bool :=
  a.l0 == b.l0 && a.l1 == b.l1 && a.l2 == b.l2 && a.l3 == b.l3 && a.l4 == b.l4 && a.l5 == b.l5 && a.l6 == b.l6
    && a.l7 == b.l7 && a.l8 == b.l8 && a.l9 == b.l9

/-- The candidate of a random word: w[318:0], bit 319 discarded (R125). -/
def candidate (w : RandomWord) : Nat := (w.setWidth 319).toNat

/-- The candidate passes: 0 < c < n (R125). -/
def acceptable (w : RandomWord) : Bool := decide (0 < candidate w) && decide (candidate w < groupOrder)

/-- KRND's loop over the words the source will answer: the first acceptable candidate and the words left after it, or none when
every word is consumed and none was acceptable (R125). -/
def drawKey : List RandomWord → Option (Nat × List RandomWord)
  | [] => none
  | w :: rest => if acceptable w then some (candidate w, rest) else drawKey rest

/-- How many words the loop consumes: those before the first acceptable one, and that one (R49, R125). -/
def wordsDrawn : List RandomWord → Nat
  | [] => 0
  | w :: rest => if acceptable w then 1 else wordsDrawn rest + 1

end Sys2Proof.Machine
end

