-- ==== Sys2Proof/Machine/PointArith.lean ====
section
/-! DEFINITION. The curve y² = x³ + 2x² + 263z·x, its generator, the point functions and the scalar multiplier (R130 to R138),
and the ElGamal functions built on them (R161 to R164). `none` is a DivisionByZero raised inside a function (R135, R191).
Operands off the curve are evaluated as written (R140; log 8). -/

namespace Sys2Proof.Machine

open Sys2Proof

/-- a = (2, 0, 0, 0, 0) (R130). PRESUMED by the spec itself, from general knowledge (K1; log 11). -/
def curveA : Ext5 := ⟨2, 0, 0, 0, 0⟩

/-- b = (0, 263, 0, 0, 0), that is 263·z (R130). PRESUMED by the spec itself, from general knowledge (K1; log 11). -/
def curveB : Ext5 := ⟨0, 263, 0, 0, 0⟩

/-- The generator G (R131). -/
def generator : Point where
  x := ⟨0xb2ca178ecf4453a1, 0x3c757788836d3ea4, 0x48d7f28a26dafd0b, 0x1e0f15c7fd44c28e, 0x21fa7ffcc8252211⟩
  y := ⟨0xcb285e3d3d114e82, 0xf1d5de220db4fa90, 0x235fca299b6bf42b, 0x783c571ff5130a38, 0x87e9fff320948844⟩
  inf := false

/-- Both coordinates are Ext5 elements (R23). -/
abbrev CanonicalPoint (P : Point) : Prop := CanonicalExt P.x ∧ CanonicalExt P.y

/-- `on_curve(P)`: infinite, or y² = x·(x² + 2x + b) (R133). -/
def onCurve (P : Point) : Bool :=
  P.inf || eEq (eSqr P.y) (eMul P.x (eAdd (eAdd (eSqr P.x) (eMuli P.x 2)) curveB))

/-- `pt_neg` (R134). -/
def ptNeg (P : Point) : Point := if P.inf then P else ⟨P.x, eNeg P.y, false⟩

/-- Step 7 of `pt_add`, from the slope's numerator and denominator (R135). -/
def chordTangent (P Q : Point) (num den : Ext5) : Point :=
  let lam := eMul num (eInv den)
  let x3 := eSub (eSub (eSub (eSqr lam) curveA) P.x) Q.x
  let y3 := eSub (eMul lam (eSub P.x x3)) P.y
  ⟨x3, y3, false⟩

/-- The tangent's numerator 3·x² + 2·a·x + b, with a = 2 (R135 case 4). -/
def tangentNum (x : Ext5) : Ext5 := eAdd (eAdd (eMuli (eSqr x) 3) (eMuli x 4)) curveB

/-- `pt_add(P, Q)`, the cases in the order of R135. -/
def ptAdd (P Q : Point) : Option Point :=
  if P.inf then some Q
  else if Q.inf then some P
  else if eEq P.x Q.x && eEq P.y (eNeg Q.y) then some Point.inf0
  else if eEq P.x Q.x && eEq P.y Q.y then some (chordTangent P Q (tangentNum P.x) (eMuli P.y 2))
  else if eEq P.x Q.x then none
  else some (chordTangent P Q (eSub Q.y P.y) (eSub Q.x P.x))

/-- `pt_dbl(P) = pt_add(P, P)` (R136). -/
def ptDbl (P : Point) : Option Point := ptAdd P P

/-- `pt_eq` (R137). -/
def ptEq (P Q : Point) : Bool :=
  if P.inf && Q.inf then true
  else if P.inf != Q.inf then false
  else eEq P.x Q.x && eEq P.y Q.y

/-- One iteration of the ladder: double, then add P when the bit is set (R138). -/
def ladderStep (P : Point) (bit : Bool) (acc : Point) : Option Point :=
  match ptDbl acc with
  | none => none
  | some d => if bit then ptAdd d P else some d

/-- The ladder's iterations for bits n−1 down to 0 of `k` (R138). -/
def ladder (P : Point) (k : Nat) : Nat → Point → Option Point
  | 0, acc => some acc
  | n + 1, acc =>
    match ladderStep P (k.testBit n) acc with
    | none => none
    | some acc' => ladder P k n acc'

/-- `pt_mul(P, k)`: 320 iterations from INF0, whatever k is (R138). -/
def ptMul (P : Point) (k : Nat) : Option Point := ladder P k Config.scalarBits Point.inf0

/-- The value `encrypt(pk, M, r)` (R162). -/
def encrypt (pk M : Point) (r : Nat) : Option (Point × Point) :=
  match ptMul generator r, ptMul pk r with
  | some ca, some mask =>
    match ptAdd M mask with
    | some cb => some (ca, cb)
    | none => none
  | _, _ => none

/-- The value `remask(Ca, Cb, pk, r')` (R163). -/
def remask (ca cb pk : Point) (r : Nat) : Option (Point × Point) :=
  match ptMul generator r, ptMul pk r with
  | some rG, some rPk =>
    match ptAdd ca rG, ptAdd cb rPk with
    | some ca', some cb' => some (ca', cb')
    | _, _ => none
  | _, _ => none

/-- The value `decrypt(sk, Ca, Cb)` (R164). -/
def decrypt (sk : Nat) (ca cb : Point) : Option Point :=
  match ptMul ca sk with
  | some shared => ptAdd cb (ptNeg shared)
  | none => none

end Sys2Proof.Machine

namespace Sys2Proof

/-- Slot `slot` of a point's window: x, then y, then the flag (R45). -/
def Point.slotWord (P : Point) (slot : Fin 11) : Word :=
  if h : slot.val < 5 then P.x.coeff ⟨slot.val, h⟩
  else if h : slot.val - 5 < 5 then P.y.coeff ⟨slot.val - 5, h⟩
  else BitVec.ofNat 64 P.inf.toNat

/-- The point with the part `slot` names replaced, the rest kept; for slot 10 bit 0 of the word (R48, R177). -/
def Point.setSlot (P : Point) (slot : Fin 11) (w : Word) : Point :=
  if h : slot.val < 5 then { P with x := P.x.setCoeff ⟨slot.val, h⟩ (Machine.fromInt64 w) }
  else if h : slot.val - 5 < 5 then { P with y := P.y.setCoeff ⟨slot.val - 5, h⟩ (Machine.fromInt64 w) }
  else { P with inf := w.getLsbD 0 }

end Sys2Proof
end

