-- ==== Sys2Proof/Machine/Ops.lean ====
section
/-! DEFINITION. The named operations over the state: the four register files (R20 to R24), completing a command (R42, R52),
taking a fault (R196), the refusal of the halted state (R197), the wait for a random word (R221), taking a command from the port
(R41), and reset (R210). The core has no memory (R40), no handler and no return from a fault (R198): reset is the one way back. -/

namespace Sys2Proof.Machine

open Sys2Proof

/-- `B[i]` (R8, R20). -/
def State.getB (s : State) (i : RegNum) : Word := s.b[i.val]

/-- `E[i]` (R8, R21). -/
def State.getE (s : State) (i : RegNum) : Ext5 := s.e[i.val]

/-- `K[i]` (R8, R22). -/
def State.getK (s : State) (i : RegNum) : Scalar := s.k[i.val]

/-- `P[i]` (R8, R23). -/
def State.getP (s : State) (i : RegNum) : Point := s.p[i.val]

/-- `B[i] <- v` (R8). -/
def State.setB (s : State) (i : RegNum) (v : Word) : State := { s with b := s.b.set i.val v }

/-- `E[i] <- v` (R8). -/
def State.setE (s : State) (i : RegNum) (v : Ext5) : State := { s with e := s.e.set i.val v }

/-- `K[i] <- v` (R8). -/
def State.setK (s : State) (i : RegNum) (v : Scalar) : State := { s with k := s.k.set i.val v }

/-- `P[i] <- v` (R8). -/
def State.setP (s : State) (i : RegNum) (v : Point) : State := { s with p := s.p.set i.val v }

/-- The random source's words are consumed down to `rest` (R49). -/
def State.setRnd (s : State) (rest : List RandomWord) : State := { s with rnd := rest }

/-- The numeric code of a fault (R190). -/
def FaultCode.code (c : FaultCode) : BitVec 4 :=
  match c with
  | .divisionByZero => 1
  | .invalidPoint => 2
  | .invalidScalarLength => 3
  | .illegalCommand => 4

/-- The response code Halted, which is no fault (R190, R197). -/
def haltedCode : BitVec 4 := 15

/-- The command completes: the response is err 0 with `rdata` (R42, R44). -/
def State.complete (s : State) (rdata : Word) : State := { s with rsp := some ⟨0, rdata⟩, busy := false }

/-- Fault entry: no register and no T is written, FAULT, CAUSE and FCMD record the fault, the response carries its code (R196). -/
def State.takeFault (s : State) (c : FaultCode) : State :=
  { s with fault := true, cause := c.code, fcmd := s.cmd, rsp := some ⟨c.code, 0⟩, busy := false }

/-- The halted state refuses a command: err 15, rdata 0, no other change (R197). -/
def State.refuse (s : State) : State := { s with rsp := some ⟨haltedCode, 0⟩, busy := false }

/-- A command runs only while FAULT = 0; while FAULT = 1 it is refused (R195 item 1, R197). -/
def live (s : State) (act : State) : Host.Outcome State Fault Refusal := .next (if s.fault then s.refuse else act)

/-- KRND has consumed every word the source answered and none was acceptable: it stays in flight, with no response (R125, R221). -/
def State.awaitRandom (s : State) : State := { s with rnd := [], rsp := none, busy := true }

/-- The core takes a command: its word and data word are on the port, no response is present (R41). -/
def State.take (s : State) (cmd : CommandWord) (wdata : Word) (rest : List HostEvent) : State :=
  { s with cmd := cmd, wdata := wdata, rsp := none, host := rest }

/-- Reset: every piece of the core's state at its reset value; what the host will still do and the words the source has not yet
answered are not the core's (R210, R212). -/
def State.afterReset (rest : List HostEvent) (rnd : List RandomWord) : State :=
  { State.reset with host := rest, rnd := rnd }

/-- How many random words the command `cmd` would consume, if taken now: none unless it is a KRND that runs (R49). -/
def State.wordsWanted (s : State) (cmd : CommandWord) : Nat :=
  if s.fault then 0
  else match decode cmd with
    | some (.krnd _) => wordsDrawn s.rnd
    | _ => 0

/-- Reset while the command `cmd` is in flight: it is abandoned, but the words it has consumed stay consumed (R212; log 7). -/
def State.takeResetDuring (s : State) (cmd : CommandWord) (drawn : Nat) (rest : List HostEvent) : State :=
  State.afterReset rest (s.rnd.drop (min drawn (s.wordsWanted cmd)))

/-- `cmd_ready`: 0 from the moment a command is taken until its response has been produced (R41). -/
def State.cmdReady (s : State) : Bool := !s.busy

/-- `rsp_valid`: the response is present (R41). -/
def State.rspValid (s : State) : Bool := s.rsp.isSome

/-- `rnd_req`, between steps: only a waiting KRND asks the random source (R49). -/
def State.rndReq (s : State) : Bool := s.busy

/-- `fault_o` equals STATUS.FAULT at all times (R201). -/
def State.faultO (s : State) : Bool := s.fault

end Sys2Proof.Machine
end

