-- ==== Sys2Proof/Machine/Operands.lean ====
section
/-! DEFINITION. The operand forms that are no plain register: the immediate of EMULI (R71), the slots of the register windows
(R45 to R48), and the checks on the data word of a write (R175, R177). -/

namespace Sys2Proof.Machine

open Sys2Proof

/-- `imm8`, zero-extended and used as is (R71). -/
def immValue (imm8 : BitVec 8) : Nat := imm8.toNat

/-- `E[r].slot` (R45). -/
def State.readE (s : State) (r : RegNum) (slot : Fin 5) : Word := (s.getE r).coeff slot

/-- `E[r].slot <- v`, the other four coefficients unchanged (R48). -/
def State.writeE (s : State) (r : RegNum) (slot : Fin 5) (v : Word) : State := s.setE r ((s.getE r).setCoeff slot v)

/-- `zext_64(K[r].l[slot])` (R45). -/
def State.readK (s : State) (r : RegNum) (slot : Fin 10) : Word := ((s.getK r).limb slot).setWidth 64

/-- `K[r].l[slot] <- v`, the other nine limbs unchanged (R48). -/
def State.writeK (s : State) (r : RegNum) (slot : Fin 10) (v : Limb) : State := s.setK r ((s.getK r).setLimb slot v)

/-- Slot `slot` of `P[r]` (R45). -/
def State.readP (s : State) (r : RegNum) (slot : Fin 11) : Word := (s.getP r).slotWord slot

/-- The part of `P[r]` that `slot` names is written, nothing else (R48, R177). -/
def State.writeP (s : State) (r : RegNum) (slot : Fin 11) (w : Word) : State := s.setP r ((s.getP r).setSlot slot w)

/-- The data word fits a limb: wdata < 2^32 (R175). -/
def limbFits (wdata : Word) : Bool := decide (wdata.toNat < 2 ^ 32)

/-- `wdata[31:0]` (R175). -/
def limbOfWord (wdata : Word) : Limb := wdata.setWidth 32

/-- The data word is legal for the slot: slot 10 takes 0 or 1 only (R177). -/
def pointWordFits (slot : Fin 11) (wdata : Word) : Bool := decide (slot.val ≤ 9) || decide (wdata.toNat ≤ 1)

end Sys2Proof.Machine
end

