-- ==== Sys2Proof/Machine/Flags.lean ====
section
/-! DEFINITION. The test flag T, and the two status registers as the host reads them (R26 to R28). -/

namespace Sys2Proof.Machine

open Sys2Proof

/-- `T <- v` (R26). -/
def State.setT (s : State) (v : Bool) : State := { s with t := v }

/-- `zext_64(T)` (R44). -/
def flagWord (v : Bool) : Word := BitVec.ofNat 64 v.toNat

/-- A comparison completes: T and rdata are its truth value (R26, R44). -/
def State.compare (s : State) (v : Bool) : State := (s.setT v).complete (flagWord v)

/-- STATUS: T in bit 0, FAULT in bit 1, CAUSE in bits 7:4, the rest 0 (R27). -/
def State.statusWord (s : State) : Word :=
  BitVec.ofNat 64 (s.t.toNat + s.fault.toNat * 2 + s.cause.toNat * 2 ^ 4)

/-- `zext_64(FCMD)` (R28). -/
def State.fcmdWord (s : State) : Word := s.fcmd.setWidth 64

/-- The status register RDSR reads (R27, R28, R179). -/
def State.statusRead (s : State) (slot : Fin 2) : Word :=
  match slot with
  | 0 => s.statusWord
  | 1 => s.fcmdWord

end Sys2Proof.Machine
end

