-- ==== Sys2Proof/Machine/BaseField.lean ====
section
/-! DEFINITION. The meanings of the B commands (R84 to R91). -/

namespace Sys2Proof.Machine

open Sys2Proof

/-- BADD: `B[rd] <- B[ra] +p B[rb]` (R84). -/
def execBadd (rd ra rb : RegNum) (s : State) : Host.Outcome State Fault Refusal :=
  live s ((s.setB rd (addP (s.getB ra) (s.getB rb))).complete 0)

/-- BSUB: `B[rd] <- B[ra] −p B[rb]` (R85). -/
def execBsub (rd ra rb : RegNum) (s : State) : Host.Outcome State Fault Refusal :=
  live s ((s.setB rd (subP (s.getB ra) (s.getB rb))).complete 0)

/-- BMUL: `B[rd] <- B[ra] *p B[rb]` (R86). -/
def execBmul (rd ra rb : RegNum) (s : State) : Host.Outcome State Fault Refusal :=
  live s ((s.setB rd (mulP (s.getB ra) (s.getB rb))).complete 0)

/-- BNEG: `B[rd] <- −p B[ra]` (R87). -/
def execBneg (rd ra : RegNum) (s : State) : Host.Outcome State Fault Refusal :=
  live s ((s.setB rd (negP (s.getB ra))).complete 0)

/-- BINV: DivisionByZero when B[ra] = 0, else `B[rd] <- inv_p(B[ra])` (R88). -/
def execBinv (rd ra : RegNum) (s : State) : Host.Outcome State Fault Refusal :=
  live s (if s.getB ra = 0 then s.takeFault .divisionByZero else (s.setB rd (invP (s.getB ra))).complete 0)

/-- BDIV: DivisionByZero when B[rb] = 0, else `B[rd] <- B[ra] *p inv_p(B[rb])` (R89). -/
def execBdiv (rd ra rb : RegNum) (s : State) : Host.Outcome State Fault Refusal :=
  live s (if s.getB rb = 0 then s.takeFault .divisionByZero
    else (s.setB rd (mulP (s.getB ra) (invP (s.getB rb)))).complete 0)

/-- BEQ: T and rdata tell whether B[ra] = B[rb] (R90). -/
def execBeq (ra rb : RegNum) (s : State) : Host.Outcome State Fault Refusal :=
  live s (s.compare (s.getB ra == s.getB rb))

/-- BMOV: `B[rd] <- B[ra]` (R91). -/
def execBmov (rd ra : RegNum) (s : State) : Host.Outcome State Fault Refusal :=
  live s ((s.setB rd (s.getB ra)).complete 0)

end Sys2Proof.Machine
end

