-- ==== Sys2Proof/Machine/ElGamal.lean ====
section
/-! DEFINITION. The meanings of the G commands (R161 to R164). -/

namespace Sys2Proof.Machine

open Sys2Proof

/-- GPUB: `P[rd] <- pt_mul(G, val(K[ra]))` (R161); its fault arm is never reached, since G is on the curve. -/
def execGpub (rd ra : RegNum) (s : State) : Host.Outcome State Fault Refusal :=
  live s (match ptMul generator (s.getK ra).val with
    | some R => (s.setP rd R).complete 0
    | none => s.takeFault .divisionByZero)

/-- GENC: Ca = r·G into P[rd] and Cb = M + r·pk into P[ra], together (R162). A term with rd = ra is an illegal word (R66 d; log 9). -/
def execGenc (rd ra rb rc re : RegNum) (s : State) : Host.Outcome State Fault Refusal :=
  live s (if rd = ra then s.takeFault .illegalCommand
    else match encrypt (s.getP rb) (s.getP rc) (s.getK re).val with
      | some (A, B) => ((s.setP rd A).setP ra B).complete 0
      | none => s.takeFault .divisionByZero)

/-- GRMK: Ca' = Ca + r'·G into P[rd] and Cb' = Cb + r'·pk into P[ra], together (R163). A term with rd = ra is an illegal word
(R66 d; log 9). -/
def execGrmk (rd ra rb rc re rf : RegNum) (s : State) : Host.Outcome State Fault Refusal :=
  live s (if rd = ra then s.takeFault .illegalCommand
    else match remask (s.getP rb) (s.getP rc) (s.getP re) (s.getK rf).val with
      | some (A, B) => ((s.setP rd A).setP ra B).complete 0
      | none => s.takeFault .divisionByZero)

/-- GDEC: `P[rd] <- pt_add(Cb, pt_neg(sk·Ca))` (R164). -/
def execGdec (rd ra rb rc : RegNum) (s : State) : Host.Outcome State Fault Refusal :=
  live s (match decrypt (s.getK ra).val (s.getP rb) (s.getP rc) with
    | some R => (s.setP rd R).complete 0
    | none => s.takeFault .divisionByZero)

end Sys2Proof.Machine
end

