-- ==== Sys2Proof/Machine/ExtField.lean ====
section
/-! DEFINITION. The meanings of the E commands (R105 to R114). -/

namespace Sys2Proof.Machine

open Sys2Proof

/-- EADD: `E[rd] <- e_add(E[ra], E[rb])` (R105). -/
def execEadd (rd ra rb : RegNum) (s : State) : Host.Outcome State Fault Refusal :=
  live s ((s.setE rd (eAdd (s.getE ra) (s.getE rb))).complete 0)

/-- ESUB: `E[rd] <- e_sub(E[ra], E[rb])` (R106). -/
def execEsub (rd ra rb : RegNum) (s : State) : Host.Outcome State Fault Refusal :=
  live s ((s.setE rd (eSub (s.getE ra) (s.getE rb))).complete 0)

/-- EMUL: `E[rd] <- e_mul(E[ra], E[rb])` (R107). -/
def execEmul (rd ra rb : RegNum) (s : State) : Host.Outcome State Fault Refusal :=
  live s ((s.setE rd (eMul (s.getE ra) (s.getE rb))).complete 0)

/-- ESQR: `E[rd] <- e_sqr(E[ra])` (R108). -/
def execEsqr (rd ra : RegNum) (s : State) : Host.Outcome State Fault Refusal :=
  live s ((s.setE rd (eSqr (s.getE ra))).complete 0)

/-- ENEG: `E[rd] <- e_neg(E[ra])` (R109). -/
def execEneg (rd ra : RegNum) (s : State) : Host.Outcome State Fault Refusal :=
  live s ((s.setE rd (eNeg (s.getE ra))).complete 0)

/-- EINV: DivisionByZero when E[ra] = ZERO5, else `E[rd] <- e_inv(E[ra])` (R110). -/
def execEinv (rd ra : RegNum) (s : State) : Host.Outcome State Fault Refusal :=
  live s (if eEq (s.getE ra) Ext5.zero then s.takeFault .divisionByZero else (s.setE rd (eInv (s.getE ra))).complete 0)

/-- EEQ: T and rdata tell whether all five coefficients agree (R111). -/
def execEeq (ra rb : RegNum) (s : State) : Host.Outcome State Fault Refusal :=
  live s (s.compare (eEq (s.getE ra) (s.getE rb)))

/-- EMOV: `E[rd] <- E[ra]` (R112). -/
def execEmov (rd ra : RegNum) (s : State) : Host.Outcome State Fault Refusal :=
  live s ((s.setE rd (s.getE ra)).complete 0)

/-- EFROMB: `E[rd] <- (B[ra], 0, 0, 0, 0)` (R113). -/
def execEfromb (rd ra : RegNum) (s : State) : Host.Outcome State Fault Refusal :=
  live s ((s.setE rd (eFrom (s.getB ra))).complete 0)

/-- EMULI: `E[rd] <- e_muli(E[ra], imm8)` (R114). -/
def execEmuli (rd ra : RegNum) (imm8 : BitVec 8) (s : State) : Host.Outcome State Fault Refusal :=
  live s ((s.setE rd (eMuli (s.getE ra) (immValue imm8))).complete 0)

end Sys2Proof.Machine
end

