-- ==== Sys2Proof/Machine/Group.lean ====
section
/-! DEFINITION. The meanings of the P commands (R141 to R148). -/

namespace Sys2Proof.Machine

open Sys2Proof

/-- PADD: `P[rd] <- pt_add(P[ra], P[rb])`, DivisionByZero from case 5 (R141). -/
def execPadd (rd ra rb : RegNum) (s : State) : Host.Outcome State Fault Refusal :=
  live s (match ptAdd (s.getP ra) (s.getP rb) with
    | some R => (s.setP rd R).complete 0
    | none => s.takeFault .divisionByZero)

/-- PDBL: `P[rd] <- pt_dbl(P[ra])` (R142); its fault arm is never reached (R136). -/
def execPdbl (rd ra : RegNum) (s : State) : Host.Outcome State Fault Refusal :=
  live s (match ptDbl (s.getP ra) with
    | some R => (s.setP rd R).complete 0
    | none => s.takeFault .divisionByZero)

/-- PNEG: `P[rd] <- pt_neg(P[ra])` (R143). -/
def execPneg (rd ra : RegNum) (s : State) : Host.Outcome State Fault Refusal :=
  live s ((s.setP rd (ptNeg (s.getP ra))).complete 0)

/-- PEQ: T and rdata tell whether the points are equal (R144). -/
def execPeq (ra rb : RegNum) (s : State) : Host.Outcome State Fault Refusal :=
  live s (s.compare (ptEq (s.getP ra) (s.getP rb)))

/-- PMUL: `P[rd] <- pt_mul(P[ra], val(K[rb]))`, DivisionByZero from an inner pt_add (R145). -/
def execPmul (rd ra rb : RegNum) (s : State) : Host.Outcome State Fault Refusal :=
  live s (match ptMul (s.getP ra) (s.getK rb).val with
    | some R => (s.setP rd R).complete 0
    | none => s.takeFault .divisionByZero)

/-- PCHK: InvalidPoint when P[ra] is not on the curve, else T and rdata are 1 (R146). -/
def execPchk (ra : RegNum) (s : State) : Host.Outcome State Fault Refusal :=
  live s (if onCurve (s.getP ra) then s.compare true else s.takeFault .invalidPoint)

/-- PGEN: `P[rd] <- G` (R147). -/
def execPgen (rd : RegNum) (s : State) : Host.Outcome State Fault Refusal :=
  live s ((s.setP rd generator).complete 0)

/-- PMOV: `P[rd] <- P[ra]`, all stored bits (R148). -/
def execPmov (rd ra : RegNum) (s : State) : Host.Outcome State Fault Refusal :=
  live s ((s.setP rd (s.getP ra)).complete 0)

end Sys2Proof.Machine
end

