-- ==== Sys2Proof/Machine/ScalarField.lean ====
section
/-! DEFINITION. The meanings of the K commands (R122 to R125). -/

namespace Sys2Proof.Machine

open Sys2Proof

/-- KRED: `K[rd] <- limbs(val(K[ra]) mod n)` (R122). -/
def execKred (rd ra : RegNum) (s : State) : Host.Outcome State Fault Refusal :=
  live s ((s.setK rd (kReduce (s.getK ra))).complete 0)

/-- KEQ: T and rdata tell whether all ten limbs agree (R123). -/
def execKeq (ra rb : RegNum) (s : State) : Host.Outcome State Fault Refusal :=
  live s (s.compare (kEq (s.getK ra) (s.getK rb)))

/-- KRND: the first acceptable candidate of the random source's words goes into K[rd]; with no such word the command stays
in flight (R125, R221; log 3). -/
def execKrnd (rd : RegNum) (s : State) : Host.Outcome State Fault Refusal :=
  live s (match drawKey s.rnd with
    | some (c, rest) => ((s.setRnd rest).setK rd (limbs c)).complete 0
    | none => s.awaitRandom)

/-- KMOV: `K[rd] <- K[ra]` (R124). -/
def execKmov (rd ra : RegNum) (s : State) : Host.Outcome State Fault Refusal :=
  live s ((s.setK rd (s.getK ra)).complete 0)

end Sys2Proof.Machine
end

