-- ==== Sys2Proof/Machine/Transfer.lean ====
section
/-! DEFINITION. The meanings of the transfer and status commands (R171 to R179). -/

namespace Sys2Proof.Machine

open Sys2Proof

/-- WRB: `B[r] <- from_int64(wdata)` (R171). -/
def execWrb (r : RegNum) (s : State) : Host.Outcome State Fault Refusal :=
  live s ((s.setB r (fromInt64 s.wdata)).complete 0)

/-- RDB: `rdata <- B[r]` (R172). -/
def execRdb (r : RegNum) (s : State) : Host.Outcome State Fault Refusal :=
  live s (s.complete (s.getB r))

/-- WRE: `E[r].slot <- from_int64(wdata)` (R173). -/
def execWre (r : RegNum) (slot : Fin 5) (s : State) : Host.Outcome State Fault Refusal :=
  live s ((s.writeE r slot (fromInt64 s.wdata)).complete 0)

/-- RDE: `rdata <- E[r].slot` (R174). -/
def execRde (r : RegNum) (slot : Fin 5) (s : State) : Host.Outcome State Fault Refusal :=
  live s (s.complete (s.readE r slot))

/-- WRK: InvalidScalarLength when wdata ≥ 2^32, else `K[r].l[slot] <- wdata[31:0]` (R175). -/
def execWrk (r : RegNum) (slot : Fin 10) (s : State) : Host.Outcome State Fault Refusal :=
  live s (if limbFits s.wdata then (s.writeK r slot (limbOfWord s.wdata)).complete 0 else s.takeFault .invalidScalarLength)

/-- RDK: `rdata <- zext_64(K[r].l[slot])` (R176). -/
def execRdk (r : RegNum) (slot : Fin 10) (s : State) : Host.Outcome State Fault Refusal :=
  live s (s.complete (s.readK r slot))

/-- WRP: a coordinate slot takes from_int64(wdata), slot 10 takes 0 or 1 and raises InvalidPoint otherwise (R177). -/
def execWrp (r : RegNum) (slot : Fin 11) (s : State) : Host.Outcome State Fault Refusal :=
  live s (if pointWordFits slot s.wdata then (s.writeP r slot s.wdata).complete 0 else s.takeFault .invalidPoint)

/-- RDP: `rdata` is the slot's word (R178). -/
def execRdp (r : RegNum) (slot : Fin 11) (s : State) : Host.Outcome State Fault Refusal :=
  live s (s.complete (s.readP r slot))

/-- RDSR: `rdata` is STATUS or FCMD; it executes also while FAULT = 1 (R179, R197). -/
def execRdsr (slot : Fin 2) (s : State) : Host.Outcome State Fault Refusal :=
  .next (s.complete (s.statusRead slot))

end Sys2Proof.Machine
end

