-- ==== Sys2Proof/Machine/Dispatch.lean ====
section
/-! DEFINITION. Dispatch: one arm per constructor of Instr, each one direct call of its meaning. -/

namespace Sys2Proof.Machine

open Sys2Proof

def exec (i : Instr) (s : State) : Host.Outcome State Fault Refusal :=
  match i with
  | .badd rd ra rb => Sys2Proof.Machine.execBadd rd ra rb s
  | .bsub rd ra rb => Sys2Proof.Machine.execBsub rd ra rb s
  | .bmul rd ra rb => Sys2Proof.Machine.execBmul rd ra rb s
  | .bneg rd ra => Sys2Proof.Machine.execBneg rd ra s
  | .binv rd ra => Sys2Proof.Machine.execBinv rd ra s
  | .bdiv rd ra rb => Sys2Proof.Machine.execBdiv rd ra rb s
  | .beq ra rb => Sys2Proof.Machine.execBeq ra rb s
  | .bmov rd ra => Sys2Proof.Machine.execBmov rd ra s
  | .eadd rd ra rb => Sys2Proof.Machine.execEadd rd ra rb s
  | .esub rd ra rb => Sys2Proof.Machine.execEsub rd ra rb s
  | .emul rd ra rb => Sys2Proof.Machine.execEmul rd ra rb s
  | .esqr rd ra => Sys2Proof.Machine.execEsqr rd ra s
  | .eneg rd ra => Sys2Proof.Machine.execEneg rd ra s
  | .einv rd ra => Sys2Proof.Machine.execEinv rd ra s
  | .eeq ra rb => Sys2Proof.Machine.execEeq ra rb s
  | .emov rd ra => Sys2Proof.Machine.execEmov rd ra s
  | .efromb rd ra => Sys2Proof.Machine.execEfromb rd ra s
  | .emuli rd ra imm8 => Sys2Proof.Machine.execEmuli rd ra imm8 s
  | .kred rd ra => Sys2Proof.Machine.execKred rd ra s
  | .keq ra rb => Sys2Proof.Machine.execKeq ra rb s
  | .krnd rd => Sys2Proof.Machine.execKrnd rd s
  | .kmov rd ra => Sys2Proof.Machine.execKmov rd ra s
  | .padd rd ra rb => Sys2Proof.Machine.execPadd rd ra rb s
  | .pdbl rd ra => Sys2Proof.Machine.execPdbl rd ra s
  | .pneg rd ra => Sys2Proof.Machine.execPneg rd ra s
  | .peq ra rb => Sys2Proof.Machine.execPeq ra rb s
  | .pmul rd ra rb => Sys2Proof.Machine.execPmul rd ra rb s
  | .pchk ra => Sys2Proof.Machine.execPchk ra s
  | .pgen rd => Sys2Proof.Machine.execPgen rd s
  | .pmov rd ra => Sys2Proof.Machine.execPmov rd ra s
  | .gpub rd ra => Sys2Proof.Machine.execGpub rd ra s
  | .genc rd ra rb rc re => Sys2Proof.Machine.execGenc rd ra rb rc re s
  | .grmk rd ra rb rc re rf => Sys2Proof.Machine.execGrmk rd ra rb rc re rf s
  | .gdec rd ra rb rc => Sys2Proof.Machine.execGdec rd ra rb rc s
  | .wrb r => Sys2Proof.Machine.execWrb r s
  | .rdb r => Sys2Proof.Machine.execRdb r s
  | .wre r slot => Sys2Proof.Machine.execWre r slot s
  | .rde r slot => Sys2Proof.Machine.execRde r slot s
  | .wrk r slot => Sys2Proof.Machine.execWrk r slot s
  | .rdk r slot => Sys2Proof.Machine.execRdk r slot s
  | .wrp r slot => Sys2Proof.Machine.execWrp r slot s
  | .rdp r slot => Sys2Proof.Machine.execRdp r slot s
  | .rdsr slot => Sys2Proof.Machine.execRdsr slot s

end Sys2Proof.Machine
end

