-- ==== Sys2Proof/Machine/Port.lean ====
section
/-! DEFINITION. The host port: what the core does with the command word it has taken, and with the next thing the host does
(R41 to R43, R53). It stands after Dispatch because it runs commands; Step only calls it. -/

namespace Sys2Proof.Machine

open Sys2Proof

/-- The command word on the port is examined: a legal word is executed, an illegal one raises IllegalCommand, or is refused
while the core is halted (R68, R194, R195, R197). -/
def State.runCommand (s : State) : Host.Outcome State Fault Refusal :=
  match decode s.cmd with
  | some i => exec i s
  | none => live s (s.takeFault .illegalCommand)

/-- One step of core and host (R43, R51, R53). Reset is taken at once, whatever the core is doing (R210). While a command is in
flight the host can present nothing (R41), and the command goes on. Otherwise the host's next command is taken and run; with
none left the core waits with all its state kept (R56, R203; log 4). -/
def State.hostStep (s : State) : Host.Outcome State Fault Refusal :=
  match s.host, s.busy with
  | .reset :: rest, _ => .next (State.afterReset rest s.rnd)
  | _, true => s.runCommand
  | [], false => .next s
  | .command cmd wdata :: rest, false => (s.take cmd wdata rest).runCommand
  | .resetDuring cmd drawn :: rest, false => .next (s.takeResetDuring cmd drawn rest)

/-- The host's next action is to present `cmd` with the data word 0, to a core that is ready (log 14). -/
def State.presentNext (s : State) (cmd : CommandWord) : State :=
  { s with host := .command cmd 0 :: s.host, busy := false }

end Sys2Proof.Machine
end

