-- ==== Sys2Proof/Machine/Step.lean ====
section
/-! DEFINITION. One step of the machine, and how a table word is placed where the next step takes it. -/

namespace Sys2Proof.Machine

open Sys2Proof

/-- One step: the host's next action, or the core going on with the command in flight. -/
def step (s : State) : Host.Outcome State Fault Refusal := s.hostStep

/-- `s` with the command word of bits `w` as the host's next action (R41, R60; log 14). -/
def State.withFetchWord (s : State) (nbits w : Nat) : State := s.presentNext (BitVec.ofNat 32 (w % 2 ^ nbits))

end Sys2Proof.Machine
end

