-- ==== Sys2Proof/Machine/Assembler.lean ====
section
/-! DEFINITION. The assembler's view of a command (R69) and the pseudo-instructions with their expansions (R70). The core knows
nothing of either: an expansion is a list of things the host does. -/

namespace Sys2Proof

/-- A register as it is written: its file's letter and its number (R69). -/
def regName (file : String) (r : RegNum) : String := file ++ toString r.val

/-- A mnemonic with its operands, separated by commas (R69). -/
def asmLine (mnemonic : String) (operands : List String) : String := mnemonic ++ " " ++ String.intercalate ", " operands

/-- A transfer's operand: the register with its slot in brackets (R69). -/
def slotName (file : String) (r : RegNum) (slot : Nat) : String := regName file r ++ "[" ++ toString slot ++ "]"

/-- A command's operands as they are written, destinations first; the data word of a write is not part of them (R69). -/
def Instr.operands : Instr → List String
  | .badd rd ra rb => [regName "B" rd, regName "B" ra, regName "B" rb]
  | .bsub rd ra rb => [regName "B" rd, regName "B" ra, regName "B" rb]
  | .bmul rd ra rb => [regName "B" rd, regName "B" ra, regName "B" rb]
  | .bneg rd ra => [regName "B" rd, regName "B" ra]
  | .binv rd ra => [regName "B" rd, regName "B" ra]
  | .bdiv rd ra rb => [regName "B" rd, regName "B" ra, regName "B" rb]
  | .beq ra rb => [regName "B" ra, regName "B" rb]
  | .bmov rd ra => [regName "B" rd, regName "B" ra]
  | .eadd rd ra rb => [regName "E" rd, regName "E" ra, regName "E" rb]
  | .esub rd ra rb => [regName "E" rd, regName "E" ra, regName "E" rb]
  | .emul rd ra rb => [regName "E" rd, regName "E" ra, regName "E" rb]
  | .esqr rd ra => [regName "E" rd, regName "E" ra]
  | .eneg rd ra => [regName "E" rd, regName "E" ra]
  | .einv rd ra => [regName "E" rd, regName "E" ra]
  | .eeq ra rb => [regName "E" ra, regName "E" rb]
  | .emov rd ra => [regName "E" rd, regName "E" ra]
  | .efromb rd ra => [regName "E" rd, regName "B" ra]
  | .emuli rd ra imm8 => [regName "E" rd, regName "E" ra, toString imm8.toNat]
  | .kred rd ra => [regName "K" rd, regName "K" ra]
  | .keq ra rb => [regName "K" ra, regName "K" rb]
  | .krnd rd => [regName "K" rd]
  | .kmov rd ra => [regName "K" rd, regName "K" ra]
  | .padd rd ra rb => [regName "P" rd, regName "P" ra, regName "P" rb]
  | .pdbl rd ra => [regName "P" rd, regName "P" ra]
  | .pneg rd ra => [regName "P" rd, regName "P" ra]
  | .peq ra rb => [regName "P" ra, regName "P" rb]
  | .pmul rd ra rb => [regName "P" rd, regName "P" ra, regName "K" rb]
  | .pchk ra => [regName "P" ra]
  | .pgen rd => [regName "P" rd]
  | .pmov rd ra => [regName "P" rd, regName "P" ra]
  | .gpub rd ra => [regName "P" rd, regName "K" ra]
  | .genc rd ra rb rc re => [regName "P" rd, regName "P" ra, regName "P" rb, regName "P" rc, regName "K" re]
  | .grmk rd ra rb rc re rf => [regName "P" rd, regName "P" ra, regName "P" rb, regName "P" rc, regName "P" re, regName "K" rf]
  | .gdec rd ra rb rc => [regName "P" rd, regName "K" ra, regName "P" rb, regName "P" rc]
  | .wrb r => [slotName "B" r 0]
  | .rdb r => [slotName "B" r 0]
  | .wre r slot => [slotName "E" r slot.val]
  | .rde r slot => [slotName "E" r slot.val]
  | .wrk r slot => [slotName "K" r slot.val]
  | .rdk r slot => [slotName "K" r slot.val]
  | .wrp r slot => [slotName "P" r slot.val]
  | .rdp r slot => [slotName "P" r slot.val]
  | .rdsr slot => [toString slot.val]

/-- A command as it is written (R69). -/
def Instr.asm (i : Instr) : String := asmLine i.mnemonic i.operands

/-- A pseudo-instruction (R70). -/
inductive Pseudo where
  /-- `LDB Bd, v` -/
  | ldb (d : RegNum) (v : Word)
  /-- `LDE Ed, (v0, v1, v2, v3, v4)` -/
  | lde (d : RegNum) (v : Vector Word 5)
  /-- `LDK Kd, [l0, ..., l9]` -/
  | ldk (d : RegNum) (l : Vector Word 10)
  /-- `LDP Pd, (x0..x4), (y0..y4), i` -/
  | ldp (d : RegNum) (v : Vector Word 11)
  /-- `PINF Pd` -/
  | pinf (d : RegNum)
  /-- `STE Ed` -/
  | ste (d : RegNum)
  /-- `STK Kd` -/
  | stk (d : RegNum)
  /-- `STP Pd` -/
  | stp (d : RegNum)
  /-- `KEYGEN Kd, Pd` -/
  | keygen (kd pd : RegNum)
  deriving DecidableEq, Repr

/-- The commands a pseudo-instruction stands for, in order, each with its data word (R70). -/
def Pseudo.expand : Pseudo → List (Instr × Word)
  | .ldb d v => [(.wrb d, v)]
  | .lde d v => [(.wre d 0, v[0]), (.wre d 1, v[1]), (.wre d 2, v[2]), (.wre d 3, v[3]), (.wre d 4, v[4])]
  | .ldk d l =>
    [(.wrk d 0, l[0]), (.wrk d 1, l[1]), (.wrk d 2, l[2]), (.wrk d 3, l[3]), (.wrk d 4, l[4]),
     (.wrk d 5, l[5]), (.wrk d 6, l[6]), (.wrk d 7, l[7]), (.wrk d 8, l[8]), (.wrk d 9, l[9])]
  | .ldp d v =>
    [(.wrp d 0, v[0]), (.wrp d 1, v[1]), (.wrp d 2, v[2]), (.wrp d 3, v[3]), (.wrp d 4, v[4]),
     (.wrp d 5, v[5]), (.wrp d 6, v[6]), (.wrp d 7, v[7]), (.wrp d 8, v[8]), (.wrp d 9, v[9]), (.wrp d 10, v[10])]
  | .pinf d => [(.wrp d 10, 1)]
  | .ste d => [(.rde d 0, 0), (.rde d 1, 0), (.rde d 2, 0), (.rde d 3, 0), (.rde d 4, 0)]
  | .stk d =>
    [(.rdk d 0, 0), (.rdk d 1, 0), (.rdk d 2, 0), (.rdk d 3, 0), (.rdk d 4, 0),
     (.rdk d 5, 0), (.rdk d 6, 0), (.rdk d 7, 0), (.rdk d 8, 0), (.rdk d 9, 0)]
  | .stp d =>
    [(.rdp d 0, 0), (.rdp d 1, 0), (.rdp d 2, 0), (.rdp d 3, 0), (.rdp d 4, 0),
     (.rdp d 5, 0), (.rdp d 6, 0), (.rdp d 7, 0), (.rdp d 8, 0), (.rdp d 9, 0), (.rdp d 10, 0)]
  | .keygen kd pd => [(.krnd kd, 0), (.gpub pd kd, 0)]

/-- What the host does to run a list of commands: present each one's word with its data word, in order (R51, R56). -/
def hostEvents (cmds : List (Instr × Word)) : List Machine.HostEvent := cmds.map fun c => .command (encode c.1) c.2

end Sys2Proof
end

