-- ==== Sys2Proof/Safety.lean ====
section
/-! DEFINITION. The terms claims use: the legal states of the core (R27, R28, R31), the points a caller owes (R140), what a completed
command leaves unchanged in each file (R32, R48, R52), and the opcode table as R64 prints it. -/

namespace Sys2Proof.Machine

open Sys2Proof

/-- The three register invariants (R31): every 64-bit word of B, E and P is in [0, p), every limb is in [0, 2^32), every `inf` is
0 or 1. The last two hold of every State by its types. -/
def State.RegistersLegal (s : State) : Prop :=
  (∀ i, Canonical (s.getB i)) ∧ (∀ i, CanonicalExt (s.getE i)) ∧ (∀ i, CanonicalPoint (s.getP i)) ∧
  (∀ i j, ((s.getK i).limb j).toNat < 2 ^ 32) ∧ (∀ i, (s.getP i).inf.toNat ≤ 1)

/-- The legal values of STATUS and FCMD (R27, R28): CAUSE is 0 to 4 and nonzero exactly when FAULT = 1, FCMD is 0 while FAULT = 0. -/
def State.StatusLegal (s : State) : Prop :=
  s.cause.toNat ≤ 4 ∧ (s.cause ≠ 0 ↔ s.fault = true) ∧ (s.fault = false → s.fcmd = 0)

/-- A response the core can give (R44, R208): err is 0 to 4 or 15, and rdata is 0 when err is not. -/
def Response.Legal (r : Response) : Prop := (r.err.toNat ≤ 4 ∨ r.err = haltedCode) ∧ (r.err ≠ 0 → r.rdata = 0)

/-- The port between two steps (R41, R42, R221): a response on it is legal, and a command in flight is a KRND that waits for the
random source, with no response and no fault recorded. -/
def State.PortLegal (s : State) : Prop :=
  (∀ r, s.rsp = some r → r.Legal) ∧
  (s.busy = true → s.rsp = none ∧ s.fault = false ∧ s.rnd = [] ∧ ∃ rd, decode s.cmd = some (.krnd rd))

/-- The invariant every step keeps. -/
def State.Inv (s : State) : Prop := s.RegistersLegal ∧ s.StatusLegal ∧ s.PortLegal

/-- What a caller owes a point it supplies: its words are canonical and it satisfies the curve equation (R140). -/
def GoodPoint (P : Point) : Prop := CanonicalPoint P ∧ onCurve P = true

/-- The core takes commands and has recorded no fault (R195 item 1, R198). -/
def State.Live (s : State) : Prop := s.fault = false

/-- A command completed with `rdata` (R42): the response is err 0, the fault fields and what came over the port are unchanged. -/
def Done (s t : State) (rdata : Word) : Prop :=
  t.rsp = some ⟨0, rdata⟩ ∧ t.busy = false ∧ t.fault = s.fault ∧ t.cause = s.cause ∧ t.fcmd = s.fcmd ∧
  t.cmd = s.cmd ∧ t.wdata = s.wdata ∧ t.host = s.host

/-- Nothing is written: every register, T and the random source's words are unchanged. -/
def SameRegisters (s t : State) : Prop :=
  (∀ r, t.getB r = s.getB r) ∧ (∀ r, t.getE r = s.getE r) ∧ (∀ r, t.getK r = s.getK r) ∧ (∀ r, t.getP r = s.getP r) ∧
  t.t = s.t ∧ t.rnd = s.rnd

/-- Of all registers, T and the random source's words, only B[rd] may have changed. -/
def OnlyB (rd : RegNum) (s t : State) : Prop :=
  (∀ r, r ≠ rd → t.getB r = s.getB r) ∧ (∀ r, t.getE r = s.getE r) ∧ (∀ r, t.getK r = s.getK r) ∧ (∀ r, t.getP r = s.getP r) ∧
  t.t = s.t ∧ t.rnd = s.rnd

/-- Of all registers, T and the random source's words, only E[rd] may have changed. -/
def OnlyE (rd : RegNum) (s t : State) : Prop :=
  (∀ r, t.getB r = s.getB r) ∧ (∀ r, r ≠ rd → t.getE r = s.getE r) ∧ (∀ r, t.getK r = s.getK r) ∧ (∀ r, t.getP r = s.getP r) ∧
  t.t = s.t ∧ t.rnd = s.rnd

/-- Of all registers and T, only K[rd] may have changed; the random source's words are not spoken of. -/
def OnlyKOrRnd (rd : RegNum) (s t : State) : Prop :=
  (∀ r, t.getB r = s.getB r) ∧ (∀ r, t.getE r = s.getE r) ∧ (∀ r, r ≠ rd → t.getK r = s.getK r) ∧ (∀ r, t.getP r = s.getP r) ∧
  t.t = s.t

/-- Of all registers, T and the random source's words, only K[rd] may have changed. -/
def OnlyK (rd : RegNum) (s t : State) : Prop := OnlyKOrRnd rd s t ∧ t.rnd = s.rnd

/-- Of all registers, T and the random source's words, only P[rd] may have changed. -/
def OnlyP (rd : RegNum) (s t : State) : Prop :=
  (∀ r, t.getB r = s.getB r) ∧ (∀ r, t.getE r = s.getE r) ∧ (∀ r, t.getK r = s.getK r) ∧ (∀ r, r ≠ rd → t.getP r = s.getP r) ∧
  t.t = s.t ∧ t.rnd = s.rnd

/-- Of all registers, T and the random source's words, only P[rd] and P[ra] may have changed. -/
def OnlyPP (rd ra : RegNum) (s t : State) : Prop :=
  (∀ r, t.getB r = s.getB r) ∧ (∀ r, t.getE r = s.getE r) ∧ (∀ r, t.getK r = s.getK r) ∧
  (∀ r, r ≠ rd → r ≠ ra → t.getP r = s.getP r) ∧ t.t = s.t ∧ t.rnd = s.rnd

/-- Of all registers, T and the random source's words, only T may have changed. -/
def OnlyT (s t : State) : Prop :=
  (∀ r, t.getB r = s.getB r) ∧ (∀ r, t.getE r = s.getE r) ∧ (∀ r, t.getK r = s.getK r) ∧ (∀ r, t.getP r = s.getP r) ∧
  t.rnd = s.rnd

/-- Fault entry with code `c`, as R196 lists it: nothing is written but FAULT, CAUSE and FCMD, the response carries the code. -/
def FaultEntered (s t : State) (c : BitVec 4) : Prop :=
  SameRegisters s t ∧ t.fault = true ∧ t.cause = c ∧ t.fcmd = s.cmd ∧ t.rsp = some ⟨c, 0⟩ ∧ t.busy = false ∧ t.faultO = true ∧
  t.cmd = s.cmd ∧ t.wdata = s.wdata ∧ t.host = s.host

/-- One row of the opcode table: what `(w AND mask) = match` must be, and the extra condition (R64). -/
structure TableRow where
  mnemonic : String
  mask : CommandWord
  pattern : CommandWord
  extra : CommandWord → Bool

/-- No extra condition. -/
def noExtra (_ : CommandWord) : Bool := true

/-- slot ≤ n, the slot being bits 7:0 (R63, R64). -/
def slotAtMost (n : Nat) (w : CommandWord) : Bool := decide ((w &&& 0xFF#32).toNat ≤ n)

/-- rd ≠ ra, bits 23:20 against bits 19:16 (R61, R64). -/
def twoDestinations (w : CommandWord) : Bool := (w >>> 20 &&& 0xF#32) != (w >>> 16 &&& 0xF#32)

/-- The BaseField rows of R64. -/
def tableB : List TableRow :=
  [⟨"BADD", 0xFF000FFF, 0x10000000, noExtra⟩,
   ⟨"BSUB", 0xFF000FFF, 0x11000000, noExtra⟩,
   ⟨"BMUL", 0xFF000FFF, 0x12000000, noExtra⟩,
   ⟨"BNEG", 0xFF00FFFF, 0x13000000, noExtra⟩,
   ⟨"BINV", 0xFF00FFFF, 0x14000000, noExtra⟩,
   ⟨"BDIV", 0xFF000FFF, 0x15000000, noExtra⟩,
   ⟨"BEQ", 0xFFF00FFF, 0x16000000, noExtra⟩,
   ⟨"BMOV", 0xFF00FFFF, 0x17000000, noExtra⟩]

/-- The Ext5 rows of R64. -/
def tableE : List TableRow :=
  [⟨"EADD", 0xFF000FFF, 0x20000000, noExtra⟩,
   ⟨"ESUB", 0xFF000FFF, 0x21000000, noExtra⟩,
   ⟨"EMUL", 0xFF000FFF, 0x22000000, noExtra⟩,
   ⟨"ESQR", 0xFF00FFFF, 0x23000000, noExtra⟩,
   ⟨"ENEG", 0xFF00FFFF, 0x24000000, noExtra⟩,
   ⟨"EINV", 0xFF00FFFF, 0x25000000, noExtra⟩,
   ⟨"EEQ", 0xFFF00FFF, 0x26000000, noExtra⟩,
   ⟨"EMOV", 0xFF00FFFF, 0x27000000, noExtra⟩,
   ⟨"EFROMB", 0xFF00FFFF, 0x28000000, noExtra⟩,
   ⟨"EMULI", 0xFF00FF00, 0x29000000, noExtra⟩]

/-- The ScalarField rows of R64. -/
def tableK : List TableRow :=
  [⟨"KRED", 0xFF00FFFF, 0x30000000, noExtra⟩,
   ⟨"KEQ", 0xFFF00FFF, 0x31000000, noExtra⟩,
   ⟨"KRND", 0xFF0FFFFF, 0x32000000, noExtra⟩,
   ⟨"KMOV", 0xFF00FFFF, 0x33000000, noExtra⟩]

/-- The Group rows of R64. -/
def tableP : List TableRow :=
  [⟨"PADD", 0xFF000FFF, 0x40000000, noExtra⟩,
   ⟨"PDBL", 0xFF00FFFF, 0x41000000, noExtra⟩,
   ⟨"PNEG", 0xFF00FFFF, 0x42000000, noExtra⟩,
   ⟨"PEQ", 0xFFF00FFF, 0x43000000, noExtra⟩,
   ⟨"PMUL", 0xFF000FFF, 0x44000000, noExtra⟩,
   ⟨"PCHK", 0xFFF0FFFF, 0x45000000, noExtra⟩,
   ⟨"PGEN", 0xFF0FFFFF, 0x46000000, noExtra⟩,
   ⟨"PMOV", 0xFF00FFFF, 0x47000000, noExtra⟩]

/-- The ElGamal rows of R64. -/
def tableG : List TableRow :=
  [⟨"GPUB", 0xFF00FFFF, 0x50000000, noExtra⟩,
   ⟨"GENC", 0xFF00000F, 0x51000000, twoDestinations⟩,
   ⟨"GRMK", 0xFF000000, 0x52000000, twoDestinations⟩,
   ⟨"GDEC", 0xFF0000FF, 0x53000000, noExtra⟩]

/-- The transfer and status rows of R64. -/
def tableX : List TableRow :=
  [⟨"WRB", 0xFF0FFF00, 0x60000000, (slotAtMost 0)⟩,
   ⟨"RDB", 0xFF0FFF00, 0x61000000, (slotAtMost 0)⟩,
   ⟨"WRE", 0xFF0FFF00, 0x62000000, (slotAtMost 4)⟩,
   ⟨"RDE", 0xFF0FFF00, 0x63000000, (slotAtMost 4)⟩,
   ⟨"WRK", 0xFF0FFF00, 0x64000000, (slotAtMost 9)⟩,
   ⟨"RDK", 0xFF0FFF00, 0x65000000, (slotAtMost 9)⟩,
   ⟨"WRP", 0xFF0FFF00, 0x66000000, (slotAtMost 10)⟩,
   ⟨"RDP", 0xFF0FFF00, 0x67000000, (slotAtMost 10)⟩,
   ⟨"RDSR", 0xFFFFFF00, 0x68000000, (slotAtMost 1)⟩]

/-- The 43 rows of R64. -/
def opcodeTable : List TableRow := tableB ++ tableE ++ tableK ++ tableP ++ tableG ++ tableX

/-- The word spells the row's command (R64). -/
def TableRow.spells (row : TableRow) (w : CommandWord) : Bool := (w &&& row.mask) == row.pattern && row.extra w

/-- Format R as R61 lays it out: `op<<24 | rd<<20 | ra<<16 | rb<<12 | rc<<8 | re<<4 | rf`. -/
def wordR (op : CommandWord) (rd ra rb rc re rf : RegNum) : CommandWord :=
  op <<< 24 ||| BitVec.ofNat 32 rd.val <<< 20 ||| BitVec.ofNat 32 ra.val <<< 16 ||| BitVec.ofNat 32 rb.val <<< 12
    ||| BitVec.ofNat 32 rc.val <<< 8 ||| BitVec.ofNat 32 re.val <<< 4 ||| BitVec.ofNat 32 rf.val

/-- Format I as R62 lays it out: `op<<24 | rd<<20 | ra<<16 | imm8`. -/
def wordI (op : CommandWord) (rd ra : RegNum) (imm8 : BitVec 8) : CommandWord :=
  op <<< 24 ||| BitVec.ofNat 32 rd.val <<< 20 ||| BitVec.ofNat 32 ra.val <<< 16 ||| imm8.setWidth 32

/-- Format X as R63 lays it out: `op<<24 | r<<20 | slot`. -/
def wordX (op : CommandWord) (r : RegNum) (slot : BitVec 8) : CommandWord :=
  op <<< 24 ||| BitVec.ofNat 32 r.val <<< 20 ||| slot.setWidth 32

/-- The opcode byte is one of the 213 values R66 (a) lists as unassigned. -/
abbrev UnassignedOpcode (op : Nat) : Prop :=
  op ≤ 0x0F ∨ (0x18 ≤ op ∧ op ≤ 0x1F) ∨ (0x2A ≤ op ∧ op ≤ 0x2F) ∨ (0x34 ≤ op ∧ op ≤ 0x3F) ∨ (0x48 ≤ op ∧ op ≤ 0x4F) ∨
  (0x54 ≤ op ∧ op ≤ 0x5F) ∨ 0x69 ≤ op

/-- The word is illegal by R66: its opcode is unassigned, or its opcode's row does not hold, because a reserved field is not 0
(`(w AND mask) ≠ match`) or because the row's extra condition fails (R68). -/
def IllegalWord (w : CommandWord) : Prop :=
  UnassignedOpcode (w >>> 24).toNat ∨
  ∃ row ∈ opcodeTable, w >>> 24 = row.pattern >>> 24 ∧ (w &&& row.mask ≠ row.pattern ∨ row.extra w = false)

/-- Coefficient k of the product of two polynomials of degree 4 in z, the coefficient of degree k + 5 folded back with the
factor 3 (R102), before reduction modulo p. -/
def foldedProduct (a b : Ext5) (k : Fin 5) : Nat :=
  ∑ i : Fin 5, ∑ j : Fin 5,
    if i.val + j.val = k.val then (a.coeff i).toNat * (b.coeff j).toNat
    else if i.val + j.val = k.val + 5 then 3 * ((a.coeff i).toNat * (b.coeff j).toNat)
    else 0

/-- Steps 7 and following of R135, said without a division: λ is the Ext5 element with λ·den = num, and R is the finite point with
x3 = λ² − a − x1 − x2 and y3 = λ·(x1 − x3) − y1, where a = (2, 0, 0, 0, 0). -/
def LineResult (P Q : Point) (num den : Ext5) (R : Point) : Prop :=
  ∃ lam, CanonicalExt lam ∧ eMul lam den = num ∧ R.inf = false ∧
    R.x = eSub (eSub (eSub (eSqr lam) ⟨2, 0, 0, 0, 0⟩) P.x) Q.x ∧ R.y = eSub (eMul lam (eSub P.x R.x)) P.y

/-- The numerator of the tangent, 3·x² + 4·x + b with b = (0, 263, 0, 0, 0) (R135 case 4). -/
def tangentNumerator (x : Ext5) : Ext5 := eAdd (eAdd (eMuli (eSqr x) 3) (eMuli x 4)) ⟨0, 263, 0, 0, 0⟩

/-- Case 5 of `pt_add`: finite operands with equal x whose y are neither equal nor opposite (R135, R191). -/
def AddCase5 (P Q : Point) : Prop :=
  P.inf = false ∧ Q.inf = false ∧ P.x = Q.x ∧ P.y ≠ Q.y ∧ P.y ≠ eNeg Q.y

/-- The accumulator of the ladder of R138 when the iterations for bits 319 down to n are done. -/
inductive LadderAcc (P : Point) (k : Nat) : Nat → Point → Prop where
  | start : LadderAcc P k 320 Point.inf0
  | double {n : Nat} {acc d : Point} (h : LadderAcc P k (n + 1) acc) (hd : ptAdd acc acc = some d) (hb : k.testBit n = false) :
      LadderAcc P k n d
  | add {n : Nat} {acc d r : Point} (h : LadderAcc P k (n + 1) acc) (hd : ptAdd acc acc = some d) (hb : k.testBit n = true)
      (hr : ptAdd d P = some r) : LadderAcc P k n r

/-- An inner `pt_add` of the ladder reaches case 5 (R138, R191). -/
def MulFaults (P : Point) (k : Nat) : Prop :=
  ∃ n acc d, LadderAcc P k (n + 1) acc ∧ ptAdd acc acc = some d ∧ k.testBit n = true ∧ AddCase5 d P

/-- The k-fold sum of P: INF0, then P added k times (R138). -/
def repeatedSum (P : Point) : Nat → Option Point
  | 0 => some Point.inf0
  | k + 1 =>
    match repeatedSum P k with
    | some S => ptAdd S P
    | none => none

/-- When an instruction raises DivisionByZero (R191). -/
def DivisionByZeroWhen (i : Instr) (s : State) : Prop :=
  match i with
  | .binv _ ra => s.getB ra = 0
  | .bdiv _ _ rb => s.getB rb = 0
  | .einv _ ra => s.getE ra = Ext5.zero
  | .padd _ ra rb => AddCase5 (s.getP ra) (s.getP rb)
  | .pmul _ ra rb => MulFaults (s.getP ra) (s.getK rb).val
  | .genc _ _ rb rc re =>
    MulFaults (s.getP rb) (s.getK re).val ∨ ∃ X, LadderAcc (s.getP rb) (s.getK re).val 0 X ∧ AddCase5 (s.getP rc) X
  | .grmk _ _ rb rc re rf =>
    (∃ X, LadderAcc generator (s.getK rf).val 0 X ∧ AddCase5 (s.getP rb) X) ∨
    MulFaults (s.getP re) (s.getK rf).val ∨ ∃ X, LadderAcc (s.getP re) (s.getK rf).val 0 X ∧ AddCase5 (s.getP rc) X
  | .gdec _ ra rb rc =>
    MulFaults (s.getP rb) (s.getK ra).val ∨ ∃ X, LadderAcc (s.getP rb) (s.getK ra).val 0 X ∧ AddCase5 (s.getP rc) (ptNeg X)
  | _ => False

/-- A finite point that fails y² = x·(x² + 2·x + 263·z) (R133, R146). -/
def OffCurve (P : Point) : Prop :=
  P.inf = false ∧ eMul P.y P.y ≠ eMul P.x (eAdd (eAdd (eMul P.x P.x) (eMuli P.x 2)) ⟨0, 263, 0, 0, 0⟩)

/-- When an instruction raises InvalidPoint (R192). -/
def InvalidPointWhen (i : Instr) (s : State) : Prop :=
  match i with
  | .pchk ra => OffCurve (s.getP ra)
  | .wrp _ slot => slot = 10 ∧ s.wdata ≠ 0 ∧ s.wdata ≠ 1
  | _ => False

/-- When an instruction raises InvalidScalarLength (R193). -/
def InvalidScalarLengthWhen (i : Instr) (s : State) : Prop :=
  match i with
  | .wrk _ _ => 2 ^ 32 ≤ s.wdata.toNat
  | _ => False

/-- The four write commands, the only users of `wdata` (R44). -/
def isWrite : Instr → Bool
  | .wrb _ => true
  | .wre _ _ => true
  | .wrk _ _ => true
  | .wrp _ _ => true
  | _ => false

/-- The five commands that write T (R26). -/
def isTest : Instr → Bool
  | .beq _ _ => true
  | .eeq _ _ => true
  | .keq _ _ => true
  | .peq _ _ => true
  | .pchk _ => true
  | _ => false

/-- RDSR, the one command that executes while FAULT = 1 (R197). -/
def isRdsr : Instr → Bool
  | .rdsr _ => true
  | _ => false

/-- KRND, the one user of the random port (R49). -/
def isKrnd : Instr → Bool
  | .krnd _ => true
  | _ => false

/-- The word a read command returns, and none for the other commands (R44, R45). -/
def wordRead (i : Instr) (s : State) : Option Word :=
  match i with
  | .rdb r => some (s.getB r)
  | .rde r slot => some ((s.getE r).coeff slot)
  | .rdk r slot => some (((s.getK r).limb slot).setWidth 64)
  | .rdp r slot => some ((s.getP r).slotWord slot)
  | .rdsr slot => some (s.statusRead slot)
  | _ => none

/-- The B register a command writes, if any (R32). -/
def destB : Instr → Option RegNum
  | .badd rd _ _ | .bsub rd _ _ | .bmul rd _ _ | .bneg rd _ | .binv rd _ | .bdiv rd _ _ | .bmov rd _ | .wrb rd => some rd
  | _ => none

/-- The E register a command writes, if any (R32). -/
def destE : Instr → Option RegNum
  | .eadd rd _ _ | .esub rd _ _ | .emul rd _ _ | .esqr rd _ | .eneg rd _ | .einv rd _ | .emov rd _ | .efromb rd _
  | .emuli rd _ _ | .wre rd _ => some rd
  | _ => none

/-- The K register a command writes, if any (R32). -/
def destK : Instr → Option RegNum
  | .kred rd _ | .kmov rd _ | .krnd rd | .wrk rd _ => some rd
  | _ => none

/-- The P registers a command writes (R32). -/
def destP : Instr → List RegNum
  | .padd rd _ _ | .pdbl rd _ | .pneg rd _ | .pmul rd _ _ | .pgen rd | .pmov rd _ | .gpub rd _ | .gdec rd _ _ _ | .wrp rd _ => [rd]
  | .genc rd ra _ _ _ | .grmk rd ra _ _ _ _ => [rd, ra]
  | _ => []

end Sys2Proof.Machine
end

