-- ==== Sys2Proof/Certificates/Slice0/Obligations.lean ====
section
/-! DEFINITION. The statements for the provers, from the numbered rules of spec/. -/

open Sys2Proof Sys2Proof.Machine

/-- O1. A step runs the decoded command (derived: spec/20_memory.md R41, R42, R43, R53, R56, spec/30_encoding.md R68). A step of
a core that is ready takes the host's next command word and data word and is exec of the decoded instruction at the state that
has taken them. The core stays put when the host has nothing more to do, and a command that is in flight goes on as the
instruction its word decodes to whatever else the host would present, reset excepted. The host list in the state and the idle
step are the model's choices (logs 1 and 4). -/
def Obligations.StepRunsDecodedCommand : Prop :=
  (∀ (s : State) (cmd : CommandWord) (wdata : Word) (rest : List HostEvent) (i : Instr),
    s.busy = false → s.host = .command cmd wdata :: rest → decode cmd = some i →
      step s = exec i (s.take cmd wdata rest)) ∧
  (∀ s : State, s.busy = false → s.host = [] → step s = .next s) ∧
  (∀ (s : State) (i : Instr), s.busy = true → (∀ rest, s.host ≠ .reset :: rest) → decode s.cmd = some i → step s = exec i s)

/-- O2. No step stops: every command on every state answers a next state (waiting and idling by the model's choice) (derived:
spec/60_exceptions.md R190, R196, R197, spec/70_reset_and_hazards.md R221). Every instruction on every state, and every step of
every state, answers a next state: the core's faults, its refusals while halted, a waiting KRND and an idle core are all next
states. Fault entry and the refusal are the spec's (R196, R197). That a waiting KRND and an idle core are next states and no
stops is the model's choice (logs 3 and 4, DEDUCED): R221 alone would also allow a state with no next state. So is the answer to
a GENC or GRMK term with rd = ra, which no word decodes to (log 9). -/
def Obligations.StepAlwaysNext : Prop :=
  (∀ (i : Instr) (s : State), ∃ t, exec i s = .next t) ∧ (∀ s : State, ∃ t, step s = .next t)

/-- O3. The values of all state after reset (stated: R30). After reset every B register is 0, every E register ZERO5, every K
register all limbs 0, every P register INF0, T, FAULT, CAUSE and FCMD are 0 and no command is in flight. -/
def Obligations.ResetStateValues : Prop :=
  (∀ r, State.reset.getB r = 0) ∧ (∀ r, State.reset.getE r = ⟨0, 0, 0, 0, 0⟩) ∧
  (∀ r j, (State.reset.getK r).limb j = 0) ∧ (∀ r, (State.reset.getK r).val = 0) ∧
  (∀ r, State.reset.getP r = ⟨⟨0, 0, 0, 0, 0⟩, ⟨0, 0, 0, 0, 0⟩, true⟩) ∧
  State.reset.t = false ∧ State.reset.fault = false ∧ State.reset.cause = 0 ∧ State.reset.fcmd = 0 ∧ State.reset.busy = false

/-- O4. Reset reaches the reset values whatever the core is doing (derived: spec/70_reset_and_hazards.md R210, R212,
spec/10_state.md R30). When the host asserts reset, in any state, halted or with a KRND waiting, the step gives the reset value
of every register, T, FAULT, CAUSE and FCMD, fault_o is 0, the core is ready and no response is produced; the random words not
yet consumed are still there. How a reset stands in the host's list is the model's choice (log 1). -/
def Obligations.ResetFromAnyState : Prop :=
  ∀ (s : State) (rest : List HostEvent), s.host = .reset :: rest →
    ∃ t, step s = .next t ∧
      (∀ r, t.getB r = 0) ∧ (∀ r, t.getE r = Ext5.zero) ∧ (∀ r, t.getK r = Scalar.zero) ∧ (∀ r, t.getP r = Point.inf0) ∧
      t.t = false ∧ t.fault = false ∧ t.cause = 0 ∧ t.fcmd = 0 ∧ t.faultO = false ∧ t.busy = false ∧ t.cmdReady = true ∧
      t.rsp = none ∧ t.rnd = s.rnd ∧ t.host = rest

/-- O5. A command abandoned by reset writes nothing and answers nothing (derived: spec/70_reset_and_hazards.md R212,
spec/20_memory.md R42, R49, R52). A command abandoned by a reset leaves the reset state with no response and the core ready; the
random words it had consumed stay consumed and no others: none unless it is a KRND that runs, and for a KRND the words drawn, at
most up to the first acceptable one. The event and its word count are the model's choice (log 7). -/
def Obligations.ResetDuringCommand : Prop :=
  ∀ (s : State) (cmd : CommandWord) (drawn : Nat) (rest : List HostEvent),
    s.busy = false → s.host = .resetDuring cmd drawn :: rest →
    ∃ t, step s = .next t ∧
      (∀ r, t.getB r = 0) ∧ (∀ r, t.getE r = Ext5.zero) ∧ (∀ r, t.getK r = Scalar.zero) ∧ (∀ r, t.getP r = Point.inf0) ∧
      t.t = false ∧ t.fault = false ∧ t.cause = 0 ∧ t.fcmd = 0 ∧ t.busy = false ∧ t.rsp = none ∧ t.host = rest ∧
      ((s.fault = true ∨ ∀ rd, decode cmd ≠ some (.krnd rd)) → t.rnd = s.rnd) ∧
      (∀ rd, s.fault = false → decode cmd = some (.krnd rd) →
        ∃ pre, s.rnd = pre ++ t.rnd ∧ pre.length ≤ drawn ∧ (∀ w ∈ pre.dropLast, acceptable w = false) ∧
          ((∀ w ∈ s.rnd.take drawn, acceptable w = false) → drawn ≤ s.rnd.length → pre.length = drawn))

/-- O6. The invariant holds at reset (derived: spec/10_state.md R27, R28, R30, R31). The reset state has legal registers (R31),
legal status registers (R27, R28) and a legal port. The port's part is the model's own (log 5, log 6). -/
def Obligations.InvariantAtReset : Prop :=
  State.reset.Inv

/-- O7. Every step from every legal state leads to a legal state (derived: spec/10_state.md R27, R28, R31, spec/20_memory.md
R44, spec/60_exceptions.md R208, spec/70_reset_and_hazards.md R221). Every step keeps: every word of B, E and P in [0, p), every
limb below 2^32, every inf 0 or 1; CAUSE at most 4 and nonzero exactly when FAULT = 1, FCMD 0 while FAULT = 0; a response on the
port is 0 to 4 or 15 with rdata 0 when err is not 0; and only a KRND whose source has no more words is in flight, with no
response. The port part rests on logs 3, 5 and 6. -/
def Obligations.StepKeepsInvariant : Prop :=
  ∀ s t : State, s.Inv → step s = .next t → t.Inv

/-- O8. Every command's rule keeps the three register invariants (stated: R31). The three invariants hold at reset and every
instruction that answers a next state keeps them, from any state that has them; so does every step. -/
def Obligations.CommandsKeepRegistersLegal : Prop :=
  State.reset.RegistersLegal ∧
  (∀ (i : Instr) (s t : State), s.RegistersLegal → exec i s = .next t → t.RegistersLegal) ∧
  (∀ s t : State, s.RegistersLegal → step s = .next t → t.RegistersLegal)

/-- O9. Decoding the encoding of any well-formed instruction gives it back (derived: spec/30_encoding.md R60, R61, R62, R63,
R64, R68). For every instruction that is well formed, with every value of every operand, decode of its word is the instruction.
The word is the one R61 to R63 lay out. -/
def Obligations.DecodeEncode : Prop :=
  ∀ i : Instr, i.wellFormed = true → decode (encode i) = some i

/-- O10. Decoding is total and follows mask, match and extra condition of all 43 rows (stated: R68). A word decodes to a command
with a given mnemonic exactly when (w AND mask) = match and the extra condition of that mnemonic's row hold; a word is illegal
exactly when its opcode is unassigned or its row does not hold; the table has 43 rows; and the fields are read from the
positions of R61 to R63, so that the instruction read is well formed and its encoding is the word again. -/
def Obligations.DecodeFollowsTable : Prop :=
  opcodeTable.length = 43 ∧
  (∀ row ∈ opcodeTable, ∀ w : CommandWord, (∃ i, decode w = some i ∧ i.mnemonic = row.mnemonic) ↔ row.spells w = true) ∧
  (∀ w : CommandWord, decode w = none ↔ IllegalWord w) ∧
  (∀ (w : CommandWord) (i : Instr), decode w = some i → ∃ row ∈ opcodeTable, row.mnemonic = i.mnemonic ∧ row.spells w = true) ∧
  (∀ (w : CommandWord) (i : Instr), decode w = some i → i.wellFormed = true ∧ encode i = w)

/-- O11. The illegal words are exactly the four classes of R66 (stated: R66, R194). A word with one of the 213 unassigned opcode
bytes is illegal, the all-zero word and the all-ones word among them; so is one with a nonzero reserved field, one whose slot
exceeds the window's last slot and a GENC or GRMK with rd = ra; every other word is legal; and a command word taken by a ready
core raises IllegalCommand exactly when the core is not faulted and the word is illegal. -/
def Obligations.OpcodeMapIllegal : Prop :=
  (∀ w : CommandWord, decode w = none ↔
    UnassignedOpcode (w >>> 24).toNat ∨
    (∃ row ∈ opcodeTable, w >>> 24 = row.pattern >>> 24 ∧ w &&& row.mask ≠ row.pattern) ∨
    (∃ n, ((w >>> 24, n) ∈ ([(0x60#32, 0), (0x61#32, 0), (0x62#32, 4), (0x63#32, 4), (0x64#32, 9), (0x65#32, 9), (0x66#32, 10),
        (0x67#32, 10), (0x68#32, 1)] : List (CommandWord × Nat))) ∧ n < (w &&& 0xFF#32).toNat) ∨
    ((w >>> 24 = 0x51#32 ∨ w >>> 24 = 0x52#32) ∧ w >>> 20 &&& 0xF#32 = w >>> 16 &&& 0xF#32)) ∧
  decode 0#32 = none ∧ decode 0xFFFFFFFF#32 = none ∧
  ((List.range 256).filter fun op => decide (UnassignedOpcode op)).length = 213 ∧
  (∀ (s : State) (cmd : CommandWord) (wdata : Word) (rest : List HostEvent),
    s.busy = false → s.host = .command cmd wdata :: rest →
    ∃ t, step s = .next t ∧
      (s.fault = false ∧ FaultEntered (s.take cmd wdata rest) t 4 ↔ s.fault = false ∧ decode cmd = none))

/-- O12. Words the spec prints decode to the commands it prints beside them (derived: spec/41_basefield.md R84, spec/42_ext5.md
R114, spec/43_scalar.md R125, spec/44_group.md R145, spec/45_elgamal.md R161, spec/46_transfer_system.md R177, R179). One word
of each family, as the spec prints it: BADD B3, B1, B2; EMULI E1, E0, 4; KRND K3; PMUL P2, P1, K0; GPUB P1, K0; WRP P1[10]; RDSR
0. -/
def Obligations.SpecWordsDecode : Prop :=
  decode 0x10312000#32 = some (.badd 3 1 2) ∧ decode 0x29100004#32 = some (.emuli 1 0 4) ∧
  decode 0x32300000#32 = some (.krnd 3) ∧ decode 0x44210000#32 = some (.pmul 2 1 0) ∧
  decode 0x50100000#32 = some (.gpub 1 0) ∧ decode 0x6610000A#32 = some (.wrp 1 10) ∧ decode 0x68000000#32 = some (.rdsr 0)

/-- O13. Fault entry writes the three fault fields and nothing else (stated: R196). When a command taken by a core that is not
halted leaves FAULT = 1, no register of B, E, K or P and not T has changed, CAUSE and the response hold the same code from 1 to
4, FCMD is the command word, rdata is 0 and fault_o is 1. So it is for an illegal word and for every instruction. -/
def Obligations.FaultEntryIsPrecise : Prop :=
  (∀ (s t : State) (cmd : CommandWord) (wdata : Word) (rest : List HostEvent),
    s.Live → s.busy = false → s.host = .command cmd wdata :: rest → step s = .next t → t.fault = true →
      ∃ c : FaultCode, FaultEntered (s.take cmd wdata rest) t c.code ∧ SameRegisters s t ∧ t.fcmd = cmd ∧
        1 ≤ c.code.toNat ∧ c.code.toNat ≤ 4) ∧
  (∀ (i : Instr) (s t : State), s.Live → exec i s = .next t → t.fault = true → ∃ c : FaultCode, FaultEntered s t c.code)

/-- O14. While FAULT = 1 only a legal RDSR executes, every other word is answered Halted (stated: R197). While FAULT = 1 a
command taken is answered err 15 with rdata 0 and changes nothing, whether its word is legal or not and whatever wdata is,
unless it is a legal RDSR, which answers err 0 with the status word. -/
def Obligations.HaltedRefusesAll : Prop :=
  ∀ (s : State) (cmd : CommandWord) (wdata : Word) (rest : List HostEvent),
    s.fault = true → s.busy = false → s.host = .command cmd wdata :: rest →
    (∀ slot, decode cmd = some (.rdsr slot) →
      ∃ t, step s = .next t ∧ Done (s.take cmd wdata rest) t (if slot = 0 then s.statusWord else s.fcmd.setWidth 64) ∧
        SameRegisters s t) ∧
    ((∀ slot, decode cmd ≠ some (.rdsr slot)) →
      ∃ t, step s = .next t ∧ t.rsp = some ⟨15, 0⟩ ∧ SameRegisters s t ∧ t.fault = true ∧ t.cause = s.cause ∧ t.fcmd = s.fcmd ∧
        t.busy = false ∧ t.host = rest)

/-- O15. A recorded fault stays recorded until a reset (derived: spec/60_exceptions.md R197, R198, spec/70_reset_and_hazards.md
R210). A step from a state with FAULT = 1 either keeps FAULT, CAUSE, FCMD and all registers, or the host's next action was a
reset, which gives the reset state. That a reset is an entry of the host's list is the model's choice (logs 1 and 7). -/
def Obligations.OnlyResetLeavesHalt : Prop :=
  ∀ s t : State, s.fault = true → step s = .next t →
    (t.fault = true ∧ t.cause = s.cause ∧ t.fcmd = s.fcmd ∧ SameRegisters s t) ∨
    (t.fault = false ∧ t.cause = 0 ∧ t.fcmd = 0 ∧ ∃ rest, t = State.afterReset rest t.rnd ∧
      (s.host = .reset :: rest ∨ ∃ cmd n, s.host = .resetDuring cmd n :: rest))

/-- O16. DivisionByZero is raised exactly in the cases R191 lists (stated: R191). A well-formed instruction on a core that is
not halted raises DivisionByZero exactly when it is BINV or BDIV with a zero divisor, EINV of ZERO5, or PADD, PMUL, GENC, GRMK
or GDEC with an evaluation of pt_add that reaches its case 5; the latter never happens when the points it reads are on the
curve; PDBL, GPUB and every other command never raise it. -/
def Obligations.DivisionByZeroExactly : Prop :=
  (∀ (i : Instr) (s t : State), i.wellFormed = true → s.Live → exec i s = .next t →
    (FaultEntered s t 1 ↔ DivisionByZeroWhen i s)) ∧
  (∀ P Q : Point, GoodPoint P → GoodPoint Q → ¬ AddCase5 P Q) ∧
  (∀ (P : Point) (k : Nat), GoodPoint P → ¬ MulFaults P k) ∧
  (∀ (P R : Point) (k n : Nat), GoodPoint P → LadderAcc P k n R → GoodPoint R)

/-- O17. InvalidPoint and InvalidScalarLength are raised exactly where R192 and R193 say (stated: R192, R193). On a core that is
not halted InvalidPoint is raised exactly when PCHK reads a finite point that fails the curve equation or WRP to slot 10 carries
a data word other than 0 or 1, and InvalidScalarLength exactly when WRK carries a data word of 2^32 or more; arithmetic commands
raise neither. -/
def Obligations.OtherFaultsExactly : Prop :=
  ∀ (i : Instr) (s t : State), s.Live → exec i s = .next t →
    (FaultEntered s t 2 ↔ InvalidPointWhen i s) ∧ (FaultEntered s t 3 ↔ InvalidScalarLengthWhen i s)

/-- O18. Every response code, with the state change R208 gives it (stated: R208). Every response to a command taken has err 0, 1
to 4 or 15: with 0 the fault fields are unchanged, with 1 to 4 the command entered that fault on a core that was not faulted,
with 15 the core was faulted and nothing changed; 5 to 14 are never produced. -/
def Obligations.ResponseCodes : Prop :=
  ∀ (s t : State) (cmd : CommandWord) (wdata : Word) (rest : List HostEvent) (r : Response),
    s.busy = false → s.host = .command cmd wdata :: rest → step s = .next t → t.rsp = some r →
      (r.err = 0 ∧ t.fault = s.fault ∧ t.cause = s.cause ∧ t.fcmd = s.fcmd ∧
        ∃ i, decode cmd = some i ∧ exec i (s.take cmd wdata rest) = .next t) ∨
      (1 ≤ r.err.toNat ∧ r.err.toNat ≤ 4 ∧ s.fault = false ∧ FaultEntered (s.take cmd wdata rest) t r.err) ∨
      (r.err = 15 ∧ s.fault = true ∧ SameRegisters s t ∧ t.fault = s.fault ∧ t.cause = s.cause ∧ t.fcmd = s.fcmd)

/-- O19. Every command taken gives one response, but for a KRND the source does not satisfy (derived: spec/20_memory.md R42,
spec/43_scalar.md R125, spec/70_reset_and_hazards.md R221). A command taken by a ready core leaves exactly one response on the
port, or is a KRND of which no random word left is acceptable, which stays in flight with no response, with every register and T
as before; a later step, reset apart, leaves it so. The list of random words and the waiting state are the model's choice (logs
2 and 3). -/
def Obligations.OneResponseEach : Prop :=
  (∀ (s t : State) (cmd : CommandWord) (wdata : Word) (rest : List HostEvent),
    s.busy = false → s.host = .command cmd wdata :: rest → step s = .next t →
      (t.busy = false ∧ ∃ r, t.rsp = some r) ∨
      (s.fault = false ∧ (∃ rd, decode cmd = some (.krnd rd)) ∧ (∀ w ∈ s.rnd, acceptable w = false) ∧ t.busy = true ∧
        t.rsp = none ∧ t.rnd = [] ∧ (∀ q, t.getB q = s.getB q) ∧ (∀ q, t.getE q = s.getE q) ∧ (∀ q, t.getK q = s.getK q) ∧
        (∀ q, t.getP q = s.getP q) ∧ t.t = s.t ∧ t.fault = false)) ∧
  (∀ s : State, s.PortLegal → s.busy = true → (∀ rest, s.host ≠ .reset :: rest) → step s = .next s)

/-- O20. wdata is read by the four writes only; rdata is 0 but for reads and comparisons (stated: R44). Every command but WRB,
WRE, WRK and WRP does the same whatever wdata is; rdata is 0 in every response except those of the five read commands, which
return the word read, and of the five tests, which return the new value of T; and it is 0 whenever err is not 0. -/
def Obligations.DataWordUse : Prop :=
  (∀ (i : Instr) (s t : State) (w : Word), isWrite i = false → exec i s = .next t →
    exec i { s with wdata := w } = .next { t with wdata := w }) ∧
  (∀ (i : Instr) (s t : State) (r : Response), exec i s = .next t → t.rsp = some r → r.err ≠ 0 → r.rdata = 0) ∧
  (∀ (i : Instr) (s t : State) (r : Response), exec i s = .next t → t.rsp = some r → r.err = 0 →
    (∀ w, wordRead i s = some w → r.rdata = w) ∧
    (isTest i = true → r.rdata.toNat = t.t.toNat) ∧
    (wordRead i s = none → isTest i = false → r.rdata = 0)) ∧
  (∀ (s t : State) (cmd : CommandWord) (wdata : Word) (rest : List HostEvent) (r : Response),
    s.busy = false → s.host = .command cmd wdata :: rest → decode cmd = none → step s = .next t → t.rsp = some r → r.rdata = 0)

/-- O21. T is written by the five tests only, and no result depends on it but STATUS bit 0 (stated: R26). Only BEQ, EEQ, KEQ,
PEQ and PCHK can change T, the comparisons to the truth of the equality, PCHK only to 1, and never when the command faults; for
every command but RDSR a different T before changes nothing but T after, and for RDSR nothing but bit 0 of STATUS. -/
def Obligations.TestFlagUse : Prop :=
  (∀ (i : Instr) (s t : State), exec i s = .next t → isTest i = false → t.t = s.t) ∧
  (∀ (ra rb : RegNum) (s t : State), s.Live → exec (.beq ra rb) s = .next t → (t.t = true ↔ s.getB ra = s.getB rb)) ∧
  (∀ (ra rb : RegNum) (s t : State), s.Live → exec (.eeq ra rb) s = .next t → (t.t = true ↔ s.getE ra = s.getE rb)) ∧
  (∀ (ra rb : RegNum) (s t : State), s.Live → exec (.keq ra rb) s = .next t → (t.t = true ↔ s.getK ra = s.getK rb)) ∧
  (∀ (ra rb : RegNum) (s t : State), s.Live → exec (.peq ra rb) s = .next t → (t.t = true ↔ ptEq (s.getP ra) (s.getP rb) = true)) ∧
  (∀ (ra : RegNum) (s t : State), exec (.pchk ra) s = .next t → t.t = s.t ∨ t.t = true) ∧
  (∀ (ra : RegNum) (s t : State), s.Live → exec (.pchk ra) s = .next t → t.rsp = some ⟨0, 1⟩ → t.t = true) ∧
  (∀ (i : Instr) (s t : State) (r : Response), exec i s = .next t → t.rsp = some r → r.err ≠ 0 → t.t = s.t) ∧
  (∀ (i : Instr) (s t : State) (b : Bool), isRdsr i = false → exec i s = .next t →
    ∃ u, exec i (s.setT b) = .next u ∧ u.setT false = t.setT false ∧
      (isTest i = true → ∀ w, t.rsp = some ⟨0, w⟩ → u.t = t.t)) ∧
  (∀ (slot : Fin 2) (s t u : State) (b : Bool), exec (.rdsr slot) s = .next t → exec (.rdsr slot) (s.setT b) = .next u →
    ∃ v w, t.rsp = some ⟨0, v⟩ ∧ u.rsp = some ⟨0, w⟩ ∧ (slot = 1 → v = w) ∧
      (∀ n, 1 ≤ n → v.getLsbD n = w.getLsbD n) ∧ u = { t.setT b with rsp := u.rsp })

/-- O22. Each command writes only the registers its row of R32 names (derived: spec/10_state.md R24, R32, spec/20_memory.md
R52). For every command and every register: a register that is not the command's destination in that file keeps its value, and a
command that does not complete with err 0 changes no register at all; FAULT, CAUSE and FCMD change only on fault entry. -/
def Obligations.FilesWritten : Prop :=
  (∀ (i : Instr) (s t : State), exec i s = .next t →
    (∀ r, destB i ≠ some r → t.getB r = s.getB r) ∧ (∀ r, destE i ≠ some r → t.getE r = s.getE r) ∧
    (∀ r, destK i ≠ some r → t.getK r = s.getK r) ∧ (∀ r, r ∉ destP i → t.getP r = s.getP r)) ∧
  (∀ (i : Instr) (s t : State), exec i s = .next t → (¬ ∃ w, t.rsp = some ⟨0, w⟩) →
    (∀ r, t.getB r = s.getB r) ∧ (∀ r, t.getE r = s.getE r) ∧ (∀ r, t.getK r = s.getK r) ∧ (∀ r, t.getP r = s.getP r)) ∧
  (∀ (i : Instr) (s t : State), exec i s = .next t →
    (t.fault = s.fault ∧ t.cause = s.cause ∧ t.fcmd = s.fcmd) ∨ (s.Live ∧ ∃ c : FaultCode, FaultEntered s t c.code))

/-- O23. Only KRND consumes random words, and no other result depends on them (derived: spec/20_memory.md R49, spec/10_state.md
R29). Every command but KRND leaves the words the source will answer as they are and does the same whatever they are; KRND
consumes words from the front only. The source's words as a list in the state are the model's choice (log 2). -/
def Obligations.RandomPortUse : Prop :=
  (∀ (i : Instr) (s t : State) (ws : List RandomWord), isKrnd i = false → exec i s = .next t →
    t.rnd = s.rnd ∧ t.rndReq = false ∧ exec i (s.setRnd ws) = .next (t.setRnd ws)) ∧
  (∀ (rd : RegNum) (s t : State), exec (.krnd rd) s = .next t → ∃ pre, s.rnd = pre ++ t.rnd) ∧
  (∀ s t : State, step s = .next t → ∃ pre, s.rnd = pre ++ t.rnd)

/-- O24. BADD, BSUB and BNEG: encoding, result, frame, completion (stated: R84, R85, R87). For every register choice BADD, BSUB
and BNEG complete on every legal state that is not halted with err 0 and rdata 0, write the exact sum, difference or negation
reduced to [0, p), and change nothing but B[rd]. -/
def Obligations.BaseAddSubNeg : Prop :=
  (∀ rd ra rb, decode (wordR 0x10 rd ra rb 0 0 0) = some (.badd rd ra rb)) ∧
  (∀ rd ra rb, decode (wordR 0x11 rd ra rb 0 0 0) = some (.bsub rd ra rb)) ∧
  (∀ rd ra, decode (wordR 0x13 rd ra 0 0 0 0) = some (.bneg rd ra)) ∧
  ∀ s : State, s.Live → s.RegistersLegal →
    (∀ rd ra rb, ∃ t, exec (.badd rd ra rb) s = .next t ∧ Done s t 0 ∧ OnlyB rd s t ∧
      (t.getB rd).toNat = if (s.getB ra).toNat + (s.getB rb).toNat < Config.pMod then (s.getB ra).toNat + (s.getB rb).toNat
        else (s.getB ra).toNat + (s.getB rb).toNat - Config.pMod) ∧
    (∀ rd ra rb, ∃ t, exec (.bsub rd ra rb) s = .next t ∧ Done s t 0 ∧ OnlyB rd s t ∧
      (t.getB rd).toNat = if (s.getB rb).toNat ≤ (s.getB ra).toNat then (s.getB ra).toNat - (s.getB rb).toNat
        else (s.getB ra).toNat + Config.pMod - (s.getB rb).toNat) ∧
    (∀ rd ra, ∃ t, exec (.bneg rd ra) s = .next t ∧ Done s t 0 ∧ OnlyB rd s t ∧
      (t.getB rd).toNat = if s.getB ra = 0 then 0 else Config.pMod - (s.getB ra).toNat)

/-- O25. BMUL: encoding, result, frame, completion (stated: R86). BMUL completes on every state that is not halted, writes the
remainder of the exact product on division by p, and changes nothing but B[rd]. -/
def Obligations.BaseMultiply : Prop :=
  (∀ rd ra rb, decode (wordR 0x12 rd ra rb 0 0 0) = some (.bmul rd ra rb)) ∧
  ∀ (s : State) (rd ra rb : RegNum), s.Live →
    ∃ t, exec (.bmul rd ra rb) s = .next t ∧ Done s t 0 ∧ OnlyB rd s t ∧
      (t.getB rd).toNat = (s.getB ra).toNat * (s.getB rb).toNat % Config.pMod

/-- O26. BINV: the unique inverse, or DivisionByZero on 0 (stated: R88). BINV of 0 enters DivisionByZero and writes nothing; on
every other element it completes and writes the one element whose product with the operand is 1 modulo p, and changes nothing
but B[rd]. -/
def Obligations.BaseInvert : Prop :=
  (∀ rd ra, decode (wordR 0x14 rd ra 0 0 0 0) = some (.binv rd ra)) ∧
  ∀ (s : State) (rd ra : RegNum), s.Live → s.RegistersLegal →
    (s.getB ra = 0 → ∃ t, exec (.binv rd ra) s = .next t ∧ FaultEntered s t 1) ∧
    (s.getB ra ≠ 0 → ∃ t, exec (.binv rd ra) s = .next t ∧ Done s t 0 ∧ OnlyB rd s t ∧
      (t.getB rd).toNat < Config.pMod ∧ (s.getB ra).toNat * (t.getB rd).toNat % Config.pMod = 1 ∧
      ∀ c < Config.pMod, (s.getB ra).toNat * c % Config.pMod = 1 → c = (t.getB rd).toNat)

/-- O27. BDIV: the quotient, or DivisionByZero on a zero divisor (stated: R89). BDIV by 0 enters DivisionByZero, also for a zero
dividend, and writes nothing; otherwise it completes and writes the one element of [0, p) that times the divisor is the
dividend, which is the dividend times the divisor's inverse, and changes nothing but B[rd]. -/
def Obligations.BaseDivide : Prop :=
  (∀ rd ra rb, decode (wordR 0x15 rd ra rb 0 0 0) = some (.bdiv rd ra rb)) ∧
  ∀ (s : State) (rd ra rb : RegNum), s.Live → s.RegistersLegal →
    (s.getB rb = 0 → ∃ t, exec (.bdiv rd ra rb) s = .next t ∧ FaultEntered s t 1) ∧
    (s.getB rb ≠ 0 → ∃ t c, exec (.bdiv rd ra rb) s = .next t ∧ Done s t 0 ∧ OnlyB rd s t ∧
      c < Config.pMod ∧ (s.getB rb).toNat * c % Config.pMod = 1 ∧
      (t.getB rd).toNat = (s.getB ra).toNat * c % Config.pMod ∧
      (t.getB rd).toNat * (s.getB rb).toNat % Config.pMod = (s.getB ra).toNat)

/-- O28. BEQ, EEQ, KEQ and PEQ: T and rdata are the truth of the equality (stated: R90, R111, R123, R144). The four comparisons
complete on every state that is not halted, set T and rdata to 1 when the operands are equal and to 0 otherwise, and change
nothing but T: BEQ compares words, EEQ all five coefficients, KEQ all ten limbs (the raw 320-bit values), PEQ both infinite
whatever they store, or both finite with identical x and y. -/
def Obligations.Comparisons : Prop :=
  (∀ ra rb, decode (wordR 0x16 0 ra rb 0 0 0) = some (.beq ra rb)) ∧
  (∀ ra rb, decode (wordR 0x26 0 ra rb 0 0 0) = some (.eeq ra rb)) ∧
  (∀ ra rb, decode (wordR 0x31 0 ra rb 0 0 0) = some (.keq ra rb)) ∧
  (∀ ra rb, decode (wordR 0x43 0 ra rb 0 0 0) = some (.peq ra rb)) ∧
  (∀ op ∈ [0x16#32, 0x26#32, 0x31#32, 0x43#32], ∀ rd ra rb, rd ≠ 0 → decode (wordR op rd ra rb 0 0 0) = none) ∧
  ∀ (s : State) (ra rb : RegNum), s.Live →
    (∃ t b, exec (.beq ra rb) s = .next t ∧ Done s t (if b = true then 1 else 0) ∧ OnlyT s t ∧ t.t = b ∧
      (b = true ↔ s.getB ra = s.getB rb)) ∧
    (∃ t b, exec (.eeq ra rb) s = .next t ∧ Done s t (if b = true then 1 else 0) ∧ OnlyT s t ∧ t.t = b ∧
      (b = true ↔ ∀ k, (s.getE ra).coeff k = (s.getE rb).coeff k)) ∧
    (∃ t b, exec (.keq ra rb) s = .next t ∧ Done s t (if b = true then 1 else 0) ∧ OnlyT s t ∧ t.t = b ∧
      (b = true ↔ ∀ j, (s.getK ra).limb j = (s.getK rb).limb j) ∧ (b = true ↔ (s.getK ra).val = (s.getK rb).val)) ∧
    (∃ t b, exec (.peq ra rb) s = .next t ∧ Done s t (if b = true then 1 else 0) ∧ OnlyT s t ∧ t.t = b ∧
      (b = true ↔ ((s.getP ra).inf = true ∧ (s.getP rb).inf = true) ∨
        ((s.getP ra).inf = false ∧ (s.getP rb).inf = false ∧ (s.getP ra).x = (s.getP rb).x ∧ (s.getP ra).y = (s.getP rb).y)))

/-- O29. BMOV, EMOV, KMOV and PMOV copy all stored bits (stated: R91, R112, R124, R148). The four moves complete on every state
that is not halted, write the whole source register into rd and change nothing else. -/
def Obligations.Moves : Prop :=
  (∀ rd ra, decode (wordR 0x17 rd ra 0 0 0 0) = some (.bmov rd ra)) ∧
  (∀ rd ra, decode (wordR 0x27 rd ra 0 0 0 0) = some (.emov rd ra)) ∧
  (∀ rd ra, decode (wordR 0x33 rd ra 0 0 0 0) = some (.kmov rd ra)) ∧
  (∀ rd ra, decode (wordR 0x47 rd ra 0 0 0 0) = some (.pmov rd ra)) ∧
  ∀ (s : State) (rd ra : RegNum), s.Live →
    (∃ t, exec (.bmov rd ra) s = .next t ∧ Done s t 0 ∧ OnlyB rd s t ∧ t.getB rd = s.getB ra) ∧
    (∃ t, exec (.emov rd ra) s = .next t ∧ Done s t 0 ∧ OnlyE rd s t ∧ t.getE rd = s.getE ra) ∧
    (∃ t, exec (.kmov rd ra) s = .next t ∧ Done s t 0 ∧ OnlyK rd s t ∧ t.getK rd = s.getK ra) ∧
    (∃ t, exec (.pmov rd ra) s = .next t ∧ Done s t 0 ∧ OnlyP rd s t ∧ t.getP rd = s.getP ra)

/-- O30. The adder unit and the multiplier compute the field functions (stated: R81, R82). On canonical operands the adder
unit's ADD, SUB and NEG datapaths give the sum, difference and negation in the field, and the multiplier's split of the 128-bit
product into lo, hl and hh and its reduction give the product modulo p, hl·ε being already below p and hh below 2^32; all
results are canonical. -/
def Obligations.BaseDatapaths : Prop :=
  ∀ a b : Word, Canonical a → Canonical b →
    adderAdd a b = addP a b ∧ adderSub a b = subP a b ∧ adderNeg b = negP b ∧
    Canonical (adderAdd a b) ∧ Canonical (adderSub a b) ∧ Canonical (adderNeg b) ∧
    multiplier a b = mulP a b ∧ (multiplier a b).toNat = a.toNat * b.toNat % Config.pMod ∧
    a.toNat * b.toNat / 2 ^ 64 % 2 ^ 32 * Config.eps < Config.pMod ∧ a.toNat * b.toNat / 2 ^ 96 < 2 ^ 32 ∧
    2 ^ 64 % Config.pMod = 2 ^ 32 - 1 ∧ 2 ^ 96 % Config.pMod = Config.pMod - 1

/-- O31. EADD, ESUB and ENEG work on each coefficient alone (stated: R105, R106, R109). EADD, ESUB and ENEG complete on every
legal state that is not halted, each coefficient of the result is the sum, difference or negation of the operands' coefficients
modulo p with nothing passing between coefficients, and nothing but E[rd] changes. -/
def Obligations.ExtAddSubNeg : Prop :=
  (∀ rd ra rb, decode (wordR 0x20 rd ra rb 0 0 0) = some (.eadd rd ra rb)) ∧
  (∀ rd ra rb, decode (wordR 0x21 rd ra rb 0 0 0) = some (.esub rd ra rb)) ∧
  (∀ rd ra, decode (wordR 0x24 rd ra 0 0 0 0) = some (.eneg rd ra)) ∧
  ∀ s : State, s.Live → s.RegistersLegal →
    (∀ rd ra rb, ∃ t, exec (.eadd rd ra rb) s = .next t ∧ Done s t 0 ∧ OnlyE rd s t ∧ ∀ k,
      ((t.getE rd).coeff k).toNat = (((s.getE ra).coeff k).toNat + ((s.getE rb).coeff k).toNat) % Config.pMod) ∧
    (∀ rd ra rb, ∃ t, exec (.esub rd ra rb) s = .next t ∧ Done s t 0 ∧ OnlyE rd s t ∧ ∀ k,
      ((t.getE rd).coeff k).toNat
        = (((s.getE ra).coeff k).toNat + Config.pMod - ((s.getE rb).coeff k).toNat) % Config.pMod) ∧
    (∀ rd ra, ∃ t, exec (.eneg rd ra) s = .next t ∧ Done s t 0 ∧ OnlyE rd s t ∧ ∀ k,
      ((t.getE rd).coeff k).toNat = (Config.pMod - ((s.getE ra).coeff k).toNat) % Config.pMod)

/-- O32. EMUL and ESQR: the polynomial product folded with z^5 = 3 (stated: R107, R108). EMUL and ESQR complete on every state
that is not halted; coefficient k of the result is the exact coefficient of the product polynomial, the coefficient of degree k
+ 5 folded back times 3, reduced modulo p; nothing but E[rd] changes. -/
def Obligations.ExtMultiplySquare : Prop :=
  (∀ rd ra rb, decode (wordR 0x22 rd ra rb 0 0 0) = some (.emul rd ra rb)) ∧
  (∀ rd ra, decode (wordR 0x23 rd ra 0 0 0 0) = some (.esqr rd ra)) ∧
  ∀ (s : State) (rd ra rb : RegNum), s.Live →
    (∃ t, exec (.emul rd ra rb) s = .next t ∧ Done s t 0 ∧ OnlyE rd s t ∧
      ∀ k, ((t.getE rd).coeff k).toNat = foldedProduct (s.getE ra) (s.getE rb) k % Config.pMod) ∧
    (∃ t, exec (.esqr rd ra) s = .next t ∧ Done s t 0 ∧ OnlyE rd s t ∧
      ∀ k, ((t.getE rd).coeff k).toNat = foldedProduct (s.getE ra) (s.getE ra) k % Config.pMod)

/-- O33. Ext5 multiplication: folded coefficients, field laws, and the optimised square (stated: R102, R103). Each coefficient
of e_mul is the folded coefficient of the product reduced modulo p, and on canonical operands e_mul is commutative and
associative, distributes over e_add and has ONE5 as its identity; e_sqr(a) is e_mul(a, a), and the squarer's optimised form
equals it on every input. -/
def Obligations.ExtMultiplicationLaws : Prop :=
  (∀ a b k, ((eMul a b).coeff k).toNat = foldedProduct a b k % Config.pMod) ∧
  (∀ a : Ext5, eSqr a = eMul a a ∧ eSqrOptimised a = eSqr a) ∧
  ∀ a b c : Ext5, CanonicalExt a → CanonicalExt b → CanonicalExt c →
    eMul a b = eMul b a ∧ eMul (eMul a b) c = eMul a (eMul b c) ∧ eMul a (eAdd b c) = eAdd (eMul a b) (eMul a c) ∧
    eMul a ⟨1, 0, 0, 0, 0⟩ = a

/-- O34. EINV: the unique inverse, or DivisionByZero on ZERO5 (stated: R110). EINV of ZERO5 enters DivisionByZero and writes
nothing; on every other Ext5 element it completes, whichever coefficient is nonzero, and writes the one element whose product
with the operand is ONE5, changing nothing but E[rd]. -/
def Obligations.ExtInvert : Prop :=
  (∀ rd ra, decode (wordR 0x25 rd ra 0 0 0 0) = some (.einv rd ra)) ∧
  ∀ (s : State) (rd ra : RegNum), s.Live → s.RegistersLegal →
    (s.getE ra = ⟨0, 0, 0, 0, 0⟩ → ∃ t, exec (.einv rd ra) s = .next t ∧ FaultEntered s t 1) ∧
    (s.getE ra ≠ ⟨0, 0, 0, 0, 0⟩ → ∃ t, exec (.einv rd ra) s = .next t ∧ Done s t 0 ∧ OnlyE rd s t ∧
      CanonicalExt (t.getE rd) ∧ eMul (s.getE ra) (t.getE rd) = ⟨1, 0, 0, 0, 0⟩ ∧
      ∀ c, CanonicalExt c → eMul (s.getE ra) c = ⟨1, 0, 0, 0, 0⟩ → c = t.getE rd)

/-- O35. EFROMB and EMULI: embedding and multiplication by an unsigned 8-bit integer (stated: R113, R114). EFROMB writes (B[ra],
0, 0, 0, 0); EMULI multiplies every coefficient by the unsigned immediate 0 to 255 and reduces it modulo p, which equals the
product with (imm8, 0, 0, 0, 0); both complete on every state that is not halted and change nothing but E[rd]. -/
def Obligations.ExtEmbedAndSmallMultiply : Prop :=
  (∀ rd ra, decode (wordR 0x28 rd ra 0 0 0 0) = some (.efromb rd ra)) ∧
  (∀ rd ra imm8, decode (wordI 0x29 rd ra imm8) = some (.emuli rd ra imm8)) ∧
  ∀ (s : State) (rd ra : RegNum), s.Live →
    (∃ t, exec (.efromb rd ra) s = .next t ∧ Done s t 0 ∧ OnlyE rd s t ∧ t.getE rd = ⟨s.getB ra, 0, 0, 0, 0⟩) ∧
    (∀ imm8 : BitVec 8, ∃ t, exec (.emuli rd ra imm8) s = .next t ∧ Done s t 0 ∧ OnlyE rd s t ∧
      (∀ k, ((t.getE rd).coeff k).toNat = ((s.getE ra).coeff k).toNat * imm8.toNat % Config.pMod) ∧
      t.getE rd = eMul (s.getE ra) ⟨imm8.setWidth 64, 0, 0, 0, 0⟩)

/-- O36. KRED: reduction of all 320 bits modulo n, and its datapath (stated: R126). KRED (R122) completes on every state that is
not halted, writes the remainder of the whole 320-bit value on division by n, and changes nothing but K[rd]. Because 2n < 2^320
< 3n the quotient is 0, 1 or 2, and two conditional subtractions of n give the same. -/
def Obligations.ScalarReduce : Prop :=
  (∀ rd ra, decode (wordR 0x30 rd ra 0 0 0 0) = some (.kred rd ra)) ∧
  (∀ (s : State) (rd ra : RegNum), s.Live →
    ∃ t, exec (.kred rd ra) s = .next t ∧ Done s t 0 ∧ OnlyK rd s t ∧
      (t.getK rd).val = (s.getK ra).val % groupOrder ∧
      ((s.getK ra).val < groupOrder → t.getK rd = s.getK ra)) ∧
  2 * groupOrder < 2 ^ Config.scalarBits ∧ 2 ^ Config.scalarBits < 3 * groupOrder ∧
  ∀ v < 2 ^ Config.scalarBits, v / groupOrder ≤ 2 ∧ reductionUnit v = v % groupOrder

/-- O37. KRND: the first candidate strictly between 0 and n, or a wait (derived: spec/43_scalar.md R125, spec/20_memory.md R49,
spec/70_reset_and_hazards.md R221). KRND on a core that is not halted discards bit 319 of each random word and every candidate
that is not strictly between 0 and n, writes the first that is into K[rd] and completes, having consumed the words up to it;
when none of the words left is acceptable it consumes them all and stays in flight with no response and nothing written. The
words as a list in the state and the wait as a next state are the model's choice (logs 2 and 3). -/
def Obligations.RandomScalar : Prop :=
  (∀ rd, decode (wordR 0x32 rd 0 0 0 0 0) = some (.krnd rd)) ∧
  ∀ (s : State) (rd : RegNum), s.Live →
    (∀ (pre : List RandomWord) (w : RandomWord) (rest : List RandomWord), s.rnd = pre ++ w :: rest →
      (∀ x ∈ pre, ¬ (0 < x.toNat % 2 ^ (Config.scalarBits - 1) ∧ x.toNat % 2 ^ (Config.scalarBits - 1) < groupOrder)) →
      0 < w.toNat % 2 ^ (Config.scalarBits - 1) → w.toNat % 2 ^ (Config.scalarBits - 1) < groupOrder →
      ∃ t, exec (.krnd rd) s = .next t ∧ Done s t 0 ∧ OnlyKOrRnd rd s t ∧
        (t.getK rd).val = w.toNat % 2 ^ (Config.scalarBits - 1) ∧ t.rnd = rest) ∧
    ((∀ x ∈ s.rnd, ¬ (0 < x.toNat % 2 ^ (Config.scalarBits - 1) ∧ x.toNat % 2 ^ (Config.scalarBits - 1) < groupOrder)) →
      ∃ t, exec (.krnd rd) s = .next t ∧ t.busy = true ∧ t.rsp = none ∧ t.rnd = [] ∧ t.rndReq = true ∧ t.cmdReady = false ∧
        (∀ r, t.getB r = s.getB r) ∧ (∀ r, t.getE r = s.getE r) ∧ (∀ r, t.getK r = s.getK r) ∧ (∀ r, t.getP r = s.getP r) ∧
        t.t = s.t ∧ t.fault = s.fault ∧ t.cause = s.cause ∧ t.fcmd = s.fcmd ∧ t.cmd = s.cmd ∧ t.wdata = s.wdata ∧
        t.host = s.host)

/-- O38. PADD: every case of pt_add, tested in order (stated: R141). PADD on a legal state that is not halted: an infinite first
operand gives the second as stored, an infinite second operand the first; opposite points give INF0; equal points with y not its
own negation give the tangent's third point; equal x with y neither equal nor opposite enters DivisionByZero and writes nothing;
otherwise the chord's third point. When it completes nothing but P[rd] changes. -/
def Obligations.PointAdd : Prop :=
  (∀ rd ra rb, decode (wordR 0x40 rd ra rb 0 0 0) = some (.padd rd ra rb)) ∧
  ∀ (s : State) (rd ra rb : RegNum), s.Live → s.RegistersLegal → ∀ P Q : Point, P = s.getP ra → Q = s.getP rb →
    (P.inf = true → ∃ t, exec (.padd rd ra rb) s = .next t ∧ Done s t 0 ∧ OnlyP rd s t ∧ t.getP rd = Q) ∧
    (P.inf = false → Q.inf = true → ∃ t, exec (.padd rd ra rb) s = .next t ∧ Done s t 0 ∧ OnlyP rd s t ∧ t.getP rd = P) ∧
    (P.inf = false → Q.inf = false → P.x = Q.x → P.y = eNeg Q.y →
      ∃ t, exec (.padd rd ra rb) s = .next t ∧ Done s t 0 ∧ OnlyP rd s t ∧ t.getP rd = Point.inf0) ∧
    (P.inf = false → Q.inf = false → P.x = Q.x → P.y ≠ eNeg Q.y → P.y = Q.y →
      ∃ t, exec (.padd rd ra rb) s = .next t ∧ Done s t 0 ∧ OnlyP rd s t ∧
        LineResult P Q (tangentNumerator P.x) (eMuli P.y 2) (t.getP rd)) ∧
    (P.inf = false → Q.inf = false → P.x = Q.x → P.y ≠ eNeg Q.y → P.y ≠ Q.y →
      ∃ t, exec (.padd rd ra rb) s = .next t ∧ FaultEntered s t 1) ∧
    (P.inf = false → Q.inf = false → P.x ≠ Q.x →
      ∃ t, exec (.padd rd ra rb) s = .next t ∧ Done s t 0 ∧ OnlyP rd s t ∧
        LineResult P Q (eSub Q.y P.y) (eSub Q.x P.x) (t.getP rd))

/-- O39. PDBL: copy of an infinite point, INF0 for y = 0, otherwise the tangent; never a fault (stated: R142). PDBL completes on
every legal state that is not halted: an infinite operand is copied, a finite one with y = ZERO5 gives INF0, any other the
tangent's third point; nothing but P[rd] changes, and it never faults. -/
def Obligations.PointDouble : Prop :=
  (∀ rd ra, decode (wordR 0x41 rd ra 0 0 0 0) = some (.pdbl rd ra)) ∧
  ∀ (s : State) (rd ra : RegNum), s.Live → s.RegistersLegal → ∀ P : Point, P = s.getP ra →
    ∃ t, exec (.pdbl rd ra) s = .next t ∧ Done s t 0 ∧ OnlyP rd s t ∧ ptAdd P P = some (t.getP rd) ∧
      (P.inf = true → t.getP rd = P) ∧
      (P.inf = false → P.y = Ext5.zero → t.getP rd = Point.inf0) ∧
      (P.inf = false → P.y ≠ Ext5.zero → LineResult P P (tangentNumerator P.x) (eMuli P.y 2) (t.getP rd))

/-- O40. PNEG: negates y of a finite point, copies an infinite one (stated: R143). PNEG completes on every legal state that is
not halted, copies an infinite point as stored, replaces y of a finite point by its coefficientwise negation, and changes
nothing but P[rd]. -/
def Obligations.PointNegate : Prop :=
  (∀ rd ra, decode (wordR 0x42 rd ra 0 0 0 0) = some (.pneg rd ra)) ∧
  ∀ (s : State) (rd ra : RegNum), s.Live → s.RegistersLegal →
    ∃ t, exec (.pneg rd ra) s = .next t ∧ Done s t 0 ∧ OnlyP rd s t ∧
      ((s.getP ra).inf = true → t.getP rd = s.getP ra) ∧
      ((s.getP ra).inf = false → (t.getP rd).inf = false ∧ (t.getP rd).x = (s.getP ra).x ∧
        ∀ k, ((t.getP rd).y.coeff k).toNat = (Config.pMod - ((s.getP ra).y.coeff k).toNat) % Config.pMod)

/-- O41. The scalar multiplier runs 320 doublings and conditional additions over the bits of the limbs (derived:
spec/44_group.md R138, R149). pt_mul answers R exactly when the bit-serial ladder over bits 319 down to 0 reaches R, and none
exactly when an inner addition reaches case 5; bit i of the scalar is bit i mod 32 of limb i div 32; k = 0 gives INF0, k = 1
gives a finite P, and an infinite P gives an infinite result, P as stored for k > 0. -/
def Obligations.LadderIsDoubleAndAdd : Prop :=
  (∀ (P : Point) (k : Nat) (R : Point), ptMul P k = some R ↔ LadderAcc P k 0 R) ∧
  (∀ (P : Point) (k : Nat), ptMul P k = none ↔ MulFaults P k) ∧
  (∀ (K : Scalar) (i : Nat) (h : i < 320), K.val.testBit i = (K.limb ⟨i / 32, by omega⟩).getLsbD (i % 32)) ∧
  (∀ P : Point, ptMul P 0 = some Point.inf0) ∧ (∀ P : Point, P.inf = false → ptMul P 1 = some P) ∧
  (∀ (P : Point) (k : Nat), P.inf = true → 0 < k → k < 2 ^ Config.scalarBits → ptMul P k = some P)

/-- O42. PMUL: the ladder's result, or DivisionByZero from an inner addition (stated: R145). PMUL on a state that is not halted
uses all 320 bits of its scalar unreduced: when the ladder reaches R it completes, writes R and changes nothing but P[rd]; it
enters DivisionByZero and writes nothing exactly when an inner pt_add reaches case 5, which needs an operand off the curve; one
of the two always holds, the first for every point on the curve; scalar 0 gives INF0, scalar 1 a copy of a finite P[ra]. -/
def Obligations.PointMultiply : Prop :=
  (∀ rd ra rb, decode (wordR 0x44 rd ra rb 0 0 0) = some (.pmul rd ra rb)) ∧
  ∀ (s : State) (rd ra rb : RegNum), s.Live → ∀ (P : Point) (k : Nat), P = s.getP ra → k = (s.getK rb).val →
    (∀ R, LadderAcc P k 0 R →
      ∃ t, exec (.pmul rd ra rb) s = .next t ∧ Done s t 0 ∧ OnlyP rd s t ∧ t.getP rd = R) ∧
    ((∃ t, exec (.pmul rd ra rb) s = .next t ∧ FaultEntered s t 1) ↔ MulFaults P k) ∧
    (MulFaults P k ∨ ∃ R, LadderAcc P k 0 R) ∧
    (GoodPoint P → ∃ t, exec (.pmul rd ra rb) s = .next t ∧ Done s t 0 ∧ OnlyP rd s t ∧ LadderAcc P k 0 (t.getP rd)) ∧
    (k = 0 → ∃ t, exec (.pmul rd ra rb) s = .next t ∧ Done s t 0 ∧ OnlyP rd s t ∧ t.getP rd = Point.inf0) ∧
    (P.inf = false → k = 1 → ∃ t, exec (.pmul rd ra rb) s = .next t ∧ Done s t 0 ∧ OnlyP rd s t ∧ t.getP rd = P) ∧
    (P.inf = true → ∃ t, exec (.pmul rd ra rb) s = .next t ∧ Done s t 0 ∧ OnlyP rd s t ∧ (t.getP rd).inf = true)

/-- O43. PCHK: the curve equation, or InvalidPoint (stated: R146). PCHK on a state that is not halted enters InvalidPoint when
the point is finite and fails y² = x·(x² + 2·x + 263·z), and otherwise sets T and rdata to 1 and changes nothing else; an
infinite point always passes, and so do N and G. -/
def Obligations.PointCheck : Prop :=
  (∀ ra, decode (wordR 0x45 0 ra 0 0 0 0) = some (.pchk ra)) ∧
  ¬ OffCurve generator ∧ ¬ OffCurve ⟨Ext5.zero, Ext5.zero, false⟩ ∧
  ∀ (s : State) (ra : RegNum), s.Live →
    (OffCurve (s.getP ra) → ∃ t, exec (.pchk ra) s = .next t ∧ FaultEntered s t 2) ∧
    (¬ OffCurve (s.getP ra) → ∃ t, exec (.pchk ra) s = .next t ∧ Done s t 1 ∧ OnlyT s t ∧ t.t = true) ∧
    ((s.getP ra).inf = true → ∃ t, exec (.pchk ra) s = .next t ∧ Done s t 1 ∧ OnlyT s t ∧ t.t = true)

/-- O44. PGEN loads the generator's eleven words (stated: R131, R147). PGEN completes on every state that is not halted and
writes the finite point G with the coordinates R131 prints, G.y being 4 times G.x; nothing but P[rd] changes. -/
def Obligations.PointGenerator : Prop :=
  (∀ rd, decode (wordR 0x46 rd 0 0 0 0 0) = some (.pgen rd)) ∧
  ∀ (s : State) (rd : RegNum), s.Live → ∃ t, exec (.pgen rd) s = .next t ∧ Done s t 0 ∧ OnlyP rd s t ∧
    (t.getP rd).x = ⟨12883135586176881569, 4356519642755055268, 5248930565894896907, 2165973894480315022, 2448410071095648785⟩ ∧
    (t.getP rd).y = ⟨14639054205878357634, 17426078571020221072, 2548978194165003307, 8663895577921260088, 9793640284382595140⟩ ∧
    (t.getP rd).inf = false ∧ (t.getP rd).y = eMuli (t.getP rd).x 4 ∧ CanonicalPoint (t.getP rd)

/-- O45. On the curve pt_add never faults and is an abelian group law (derived: spec/44_group.md R134, R135, R139, R140). On
points of the curve pt_add answers a point of the curve, is commutative and associative up to pt_eq, has every infinite point as
identity and pt_neg as inverse. That this is the law of the curve's group is an inference R139 (e) marks as its own; the curve's
coefficients are from general knowledge in the spec itself (log 11). -/
def Obligations.GroupLaw : Prop :=
  ∀ P Q R : Point, GoodPoint P → GoodPoint Q → GoodPoint R →
    (∃ S, ptAdd P Q = some S ∧ GoodPoint S) ∧ GoodPoint (ptNeg P) ∧
    (∀ S S', ptAdd P Q = some S → ptAdd Q P = some S' → ptEq S S' = true) ∧
    (∀ A B C D, ptAdd P Q = some A → ptAdd A R = some B → ptAdd Q R = some C → ptAdd P C = some D → ptEq B D = true) ∧
    (∀ S, Q.inf = true → ptAdd P Q = some S → ptEq S P = true) ∧
    (∀ S, ptAdd P (ptNeg P) = some S → S.inf = true)

/-- O46. On the curve the ladder is the k-fold sum, additive in the scalar (derived: spec/44_group.md R138, R139, R149). For a
point of the curve and any scalar below 2^320 the ladder answers a point of the curve that is equal as a point to P added k
times, and the product with j + k is the sum of the products with j and with k whenever j + k fits 320 bits. That it is the
k-fold sum in the group is the spec's own inference. -/
def Obligations.LadderIsRepeatedSum : Prop :=
  (∀ (P : Point) (k : Nat), GoodPoint P → k < 2 ^ Config.scalarBits →
    ∃ R S, ptMul P k = some R ∧ repeatedSum P k = some S ∧ GoodPoint R ∧ ptEq R S = true) ∧
  (∀ (P : Point) (j k : Nat), GoodPoint P → j + k < 2 ^ Config.scalarBits →
    ∃ A B C D, ptMul P (j + k) = some A ∧ ptMul P j = some B ∧ ptMul P k = some C ∧ ptAdd B C = some D ∧ ptEq A D = true)

/-- O47. G is on the curve; N is its own negation and doubles to INF0; the printed 2G (derived: spec/44_group.md R139, R142).
Facts (a) and (b) of R139: G is on the curve; N = (ZERO5, ZERO5, 0) is a finite point of the curve that is its own negation and
doubles to INF0; and 2G is the point R142 prints. The curve is from general knowledge in the spec itself (log 11). -/
def Obligations.GroupFacts : Prop :=
  onCurve generator = true ∧ onCurve ⟨Ext5.zero, Ext5.zero, false⟩ = true ∧
  ptDbl ⟨Ext5.zero, Ext5.zero, false⟩ = some Point.inf0 ∧ ptNeg ⟨Ext5.zero, Ext5.zero, false⟩ = ⟨Ext5.zero, Ext5.zero, false⟩ ∧
  ptDbl generator = some
    ⟨⟨17293822565076172804, 8070450530368880624, 0, 0, 0⟩,
     ⟨2802119724609112643, 15148449414430609716, 8946200504603803264, 5543440903273420636, 6411036242926574856⟩, false⟩

/-- O48. Commands make points of the curve from points of the curve (derived: spec/44_group.md R140, spec/45_elgamal.md R161,
R162, R163, R164). If every P register holds a point of the curve then after any command but a WRP, whether it completes, faults
or is refused, every P register still does; and so it is at reset. -/
def Obligations.PointsStayOnCurve : Prop :=
  (∀ r, GoodPoint (State.reset.getP r)) ∧
  ∀ (i : Instr) (s t : State), (∀ r slot, i ≠ .wrp r slot) → (∀ r, GoodPoint (s.getP r)) → exec i s = .next t →
    ∀ r, GoodPoint (t.getP r)

/-- O49. GPUB: k·G for every scalar, never a fault (stated: R161). GPUB completes on every state that is not halted for every
320-bit scalar, writes the ladder's result on G, bit for bit what PGEN and then PMUL give, INF0 for 0 and G for 1, and changes
nothing but P[rd]. -/
def Obligations.PublicKey : Prop :=
  (∀ rd ra, decode (wordR 0x50 rd ra 0 0 0 0) = some (.gpub rd ra)) ∧
  ∀ (s : State) (rd ra : RegNum), s.Live →
    ∃ t, exec (.gpub rd ra) s = .next t ∧ Done s t 0 ∧ OnlyP rd s t ∧
      LadderAcc generator (s.getK ra).val 0 (t.getP rd) ∧
      (∀ pt u v, exec (.pgen pt) s = .next u → exec (.pmul rd pt ra) u = .next v → v.getP rd = t.getP rd) ∧
      ((s.getK ra).val = 0 → t.getP rd = Point.inf0) ∧ ((s.getK ra).val = 1 → t.getP rd = generator)

/-- O50. GENC: Ca = r·G and Cb = M + r·pk, both or neither (stated: R162). GENC with rd = ra is an illegal word. With rd ≠ ra,
on a state that is not halted: it writes Ca = r·G into P[rd] and Cb = M + r·pk into P[ra] together, the sources being read
before; it always completes when pk and M are on the curve; it enters DivisionByZero and writes neither exactly when the ladder
on pk or the last addition reaches case 5; nothing else changes. -/
def Obligations.Encrypt : Prop :=
  (∀ rd ra rb rc re, rd ≠ ra → decode (wordR 0x51 rd ra rb rc re 0) = some (.genc rd ra rb rc re)) ∧
  (∀ rd rb rc re, decode (wordR 0x51 rd rd rb rc re 0) = none) ∧
  ∀ (s : State) (rd ra rb rc re : RegNum), rd ≠ ra → s.Live → ∀ r : Nat, r = (s.getK re).val →
    (∀ A X B, LadderAcc generator r 0 A → LadderAcc (s.getP rb) r 0 X → ptAdd (s.getP rc) X = some B →
      ∃ t, exec (.genc rd ra rb rc re) s = .next t ∧ Done s t 0 ∧ OnlyPP rd ra s t ∧ t.getP rd = A ∧ t.getP ra = B) ∧
    ((∃ t, exec (.genc rd ra rb rc re) s = .next t ∧ FaultEntered s t 1) ↔
      MulFaults (s.getP rb) r ∨ ∃ X, LadderAcc (s.getP rb) r 0 X ∧ AddCase5 (s.getP rc) X) ∧
    (GoodPoint (s.getP rb) → GoodPoint (s.getP rc) →
      ∃ t X, exec (.genc rd ra rb rc re) s = .next t ∧ Done s t 0 ∧ OnlyPP rd ra s t ∧
        LadderAcc generator r 0 (t.getP rd) ∧ LadderAcc (s.getP rb) r 0 X ∧ ptAdd (s.getP rc) X = some (t.getP ra)) ∧
    (r = 0 → (s.getP rc).inf = false →
      ∃ t, exec (.genc rd ra rb rc re) s = .next t ∧ Done s t 0 ∧ t.getP rd = Point.inf0 ∧ t.getP ra = s.getP rc)

/-- O51. GRMK: Ca + r'·G and Cb + r'·pk, both or neither (stated: R163). GRMK with rd = ra is an illegal word. With rd ≠ ra, on
a state that is not halted: it writes Ca' = Ca + r'·G into P[rd] and Cb' = Cb + r'·pk into P[ra] together, the sources being
read before, also in place; it always completes when Ca, Cb and pk are on the curve; it enters DivisionByZero and writes neither
exactly when one of its additions reaches case 5; nothing else changes. -/
def Obligations.Remask : Prop :=
  (∀ rd ra rb rc re rf, rd ≠ ra → decode (wordR 0x52 rd ra rb rc re rf) = some (.grmk rd ra rb rc re rf)) ∧
  (∀ rd rb rc re rf, decode (wordR 0x52 rd rd rb rc re rf) = none) ∧
  ∀ (s : State) (rd ra rb rc re rf : RegNum), rd ≠ ra → s.Live → ∀ r : Nat, r = (s.getK rf).val →
    (∀ X Y A B, LadderAcc generator r 0 X → LadderAcc (s.getP re) r 0 Y → ptAdd (s.getP rb) X = some A →
      ptAdd (s.getP rc) Y = some B →
      ∃ t, exec (.grmk rd ra rb rc re rf) s = .next t ∧ Done s t 0 ∧ OnlyPP rd ra s t ∧ t.getP rd = A ∧ t.getP ra = B) ∧
    ((∃ t, exec (.grmk rd ra rb rc re rf) s = .next t ∧ FaultEntered s t 1) ↔
      (∃ X, LadderAcc generator r 0 X ∧ AddCase5 (s.getP rb) X) ∨ MulFaults (s.getP re) r ∨
      ∃ Y, LadderAcc (s.getP re) r 0 Y ∧ AddCase5 (s.getP rc) Y) ∧
    (GoodPoint (s.getP rb) → GoodPoint (s.getP rc) → GoodPoint (s.getP re) →
      ∃ t X Y, exec (.grmk rd ra rb rc re rf) s = .next t ∧ Done s t 0 ∧ OnlyPP rd ra s t ∧
        LadderAcc generator r 0 X ∧ LadderAcc (s.getP re) r 0 Y ∧
        ptAdd (s.getP rb) X = some (t.getP rd) ∧ ptAdd (s.getP rc) Y = some (t.getP ra)) ∧
    (r = 0 → ∃ t, exec (.grmk rd ra rb rc re rf) s = .next t ∧ Done s t 0 ∧
      t.getP rd = (if (s.getP rb).inf = true then Point.inf0 else s.getP rb) ∧
      t.getP ra = (if (s.getP rc).inf = true then Point.inf0 else s.getP rc))

/-- O52. GDEC: Cb − sk·Ca (stated: R164). GDEC on a state that is not halted writes Cb + pt_neg(sk·Ca) into P[rd]; it always
completes when Ca and Cb are on the curve; it enters DivisionByZero and writes nothing exactly when the ladder on Ca or the last
addition reaches case 5; nothing but P[rd] changes. -/
def Obligations.Decrypt : Prop :=
  (∀ rd ra rb rc, decode (wordR 0x53 rd ra rb rc 0 0) = some (.gdec rd ra rb rc)) ∧
  ∀ (s : State) (rd ra rb rc : RegNum), s.Live → ∀ k : Nat, k = (s.getK ra).val →
    (∀ S R, LadderAcc (s.getP rb) k 0 S → ptAdd (s.getP rc) (ptNeg S) = some R →
      ∃ t, exec (.gdec rd ra rb rc) s = .next t ∧ Done s t 0 ∧ OnlyP rd s t ∧ t.getP rd = R) ∧
    ((∃ t, exec (.gdec rd ra rb rc) s = .next t ∧ FaultEntered s t 1) ↔
      MulFaults (s.getP rb) k ∨ ∃ S, LadderAcc (s.getP rb) k 0 S ∧ AddCase5 (s.getP rc) (ptNeg S)) ∧
    (GoodPoint (s.getP rb) → GoodPoint (s.getP rc) →
      ∃ t S, exec (.gdec rd ra rb rc) s = .next t ∧ Done s t 0 ∧ OnlyP rd s t ∧
        LadderAcc (s.getP rb) k 0 S ∧ ptAdd (s.getP rc) (ptNeg S) = some (t.getP rd)) ∧
    (k = 0 → ∃ t, exec (.gdec rd ra rb rc) s = .next t ∧ Done s t 0 ∧
      t.getP rd = if (s.getP rc).inf = true then Point.inf0 else s.getP rc) ∧
    (∀ S, LadderAcc (s.getP rb) k 0 S → S.inf = false → s.getP rc = S → s.RegistersLegal →
      ∃ t, exec (.gdec rd ra rb rc) s = .next t ∧ Done s t 0 ∧ t.getP rd = Point.inf0)

/-- O53. ElGamal round trip: GDEC of the GENC of M is M, stored bits too when M is finite (derived: spec/45_elgamal.md R162,
R164, R166). For pk = sk·G, M on the curve and any scalars, GENC completes with err 0, GDEC of its two results under sk
completes with err 0, and the point it writes is equal to M, with the same stored bits when M is finite. R166 marks the property
as derived. -/
def Obligations.DecryptUndoesEncrypt : Prop :=
  ∀ (s : State) (ca cb pk m o : RegNum) (kr ks : RegNum), s.Live → ca ≠ cb →
    ptMul generator (s.getK ks).val = some (s.getP pk) → GoodPoint (s.getP m) →
    ∃ t u, exec (.genc ca cb pk m kr) s = .next t ∧ Done s t 0 ∧ exec (.gdec o ks ca cb) t = .next u ∧ Done t u 0 ∧
      ptEq (u.getP o) (s.getP m) = true ∧ ((s.getP m).inf = false → u.getP o = s.getP m)

/-- O54. Remasking keeps the plaintext, and keeps Ca only when r'·G is infinite (derived: spec/45_elgamal.md R163, R164, R166).
For pk = sk·G, Ca and Cb on the curve and any r', GRMK completes with err 0, GDEC under sk of its results and GDEC under sk of
(Ca, Cb) both complete with err 0, and the two points they write are equal; and Ca' is equal to Ca exactly when r'·G is
infinite. R166 marks the properties as derived. -/
def Obligations.RemaskKeepsPlaintext : Prop :=
  ∀ (s : State) (ca' cb' ca cb pk o kr ks : RegNum), s.Live → ca' ≠ cb' →
    ptMul generator (s.getK ks).val = some (s.getP pk) → GoodPoint (s.getP ca) → GoodPoint (s.getP cb) →
    ∃ t u v, exec (.grmk ca' cb' ca cb pk kr) s = .next t ∧ Done s t 0 ∧ exec (.gdec o ks ca' cb') t = .next u ∧ Done t u 0 ∧
      exec (.gdec o ks ca cb) s = .next v ∧ Done s v 0 ∧ ptEq (u.getP o) (v.getP o) = true ∧
      (ptEq (t.getP ca') (s.getP ca) = true ↔ ∃ X, ptMul generator (s.getK kr).val = some X ∧ X.inf = true)

/-- O55. WRB and WRE: the data word modulo p into one slot, the other slots kept (stated: R171, R173). WRB and WRE complete on
every state that is not halted for every data word, write it reduced modulo p, and change nothing but B[r], or coefficient slot
of E[r]; a slot outside the window is an illegal word. -/
def Obligations.WriteFieldWords : Prop :=
  (∀ (r : RegNum) (slot : BitVec 8), decode (wordX 0x60 r slot) = if slot = 0 then some (.wrb r) else none) ∧
  (∀ (r : RegNum) (slot : BitVec 8), decode (wordX 0x62 r slot) = if h : slot.toNat < 5 then some (.wre r ⟨slot.toNat, h⟩) else none) ∧
  ∀ (s : State) (r : RegNum), s.Live →
    (∃ t, exec (.wrb r) s = .next t ∧ Done s t 0 ∧ OnlyB r s t ∧ (t.getB r).toNat = s.wdata.toNat % Config.pMod) ∧
    (∀ slot : Fin 5, ∃ t, exec (.wre r slot) s = .next t ∧ Done s t 0 ∧ OnlyE r s t ∧
      ((t.getE r).coeff slot).toNat = s.wdata.toNat % Config.pMod ∧
      ∀ k, k ≠ slot → (t.getE r).coeff k = (s.getE r).coeff k)

/-- O56. WRK: a limb that fits 32 bits, else InvalidScalarLength (stated: R175). WRK on a state that is not halted enters
InvalidScalarLength and writes nothing when the data word is 2^32 or more; otherwise it completes, writes the word as limb slot
of K[r] and changes nothing else; a slot above 9 is an illegal word. -/
def Obligations.WriteLimb : Prop :=
  (∀ (r : RegNum) (slot : BitVec 8), decode (wordX 0x64 r slot) = if h : slot.toNat < 10 then some (.wrk r ⟨slot.toNat, h⟩) else none) ∧
  ∀ (s : State) (r : RegNum) (slot : Fin 10), s.Live →
    (2 ^ 32 ≤ s.wdata.toNat → ∃ t, exec (.wrk r slot) s = .next t ∧ FaultEntered s t 3) ∧
    (s.wdata.toNat < 2 ^ 32 → ∃ t, exec (.wrk r slot) s = .next t ∧ Done s t 0 ∧ OnlyK r s t ∧
      ((t.getK r).limb slot).toNat = s.wdata.toNat ∧ ∀ j, j ≠ slot → (t.getK r).limb j = (s.getK r).limb j)

/-- O57. WRP: one coordinate word modulo p, or the flag as 0 or 1 (stated: R177). WRP on a state that is not halted: slots 0 to
4 write x, slots 5 to 9 write y, each the data word modulo p; slot 10 writes the flag from bit 0 and enters InvalidPoint,
writing nothing, when the data word exceeds 1; only the named part of P[r] changes; a slot above 10 is an illegal word. -/
def Obligations.WritePoint : Prop :=
  (∀ (r : RegNum) (slot : BitVec 8), decode (wordX 0x66 r slot) = if h : slot.toNat < 11 then some (.wrp r ⟨slot.toNat, h⟩) else none) ∧
  ∀ (s : State) (r : RegNum), s.Live →
    (∀ k : Fin 5, ∃ t, exec (.wrp r ⟨k.val, by omega⟩) s = .next t ∧ Done s t 0 ∧ OnlyP r s t ∧
      ((t.getP r).x.coeff k).toNat = s.wdata.toNat % Config.pMod ∧
      (∀ j, j ≠ k → (t.getP r).x.coeff j = (s.getP r).x.coeff j) ∧ (t.getP r).y = (s.getP r).y ∧ (t.getP r).inf = (s.getP r).inf) ∧
    (∀ k : Fin 5, ∃ t, exec (.wrp r ⟨k.val + 5, by omega⟩) s = .next t ∧ Done s t 0 ∧ OnlyP r s t ∧
      ((t.getP r).y.coeff k).toNat = s.wdata.toNat % Config.pMod ∧
      (∀ j, j ≠ k → (t.getP r).y.coeff j = (s.getP r).y.coeff j) ∧ (t.getP r).x = (s.getP r).x ∧ (t.getP r).inf = (s.getP r).inf) ∧
    (1 < s.wdata.toNat → ∃ t, exec (.wrp r 10) s = .next t ∧ FaultEntered s t 2) ∧
    (s.wdata.toNat ≤ 1 → ∃ t, exec (.wrp r 10) s = .next t ∧ Done s t 0 ∧ OnlyP r s t ∧
      (t.getP r).inf.toNat = s.wdata.toNat ∧ (t.getP r).x = (s.getP r).x ∧ (t.getP r).y = (s.getP r).y)

/-- O58. RDB, RDE, RDK and RDP return the slot's word and change no state (stated: R172, R174, R176, R178). The four reads
complete on every state that is not halted and return the slot's word: the B register, the coefficient, the limb zero-extended,
or for a point x in slots 0 to 4, y in slots 5 to 9 and the flag in slot 10, as stored; no register, no T and no fault field
changes; a slot outside the window is an illegal word. -/
def Obligations.ReadWords : Prop :=
  (∀ (r : RegNum) (slot : BitVec 8), decode (wordX 0x61 r slot) = if slot = 0 then some (.rdb r) else none) ∧
  (∀ (r : RegNum) (slot : BitVec 8), decode (wordX 0x63 r slot) = if h : slot.toNat < 5 then some (.rde r ⟨slot.toNat, h⟩) else none) ∧
  (∀ (r : RegNum) (slot : BitVec 8), decode (wordX 0x65 r slot) = if h : slot.toNat < 10 then some (.rdk r ⟨slot.toNat, h⟩) else none) ∧
  (∀ (r : RegNum) (slot : BitVec 8), decode (wordX 0x67 r slot) = if h : slot.toNat < 11 then some (.rdp r ⟨slot.toNat, h⟩) else none) ∧
  ∀ (s : State) (r : RegNum), s.Live →
    (∃ t, exec (.rdb r) s = .next t ∧ Done s t (s.getB r) ∧ SameRegisters s t) ∧
    (∀ slot : Fin 5, ∃ t, exec (.rde r slot) s = .next t ∧ SameRegisters s t ∧ Done s t ((s.getE r).coeff slot)) ∧
    (∀ slot : Fin 10, ∃ t w, exec (.rdk r slot) s = .next t ∧ SameRegisters s t ∧ Done s t w ∧ w.toNat = ((s.getK r).limb slot).toNat) ∧
    (∀ k : Fin 5, ∃ t, exec (.rdp r ⟨k.val, by omega⟩) s = .next t ∧ SameRegisters s t ∧ Done s t ((s.getP r).x.coeff k)) ∧
    (∀ k : Fin 5, ∃ t, exec (.rdp r ⟨k.val + 5, by omega⟩) s = .next t ∧ SameRegisters s t ∧ Done s t ((s.getP r).y.coeff k)) ∧
    (∃ t, exec (.rdp r 10) s = .next t ∧ SameRegisters s t ∧ Done s t (if (s.getP r).inf = true then 1 else 0))

/-- O59. RDSR: STATUS and FCMD bit by bit; it alone executes while halted (stated: R179). RDSR completes on every state, halted
or not, and changes no register, no T and no fault field. Slot 0 returns STATUS with T in bit 0, FAULT in bit 1, CAUSE in bits
7:4 and zeros elsewhere; slot 1 returns FCMD in bits 31:0 with zeros above. A slot above 1 or a nonzero r field is an illegal
word. While FAULT = 1 every other instruction is refused with err 15 and rdata 0 and changes no register, no T and no fault
field. -/
def Obligations.ReadStatus : Prop :=
  (∀ slot : BitVec 8, decode (wordX 0x68 0 slot) = if h : slot.toNat < 2 then some (.rdsr ⟨slot.toNat, h⟩) else none) ∧
  (∀ (r : RegNum) (slot : BitVec 8), r ≠ 0 → decode (wordX 0x68 r slot) = none) ∧
  ∀ s : State,
    (∃ t w, exec (.rdsr 0) s = .next t ∧ SameRegisters s t ∧ Done s t w ∧ w.getLsbD 0 = s.t ∧ w.getLsbD 1 = s.fault ∧
      w.getLsbD 2 = false ∧ w.getLsbD 3 = false ∧ w.extractLsb' 4 4 = s.cause ∧ ∀ n, 8 ≤ n → w.getLsbD n = false) ∧
    (∃ t w, exec (.rdsr 1) s = .next t ∧ SameRegisters s t ∧ Done s t w ∧ w.extractLsb' 0 32 = s.fcmd ∧
      ∀ n, 32 ≤ n → w.getLsbD n = false) ∧
    (∀ i : Instr, s.fault = true → isRdsr i = false →
      ∃ t, exec i s = .next t ∧ t.rsp = some ⟨15, 0⟩ ∧ t.busy = false ∧ SameRegisters s t ∧ t.fault = s.fault ∧ t.cause = s.cause ∧
        t.fcmd = s.fcmd)
end

