-- ==== Sys2Proof/Laws/State.lean ====
section
/-! SUPPORT. One lemma per field per update of the state, each true by rfl, and the register files' read-after-write laws. -/

namespace Sys2Proof.Machine

open Sys2Proof

section Fields

variable (s : State)

@[simp] theorem State.setB_b (i : RegNum) (v : Word) : (s.setB i v).b = s.b.set i.val v := rfl
@[simp] theorem State.setB_e (i : RegNum) (v : Word) : (s.setB i v).e = s.e := rfl
@[simp] theorem State.setB_k (i : RegNum) (v : Word) : (s.setB i v).k = s.k := rfl
@[simp] theorem State.setB_p (i : RegNum) (v : Word) : (s.setB i v).p = s.p := rfl
@[simp] theorem State.setB_t (i : RegNum) (v : Word) : (s.setB i v).t = s.t := rfl
@[simp] theorem State.setB_fault (i : RegNum) (v : Word) : (s.setB i v).fault = s.fault := rfl
@[simp] theorem State.setB_cause (i : RegNum) (v : Word) : (s.setB i v).cause = s.cause := rfl
@[simp] theorem State.setB_fcmd (i : RegNum) (v : Word) : (s.setB i v).fcmd = s.fcmd := rfl
@[simp] theorem State.setB_cmd (i : RegNum) (v : Word) : (s.setB i v).cmd = s.cmd := rfl
@[simp] theorem State.setB_wdata (i : RegNum) (v : Word) : (s.setB i v).wdata = s.wdata := rfl
@[simp] theorem State.setB_busy (i : RegNum) (v : Word) : (s.setB i v).busy = s.busy := rfl
@[simp] theorem State.setB_rsp (i : RegNum) (v : Word) : (s.setB i v).rsp = s.rsp := rfl
@[simp] theorem State.setB_rnd (i : RegNum) (v : Word) : (s.setB i v).rnd = s.rnd := rfl
@[simp] theorem State.setB_host (i : RegNum) (v : Word) : (s.setB i v).host = s.host := rfl

@[simp] theorem State.setE_b (i : RegNum) (v : Ext5) : (s.setE i v).b = s.b := rfl
@[simp] theorem State.setE_e (i : RegNum) (v : Ext5) : (s.setE i v).e = s.e.set i.val v := rfl
@[simp] theorem State.setE_k (i : RegNum) (v : Ext5) : (s.setE i v).k = s.k := rfl
@[simp] theorem State.setE_p (i : RegNum) (v : Ext5) : (s.setE i v).p = s.p := rfl
@[simp] theorem State.setE_t (i : RegNum) (v : Ext5) : (s.setE i v).t = s.t := rfl
@[simp] theorem State.setE_fault (i : RegNum) (v : Ext5) : (s.setE i v).fault = s.fault := rfl
@[simp] theorem State.setE_cause (i : RegNum) (v : Ext5) : (s.setE i v).cause = s.cause := rfl
@[simp] theorem State.setE_fcmd (i : RegNum) (v : Ext5) : (s.setE i v).fcmd = s.fcmd := rfl
@[simp] theorem State.setE_cmd (i : RegNum) (v : Ext5) : (s.setE i v).cmd = s.cmd := rfl
@[simp] theorem State.setE_wdata (i : RegNum) (v : Ext5) : (s.setE i v).wdata = s.wdata := rfl
@[simp] theorem State.setE_busy (i : RegNum) (v : Ext5) : (s.setE i v).busy = s.busy := rfl
@[simp] theorem State.setE_rsp (i : RegNum) (v : Ext5) : (s.setE i v).rsp = s.rsp := rfl
@[simp] theorem State.setE_rnd (i : RegNum) (v : Ext5) : (s.setE i v).rnd = s.rnd := rfl
@[simp] theorem State.setE_host (i : RegNum) (v : Ext5) : (s.setE i v).host = s.host := rfl

@[simp] theorem State.setK_b (i : RegNum) (v : Scalar) : (s.setK i v).b = s.b := rfl
@[simp] theorem State.setK_e (i : RegNum) (v : Scalar) : (s.setK i v).e = s.e := rfl
@[simp] theorem State.setK_k (i : RegNum) (v : Scalar) : (s.setK i v).k = s.k.set i.val v := rfl
@[simp] theorem State.setK_p (i : RegNum) (v : Scalar) : (s.setK i v).p = s.p := rfl
@[simp] theorem State.setK_t (i : RegNum) (v : Scalar) : (s.setK i v).t = s.t := rfl
@[simp] theorem State.setK_fault (i : RegNum) (v : Scalar) : (s.setK i v).fault = s.fault := rfl
@[simp] theorem State.setK_cause (i : RegNum) (v : Scalar) : (s.setK i v).cause = s.cause := rfl
@[simp] theorem State.setK_fcmd (i : RegNum) (v : Scalar) : (s.setK i v).fcmd = s.fcmd := rfl
@[simp] theorem State.setK_cmd (i : RegNum) (v : Scalar) : (s.setK i v).cmd = s.cmd := rfl
@[simp] theorem State.setK_wdata (i : RegNum) (v : Scalar) : (s.setK i v).wdata = s.wdata := rfl
@[simp] theorem State.setK_busy (i : RegNum) (v : Scalar) : (s.setK i v).busy = s.busy := rfl
@[simp] theorem State.setK_rsp (i : RegNum) (v : Scalar) : (s.setK i v).rsp = s.rsp := rfl
@[simp] theorem State.setK_rnd (i : RegNum) (v : Scalar) : (s.setK i v).rnd = s.rnd := rfl
@[simp] theorem State.setK_host (i : RegNum) (v : Scalar) : (s.setK i v).host = s.host := rfl

@[simp] theorem State.setP_b (i : RegNum) (v : Point) : (s.setP i v).b = s.b := rfl
@[simp] theorem State.setP_e (i : RegNum) (v : Point) : (s.setP i v).e = s.e := rfl
@[simp] theorem State.setP_k (i : RegNum) (v : Point) : (s.setP i v).k = s.k := rfl
@[simp] theorem State.setP_p (i : RegNum) (v : Point) : (s.setP i v).p = s.p.set i.val v := rfl
@[simp] theorem State.setP_t (i : RegNum) (v : Point) : (s.setP i v).t = s.t := rfl
@[simp] theorem State.setP_fault (i : RegNum) (v : Point) : (s.setP i v).fault = s.fault := rfl
@[simp] theorem State.setP_cause (i : RegNum) (v : Point) : (s.setP i v).cause = s.cause := rfl
@[simp] theorem State.setP_fcmd (i : RegNum) (v : Point) : (s.setP i v).fcmd = s.fcmd := rfl
@[simp] theorem State.setP_cmd (i : RegNum) (v : Point) : (s.setP i v).cmd = s.cmd := rfl
@[simp] theorem State.setP_wdata (i : RegNum) (v : Point) : (s.setP i v).wdata = s.wdata := rfl
@[simp] theorem State.setP_busy (i : RegNum) (v : Point) : (s.setP i v).busy = s.busy := rfl
@[simp] theorem State.setP_rsp (i : RegNum) (v : Point) : (s.setP i v).rsp = s.rsp := rfl
@[simp] theorem State.setP_rnd (i : RegNum) (v : Point) : (s.setP i v).rnd = s.rnd := rfl
@[simp] theorem State.setP_host (i : RegNum) (v : Point) : (s.setP i v).host = s.host := rfl

@[simp] theorem State.setRnd_b (l : List RandomWord) : (s.setRnd l).b = s.b := rfl
@[simp] theorem State.setRnd_e (l : List RandomWord) : (s.setRnd l).e = s.e := rfl
@[simp] theorem State.setRnd_k (l : List RandomWord) : (s.setRnd l).k = s.k := rfl
@[simp] theorem State.setRnd_p (l : List RandomWord) : (s.setRnd l).p = s.p := rfl
@[simp] theorem State.setRnd_t (l : List RandomWord) : (s.setRnd l).t = s.t := rfl
@[simp] theorem State.setRnd_fault (l : List RandomWord) : (s.setRnd l).fault = s.fault := rfl
@[simp] theorem State.setRnd_cause (l : List RandomWord) : (s.setRnd l).cause = s.cause := rfl
@[simp] theorem State.setRnd_fcmd (l : List RandomWord) : (s.setRnd l).fcmd = s.fcmd := rfl
@[simp] theorem State.setRnd_cmd (l : List RandomWord) : (s.setRnd l).cmd = s.cmd := rfl
@[simp] theorem State.setRnd_wdata (l : List RandomWord) : (s.setRnd l).wdata = s.wdata := rfl
@[simp] theorem State.setRnd_busy (l : List RandomWord) : (s.setRnd l).busy = s.busy := rfl
@[simp] theorem State.setRnd_rsp (l : List RandomWord) : (s.setRnd l).rsp = s.rsp := rfl
@[simp] theorem State.setRnd_rnd (l : List RandomWord) : (s.setRnd l).rnd = l := rfl
@[simp] theorem State.setRnd_host (l : List RandomWord) : (s.setRnd l).host = s.host := rfl

@[simp] theorem State.setT_b (v : Bool) : (s.setT v).b = s.b := rfl
@[simp] theorem State.setT_e (v : Bool) : (s.setT v).e = s.e := rfl
@[simp] theorem State.setT_k (v : Bool) : (s.setT v).k = s.k := rfl
@[simp] theorem State.setT_p (v : Bool) : (s.setT v).p = s.p := rfl
@[simp] theorem State.setT_t (v : Bool) : (s.setT v).t = v := rfl
@[simp] theorem State.setT_fault (v : Bool) : (s.setT v).fault = s.fault := rfl
@[simp] theorem State.setT_cause (v : Bool) : (s.setT v).cause = s.cause := rfl
@[simp] theorem State.setT_fcmd (v : Bool) : (s.setT v).fcmd = s.fcmd := rfl
@[simp] theorem State.setT_cmd (v : Bool) : (s.setT v).cmd = s.cmd := rfl
@[simp] theorem State.setT_wdata (v : Bool) : (s.setT v).wdata = s.wdata := rfl
@[simp] theorem State.setT_busy (v : Bool) : (s.setT v).busy = s.busy := rfl
@[simp] theorem State.setT_rsp (v : Bool) : (s.setT v).rsp = s.rsp := rfl
@[simp] theorem State.setT_rnd (v : Bool) : (s.setT v).rnd = s.rnd := rfl
@[simp] theorem State.setT_host (v : Bool) : (s.setT v).host = s.host := rfl

@[simp] theorem State.complete_b (w : Word) : (s.complete w).b = s.b := rfl
@[simp] theorem State.complete_e (w : Word) : (s.complete w).e = s.e := rfl
@[simp] theorem State.complete_k (w : Word) : (s.complete w).k = s.k := rfl
@[simp] theorem State.complete_p (w : Word) : (s.complete w).p = s.p := rfl
@[simp] theorem State.complete_t (w : Word) : (s.complete w).t = s.t := rfl
@[simp] theorem State.complete_fault (w : Word) : (s.complete w).fault = s.fault := rfl
@[simp] theorem State.complete_cause (w : Word) : (s.complete w).cause = s.cause := rfl
@[simp] theorem State.complete_fcmd (w : Word) : (s.complete w).fcmd = s.fcmd := rfl
@[simp] theorem State.complete_cmd (w : Word) : (s.complete w).cmd = s.cmd := rfl
@[simp] theorem State.complete_wdata (w : Word) : (s.complete w).wdata = s.wdata := rfl
@[simp] theorem State.complete_busy (w : Word) : (s.complete w).busy = false := rfl
@[simp] theorem State.complete_rsp (w : Word) : (s.complete w).rsp = some ⟨0, w⟩ := rfl
@[simp] theorem State.complete_rnd (w : Word) : (s.complete w).rnd = s.rnd := rfl
@[simp] theorem State.complete_host (w : Word) : (s.complete w).host = s.host := rfl

@[simp] theorem State.takeFault_b (c : FaultCode) : (s.takeFault c).b = s.b := rfl
@[simp] theorem State.takeFault_e (c : FaultCode) : (s.takeFault c).e = s.e := rfl
@[simp] theorem State.takeFault_k (c : FaultCode) : (s.takeFault c).k = s.k := rfl
@[simp] theorem State.takeFault_p (c : FaultCode) : (s.takeFault c).p = s.p := rfl
@[simp] theorem State.takeFault_t (c : FaultCode) : (s.takeFault c).t = s.t := rfl
@[simp] theorem State.takeFault_fault (c : FaultCode) : (s.takeFault c).fault = true := rfl
@[simp] theorem State.takeFault_cause (c : FaultCode) : (s.takeFault c).cause = c.code := rfl
@[simp] theorem State.takeFault_fcmd (c : FaultCode) : (s.takeFault c).fcmd = s.cmd := rfl
@[simp] theorem State.takeFault_cmd (c : FaultCode) : (s.takeFault c).cmd = s.cmd := rfl
@[simp] theorem State.takeFault_wdata (c : FaultCode) : (s.takeFault c).wdata = s.wdata := rfl
@[simp] theorem State.takeFault_busy (c : FaultCode) : (s.takeFault c).busy = false := rfl
@[simp] theorem State.takeFault_rsp (c : FaultCode) : (s.takeFault c).rsp = some ⟨c.code, 0⟩ := rfl
@[simp] theorem State.takeFault_rnd (c : FaultCode) : (s.takeFault c).rnd = s.rnd := rfl
@[simp] theorem State.takeFault_host (c : FaultCode) : (s.takeFault c).host = s.host := rfl

@[simp] theorem State.refuse_b : s.refuse.b = s.b := rfl
@[simp] theorem State.refuse_e : s.refuse.e = s.e := rfl
@[simp] theorem State.refuse_k : s.refuse.k = s.k := rfl
@[simp] theorem State.refuse_p : s.refuse.p = s.p := rfl
@[simp] theorem State.refuse_t : s.refuse.t = s.t := rfl
@[simp] theorem State.refuse_fault : s.refuse.fault = s.fault := rfl
@[simp] theorem State.refuse_cause : s.refuse.cause = s.cause := rfl
@[simp] theorem State.refuse_fcmd : s.refuse.fcmd = s.fcmd := rfl
@[simp] theorem State.refuse_cmd : s.refuse.cmd = s.cmd := rfl
@[simp] theorem State.refuse_wdata : s.refuse.wdata = s.wdata := rfl
@[simp] theorem State.refuse_busy : s.refuse.busy = false := rfl
@[simp] theorem State.refuse_rsp : s.refuse.rsp = some ⟨haltedCode, 0⟩ := rfl
@[simp] theorem State.refuse_rnd : s.refuse.rnd = s.rnd := rfl
@[simp] theorem State.refuse_host : s.refuse.host = s.host := rfl

@[simp] theorem State.awaitRandom_b : s.awaitRandom.b = s.b := rfl
@[simp] theorem State.awaitRandom_e : s.awaitRandom.e = s.e := rfl
@[simp] theorem State.awaitRandom_k : s.awaitRandom.k = s.k := rfl
@[simp] theorem State.awaitRandom_p : s.awaitRandom.p = s.p := rfl
@[simp] theorem State.awaitRandom_t : s.awaitRandom.t = s.t := rfl
@[simp] theorem State.awaitRandom_fault : s.awaitRandom.fault = s.fault := rfl
@[simp] theorem State.awaitRandom_cause : s.awaitRandom.cause = s.cause := rfl
@[simp] theorem State.awaitRandom_fcmd : s.awaitRandom.fcmd = s.fcmd := rfl
@[simp] theorem State.awaitRandom_cmd : s.awaitRandom.cmd = s.cmd := rfl
@[simp] theorem State.awaitRandom_wdata : s.awaitRandom.wdata = s.wdata := rfl
@[simp] theorem State.awaitRandom_busy : s.awaitRandom.busy = true := rfl
@[simp] theorem State.awaitRandom_rsp : s.awaitRandom.rsp = none := rfl
@[simp] theorem State.awaitRandom_rnd : s.awaitRandom.rnd = [] := rfl
@[simp] theorem State.awaitRandom_host : s.awaitRandom.host = s.host := rfl

@[simp] theorem State.take_b (c : CommandWord) (w : Word) (l : List HostEvent) : (s.take c w l).b = s.b := rfl
@[simp] theorem State.take_e (c : CommandWord) (w : Word) (l : List HostEvent) : (s.take c w l).e = s.e := rfl
@[simp] theorem State.take_k (c : CommandWord) (w : Word) (l : List HostEvent) : (s.take c w l).k = s.k := rfl
@[simp] theorem State.take_p (c : CommandWord) (w : Word) (l : List HostEvent) : (s.take c w l).p = s.p := rfl
@[simp] theorem State.take_t (c : CommandWord) (w : Word) (l : List HostEvent) : (s.take c w l).t = s.t := rfl
@[simp] theorem State.take_fault (c : CommandWord) (w : Word) (l : List HostEvent) : (s.take c w l).fault = s.fault := rfl
@[simp] theorem State.take_cause (c : CommandWord) (w : Word) (l : List HostEvent) : (s.take c w l).cause = s.cause := rfl
@[simp] theorem State.take_fcmd (c : CommandWord) (w : Word) (l : List HostEvent) : (s.take c w l).fcmd = s.fcmd := rfl
@[simp] theorem State.take_cmd (c : CommandWord) (w : Word) (l : List HostEvent) : (s.take c w l).cmd = c := rfl
@[simp] theorem State.take_wdata (c : CommandWord) (w : Word) (l : List HostEvent) : (s.take c w l).wdata = w := rfl
@[simp] theorem State.take_busy (c : CommandWord) (w : Word) (l : List HostEvent) : (s.take c w l).busy = s.busy := rfl
@[simp] theorem State.take_rsp (c : CommandWord) (w : Word) (l : List HostEvent) : (s.take c w l).rsp = none := rfl
@[simp] theorem State.take_rnd (c : CommandWord) (w : Word) (l : List HostEvent) : (s.take c w l).rnd = s.rnd := rfl
@[simp] theorem State.take_host (c : CommandWord) (w : Word) (l : List HostEvent) : (s.take c w l).host = l := rfl

end Fields

section Registers

variable (s : State)

@[simp] theorem State.getB_setB_same (i : RegNum) (v : Word) : (s.setB i v).getB i = v := by
  simp [State.getB, State.setB]

theorem State.getB_setB_ne (i j : RegNum) (v : Word) (h : j ≠ i) : (s.setB i v).getB j = s.getB j := by
  have : i.val ≠ j.val := fun e => h (Fin.ext e.symm)
  simp [State.getB, State.setB, Vector.getElem_set_ne _ _ this]

theorem State.getB_setB (i j : RegNum) (v : Word) : (s.setB i v).getB j = if j = i then v else s.getB j := by
  split
  · subst_vars; simp
  · exact State.getB_setB_ne s i j v (by assumption)

@[simp] theorem State.getB_setE (i : RegNum) (v : Ext5) (r : RegNum) : (s.setE i v).getB r = s.getB r := rfl
@[simp] theorem State.getB_setK (i : RegNum) (v : Scalar) (r : RegNum) : (s.setK i v).getB r = s.getB r := rfl
@[simp] theorem State.getB_setP (i : RegNum) (v : Point) (r : RegNum) : (s.setP i v).getB r = s.getB r := rfl
@[simp] theorem State.getB_setRnd (l : List RandomWord) (r : RegNum) : (s.setRnd l).getB r = s.getB r := rfl
@[simp] theorem State.getB_setT (v : Bool) (r : RegNum) : (s.setT v).getB r = s.getB r := rfl
@[simp] theorem State.getB_complete (w : Word) (r : RegNum) : (s.complete w).getB r = s.getB r := rfl
@[simp] theorem State.getB_takeFault (c : FaultCode) (r : RegNum) : (s.takeFault c).getB r = s.getB r := rfl
@[simp] theorem State.getB_refuse (r : RegNum) : s.refuse.getB r = s.getB r := rfl
@[simp] theorem State.getB_awaitRandom (r : RegNum) : s.awaitRandom.getB r = s.getB r := rfl
@[simp] theorem State.getB_take (c : CommandWord) (w : Word) (l : List HostEvent) (r : RegNum) : (s.take c w l).getB r = s.getB r := rfl

@[simp] theorem State.getE_setE_same (i : RegNum) (v : Ext5) : (s.setE i v).getE i = v := by
  simp [State.getE, State.setE]

theorem State.getE_setE_ne (i j : RegNum) (v : Ext5) (h : j ≠ i) : (s.setE i v).getE j = s.getE j := by
  have : i.val ≠ j.val := fun e => h (Fin.ext e.symm)
  simp [State.getE, State.setE, Vector.getElem_set_ne _ _ this]

theorem State.getE_setE (i j : RegNum) (v : Ext5) : (s.setE i v).getE j = if j = i then v else s.getE j := by
  split
  · subst_vars; simp
  · exact State.getE_setE_ne s i j v (by assumption)

@[simp] theorem State.getE_setB (i : RegNum) (v : Word) (r : RegNum) : (s.setB i v).getE r = s.getE r := rfl
@[simp] theorem State.getE_setK (i : RegNum) (v : Scalar) (r : RegNum) : (s.setK i v).getE r = s.getE r := rfl
@[simp] theorem State.getE_setP (i : RegNum) (v : Point) (r : RegNum) : (s.setP i v).getE r = s.getE r := rfl
@[simp] theorem State.getE_setRnd (l : List RandomWord) (r : RegNum) : (s.setRnd l).getE r = s.getE r := rfl
@[simp] theorem State.getE_setT (v : Bool) (r : RegNum) : (s.setT v).getE r = s.getE r := rfl
@[simp] theorem State.getE_complete (w : Word) (r : RegNum) : (s.complete w).getE r = s.getE r := rfl
@[simp] theorem State.getE_takeFault (c : FaultCode) (r : RegNum) : (s.takeFault c).getE r = s.getE r := rfl
@[simp] theorem State.getE_refuse (r : RegNum) : s.refuse.getE r = s.getE r := rfl
@[simp] theorem State.getE_awaitRandom (r : RegNum) : s.awaitRandom.getE r = s.getE r := rfl
@[simp] theorem State.getE_take (c : CommandWord) (w : Word) (l : List HostEvent) (r : RegNum) : (s.take c w l).getE r = s.getE r := rfl

@[simp] theorem State.getK_setK_same (i : RegNum) (v : Scalar) : (s.setK i v).getK i = v := by
  simp [State.getK, State.setK]

theorem State.getK_setK_ne (i j : RegNum) (v : Scalar) (h : j ≠ i) : (s.setK i v).getK j = s.getK j := by
  have : i.val ≠ j.val := fun e => h (Fin.ext e.symm)
  simp [State.getK, State.setK, Vector.getElem_set_ne _ _ this]

theorem State.getK_setK (i j : RegNum) (v : Scalar) : (s.setK i v).getK j = if j = i then v else s.getK j := by
  split
  · subst_vars; simp
  · exact State.getK_setK_ne s i j v (by assumption)

@[simp] theorem State.getK_setB (i : RegNum) (v : Word) (r : RegNum) : (s.setB i v).getK r = s.getK r := rfl
@[simp] theorem State.getK_setE (i : RegNum) (v : Ext5) (r : RegNum) : (s.setE i v).getK r = s.getK r := rfl
@[simp] theorem State.getK_setP (i : RegNum) (v : Point) (r : RegNum) : (s.setP i v).getK r = s.getK r := rfl
@[simp] theorem State.getK_setRnd (l : List RandomWord) (r : RegNum) : (s.setRnd l).getK r = s.getK r := rfl
@[simp] theorem State.getK_setT (v : Bool) (r : RegNum) : (s.setT v).getK r = s.getK r := rfl
@[simp] theorem State.getK_complete (w : Word) (r : RegNum) : (s.complete w).getK r = s.getK r := rfl
@[simp] theorem State.getK_takeFault (c : FaultCode) (r : RegNum) : (s.takeFault c).getK r = s.getK r := rfl
@[simp] theorem State.getK_refuse (r : RegNum) : s.refuse.getK r = s.getK r := rfl
@[simp] theorem State.getK_awaitRandom (r : RegNum) : s.awaitRandom.getK r = s.getK r := rfl
@[simp] theorem State.getK_take (c : CommandWord) (w : Word) (l : List HostEvent) (r : RegNum) : (s.take c w l).getK r = s.getK r := rfl

@[simp] theorem State.getP_setP_same (i : RegNum) (v : Point) : (s.setP i v).getP i = v := by
  simp [State.getP, State.setP]

theorem State.getP_setP_ne (i j : RegNum) (v : Point) (h : j ≠ i) : (s.setP i v).getP j = s.getP j := by
  have : i.val ≠ j.val := fun e => h (Fin.ext e.symm)
  simp [State.getP, State.setP, Vector.getElem_set_ne _ _ this]

theorem State.getP_setP (i j : RegNum) (v : Point) : (s.setP i v).getP j = if j = i then v else s.getP j := by
  split
  · subst_vars; simp
  · exact State.getP_setP_ne s i j v (by assumption)

@[simp] theorem State.getP_setB (i : RegNum) (v : Word) (r : RegNum) : (s.setB i v).getP r = s.getP r := rfl
@[simp] theorem State.getP_setE (i : RegNum) (v : Ext5) (r : RegNum) : (s.setE i v).getP r = s.getP r := rfl
@[simp] theorem State.getP_setK (i : RegNum) (v : Scalar) (r : RegNum) : (s.setK i v).getP r = s.getP r := rfl
@[simp] theorem State.getP_setRnd (l : List RandomWord) (r : RegNum) : (s.setRnd l).getP r = s.getP r := rfl
@[simp] theorem State.getP_setT (v : Bool) (r : RegNum) : (s.setT v).getP r = s.getP r := rfl
@[simp] theorem State.getP_complete (w : Word) (r : RegNum) : (s.complete w).getP r = s.getP r := rfl
@[simp] theorem State.getP_takeFault (c : FaultCode) (r : RegNum) : (s.takeFault c).getP r = s.getP r := rfl
@[simp] theorem State.getP_refuse (r : RegNum) : s.refuse.getP r = s.getP r := rfl
@[simp] theorem State.getP_awaitRandom (r : RegNum) : s.awaitRandom.getP r = s.getP r := rfl
@[simp] theorem State.getP_take (c : CommandWord) (w : Word) (l : List HostEvent) (r : RegNum) : (s.take c w l).getP r = s.getP r := rfl

end Registers

section Reset

variable (l : List HostEvent) (ws : List RandomWord)

@[simp] theorem State.afterReset_b : (State.afterReset l ws).b = State.reset.b := rfl
@[simp] theorem State.afterReset_e : (State.afterReset l ws).e = State.reset.e := rfl
@[simp] theorem State.afterReset_k : (State.afterReset l ws).k = State.reset.k := rfl
@[simp] theorem State.afterReset_p : (State.afterReset l ws).p = State.reset.p := rfl
@[simp] theorem State.afterReset_t : (State.afterReset l ws).t = State.reset.t := rfl
@[simp] theorem State.afterReset_fault : (State.afterReset l ws).fault = State.reset.fault := rfl
@[simp] theorem State.afterReset_cause : (State.afterReset l ws).cause = State.reset.cause := rfl
@[simp] theorem State.afterReset_fcmd : (State.afterReset l ws).fcmd = State.reset.fcmd := rfl
@[simp] theorem State.afterReset_cmd : (State.afterReset l ws).cmd = State.reset.cmd := rfl
@[simp] theorem State.afterReset_wdata : (State.afterReset l ws).wdata = State.reset.wdata := rfl
@[simp] theorem State.afterReset_busy : (State.afterReset l ws).busy = State.reset.busy := rfl
@[simp] theorem State.afterReset_rsp : (State.afterReset l ws).rsp = State.reset.rsp := rfl
@[simp] theorem State.afterReset_rnd : (State.afterReset l ws).rnd = ws := rfl
@[simp] theorem State.afterReset_host : (State.afterReset l ws).host = l := rfl

@[simp] theorem State.getB_reset (r : RegNum) : State.reset.getB r = 0 := by
  simp [State.getB, State.reset]

@[simp] theorem State.getB_afterReset (r : RegNum) : (State.afterReset l ws).getB r = 0 :=
  State.getB_reset r

@[simp] theorem State.getE_reset (r : RegNum) : State.reset.getE r = Ext5.zero := by
  simp [State.getE, State.reset]

@[simp] theorem State.getE_afterReset (r : RegNum) : (State.afterReset l ws).getE r = Ext5.zero :=
  State.getE_reset r

@[simp] theorem State.getK_reset (r : RegNum) : State.reset.getK r = Scalar.zero := by
  simp [State.getK, State.reset]

@[simp] theorem State.getK_afterReset (r : RegNum) : (State.afterReset l ws).getK r = Scalar.zero :=
  State.getK_reset r

@[simp] theorem State.getP_reset (r : RegNum) : State.reset.getP r = Point.inf0 := by
  simp [State.getP, State.reset]

@[simp] theorem State.getP_afterReset (r : RegNum) : (State.afterReset l ws).getP r = Point.inf0 :=
  State.getP_reset r

end Reset

end Sys2Proof.Machine
end

