-- ==== Sys2Proof/Laws/FieldArith.lean ====
section
/-! SUPPORT. BaseField: each function's value modulo p, that every result is canonical, p is prime, and the map of words into ZMod p
under which the functions are the field's operations. -/

namespace Sys2Proof.Machine

open Sys2Proof

theorem pMod_eq : Config.pMod = 2 ^ 64 - 2 ^ 32 + 1 := by decide

theorem redNat_toNat (v : Nat) : (redNat v).toNat = v % Config.pMod := by
  have : v % Config.pMod < Config.pMod := Nat.mod_lt _ (by decide)
  simp only [redNat, BitVec.toNat_ofNat]
  exact Nat.mod_eq_of_lt (this.trans (by decide))

theorem redInt_toNat (v : Int) : ((redInt v).toNat : Int) = v % (Config.pMod : Int) := by
  have h0 : 0 ≤ v % (Config.pMod : Int) := Int.emod_nonneg _ (by decide)
  have h1 : v % (Config.pMod : Int) < Config.pMod := Int.emod_lt_of_pos _ (by decide)
  have h2 : (Config.pMod : Int) < 2 ^ 64 := by decide
  simp only [redInt, BitVec.toNat_ofNat]
  omega

theorem canonical_redNat (v : Nat) : Canonical (redNat v) := by
  rw [Canonical, redNat_toNat]; exact Nat.mod_lt _ (by decide)

theorem canonical_redInt (v : Int) : Canonical (redInt v) := by
  have h := redInt_toNat v
  have h1 : v % (Config.pMod : Int) < Config.pMod := Int.emod_lt_of_pos _ (by decide)
  rw [Canonical]; omega

theorem canonical_zero : Canonical 0 := by decide

theorem canonical_addP (a b : Word) : Canonical (addP a b) := canonical_redNat _
theorem canonical_subP (a b : Word) : Canonical (subP a b) := canonical_redInt _
theorem canonical_negP (a : Word) : Canonical (negP a) := canonical_redInt _
theorem canonical_mulP (a b : Word) : Canonical (mulP a b) := canonical_redNat _
theorem canonical_fromInt64 (w : Word) : Canonical (fromInt64 w) := canonical_redNat _

theorem canonical_powP (x : Word) (fuel e : Nat) : Canonical (powP x fuel e) := by
  induction fuel generalizing e with
  | zero => exact (by decide : Canonical 1)
  | succ n ih => simp only [powP]; split <;> exact canonical_mulP _ _

theorem canonical_invP (a : Word) : Canonical (invP a) := canonical_powP _ _ _

/-- A word as an element of ZMod p. -/
def fp (w : Word) : ZMod Config.pMod := (w.toNat : ZMod Config.pMod)

@[simp] theorem fp_redNat (v : Nat) : fp (redNat v) = (v : ZMod Config.pMod) := by
  simp [fp, redNat_toNat]

@[simp] theorem fp_redInt (v : Int) : fp (redInt v) = (v : ZMod Config.pMod) := by
  have h := congrArg (fun z : Int => (z : ZMod Config.pMod)) (redInt_toNat v)
  simpa [fp] using h

@[simp] theorem fp_zero : fp 0#64 = 0 := by simp [fp]
@[simp] theorem fp_one : fp 1#64 = 1 := by simp [fp]
@[simp] theorem fp_addP (a b : Word) : fp (addP a b) = fp a + fp b := by rw [addP, fp_redNat]; simp [fp]
@[simp] theorem fp_subP (a b : Word) : fp (subP a b) = fp a - fp b := by rw [subP, fp_redInt]; simp [fp]
@[simp] theorem fp_negP (a : Word) : fp (negP a) = -fp a := by rw [negP, fp_redInt]; simp [fp]
@[simp] theorem fp_mulP (a b : Word) : fp (mulP a b) = fp a * fp b := by rw [mulP, fp_redNat]; simp [fp]
@[simp] theorem fp_fromInt64 (w : Word) : fp (fromInt64 w) = fp w := by rw [fromInt64, fp_redNat, fp]

theorem fp_injective {a b : Word} (ha : Canonical a) (hb : Canonical b) (h : fp a = fp b) : a = b := by
  have := (ZMod.natCast_eq_natCast_iff' _ _ _).1 h
  rw [Nat.mod_eq_of_lt ha, Nat.mod_eq_of_lt hb] at this
  exact BitVec.eq_of_toNat_eq this

theorem fp_eq_zero_iff {a : Word} (ha : Canonical a) : fp a = 0 ↔ a = 0 :=
  ⟨fun h => fp_injective ha canonical_zero (by simpa using h), fun h => by simp [h]⟩

theorem fp_powP (x : Word) (fuel e : Nat) (h : e < 2 ^ fuel) : fp (powP x fuel e) = fp x ^ e := by
  induction fuel generalizing e with
  | zero =>
    have : e = 0 := by omega
    subst this; simp [powP]
  | succ n ih =>
    have ih' := ih (e / 2) (by rw [pow_succ] at h; omega)
    simp only [powP]
    split
    · rename_i h1
      rw [fp_mulP, fp_mulP, ih', ← pow_add, ← pow_succ]
      congr 1; omega
    · rename_i h1
      rw [fp_mulP, ih', ← pow_add]
      congr 1; omega

theorem pMod_sub_one : Config.pMod - 1 = 2 ^ 32 * 3 * 5 * 17 * 257 * 65537 := by decide

/-- p is prime, by Lucas' test with the base 7. -/
theorem pMod_prime : Nat.Prime Config.pMod := by
  have hp : ∀ e, e < 2 ^ 64 → (7 : ZMod Config.pMod) ^ e = fp (powP 7 64 e) := by
    intro e he
    rw [fp_powP _ _ _ he]; simp [fp]
  have hne : ∀ w : Word, Canonical w → w ≠ 1 → fp w ≠ 1 := by
    intro w hw h1 h
    exact h1 (fp_injective hw (by decide) (by simpa using h))
  refine lucas_primality _ (7 : ZMod Config.pMod) ?_ ?_
  · rw [hp _ (by decide), show powP 7 64 (Config.pMod - 1) = 1 by decide +kernel]; simp
  · intro q hq hd
    have hmem : q = 2 ∨ q = 3 ∨ q = 5 ∨ q = 17 ∨ q = 257 ∨ q = 65537 := by
      rw [pMod_sub_one] at hd
      have hprime : ∀ r : Nat, r.Prime → q ∣ r → q = r := fun r hr h => (Nat.prime_dvd_prime_iff_eq hq hr).1 h
      rcases hq.dvd_mul.1 hd with h | h
      · rcases hq.dvd_mul.1 h with h | h
        · rcases hq.dvd_mul.1 h with h | h
          · rcases hq.dvd_mul.1 h with h | h
            · rcases hq.dvd_mul.1 h with h | h
              · exact Or.inl (hprime 2 (by norm_num) (hq.dvd_of_dvd_pow h))
              · exact Or.inr (Or.inl (hprime 3 (by norm_num) h))
            · exact Or.inr (Or.inr (Or.inl (hprime 5 (by norm_num) h)))
          · exact Or.inr (Or.inr (Or.inr (Or.inl (hprime 17 (by norm_num) h))))
        · exact Or.inr (Or.inr (Or.inr (Or.inr (Or.inl (hprime 257 (by norm_num) h)))))
      · exact Or.inr (Or.inr (Or.inr (Or.inr (Or.inr (hprime 65537 (by norm_num) h)))))
    rcases hmem with rfl | rfl | rfl | rfl | rfl | rfl <;>
      (rw [hp _ (by decide)]; exact hne _ (canonical_powP _ _ _) (by decide +kernel))

/-- Fermat's inverse is the field's (R83). -/
theorem fp_invP (a : Word) (ha : fp a ≠ 0) : fp a * fp (invP a) = 1 := by
  have := Fact.mk pMod_prime
  have h1 : Config.pMod - 2 + 1 = Config.pMod - 1 := by decide
  rw [invP, fp_powP _ _ _ (by decide), ← pow_succ', h1]
  exact ZMod.pow_card_sub_one_eq_one ha

end Sys2Proof.Machine
end

