-- ==== Sys2Proof/Laws/ExtArith.lean ====
section
/-! SUPPORT. Ext5: every result is canonical, and the map of Ext5 values into the field Fp[X]/(X^5 − 3), under which the functions
are the field's operations and which tells canonical values apart. -/

namespace Sys2Proof.Machine

open Sys2Proof

theorem canonicalExt_eAdd (a b : Ext5) : CanonicalExt (eAdd a b) :=
  ⟨canonical_addP _ _, canonical_addP _ _, canonical_addP _ _, canonical_addP _ _, canonical_addP _ _⟩

theorem canonicalExt_eSub (a b : Ext5) : CanonicalExt (eSub a b) :=
  ⟨canonical_subP _ _, canonical_subP _ _, canonical_subP _ _, canonical_subP _ _, canonical_subP _ _⟩

theorem canonicalExt_eNeg (a : Ext5) : CanonicalExt (eNeg a) :=
  ⟨canonical_negP _, canonical_negP _, canonical_negP _, canonical_negP _, canonical_negP _⟩

theorem canonicalExt_eMul (a b : Ext5) : CanonicalExt (eMul a b) :=
  ⟨canonical_redNat _, canonical_redNat _, canonical_redNat _, canonical_redNat _, canonical_redNat _⟩

theorem canonicalExt_eMuli (a : Ext5) (m : Nat) : CanonicalExt (eMuli a m) :=
  ⟨canonical_redNat _, canonical_redNat _, canonical_redNat _, canonical_redNat _, canonical_redNat _⟩

theorem canonicalExt_eScale (a : Ext5) (v : Word) : CanonicalExt (eScale a v) :=
  ⟨canonical_mulP _ _, canonical_mulP _ _, canonical_mulP _ _, canonical_mulP _ _, canonical_mulP _ _⟩

theorem canonicalExt_eSqr (a : Ext5) : CanonicalExt (eSqr a) := canonicalExt_eMul a a

theorem canonicalExt_eInv (a : Ext5) : CanonicalExt (eInv a) := canonicalExt_eScale _ _

theorem canonicalExt_eFrom {v : Word} (h : Canonical v) : CanonicalExt (eFrom v) :=
  ⟨h, canonical_zero, canonical_zero, canonical_zero, canonical_zero⟩

theorem canonicalExt_zero : CanonicalExt Ext5.zero := by decide

theorem canonicalExt_coeff {a : Ext5} (h : CanonicalExt a) (k : Fin 5) : Canonical (a.coeff k) := by
  obtain ⟨h0, h1, h2, h3, h4⟩ := h
  fin_cases k <;> assumption

theorem canonicalExt_setCoeff {a : Ext5} {v : Word} (h : CanonicalExt a) (hv : Canonical v) (k : Fin 5) :
    CanonicalExt (a.setCoeff k v) := by
  obtain ⟨h0, h1, h2, h3, h4⟩ := h
  fin_cases k
  · exact ⟨hv, h1, h2, h3, h4⟩
  · exact ⟨h0, hv, h2, h3, h4⟩
  · exact ⟨h0, h1, hv, h3, h4⟩
  · exact ⟨h0, h1, h2, hv, h4⟩
  · exact ⟨h0, h1, h2, h3, hv⟩

@[simp] theorem coeff_setCoeff_same (a : Ext5) (k : Fin 5) (v : Word) : (a.setCoeff k v).coeff k = v := by
  fin_cases k <;> rfl

theorem coeff_setCoeff_ne (a : Ext5) (k j : Fin 5) (v : Word) (h : j ≠ k) : (a.setCoeff k v).coeff j = a.coeff j := by
  fin_cases k <;> fin_cases j <;> first | rfl | exact absurd rfl h

@[simp] theorem eEq_iff (a b : Ext5) : eEq a b = true ↔ a = b := by
  cases a; cases b
  simp [eEq, and_assoc]

@[simp] theorem eEq_false_iff (a b : Ext5) : eEq a b = false ↔ a ≠ b := by
  rw [← Bool.not_eq_true, eEq_iff]

/-! ### The field -/

open Polynomial

/-- Fp[X]/(X^5 − 3). -/
abbrev ExtField := AdjoinRoot (X ^ 5 - C (3 : ZMod Config.pMod))

/-- z, the class of X. -/
noncomputable abbrev zeta : ExtField := AdjoinRoot.root _

/-- An element of Fp in the extension. -/
noncomputable abbrev emb (c : ZMod Config.pMod) : ExtField := AdjoinRoot.of _ c

/-- An Ext5 value as an element of the field: a0 + a1·z + a2·z² + a3·z³ + a4·z⁴ (R100). -/
noncomputable def toExt (a : Ext5) : ExtField :=
  emb (fp a.a0) + emb (fp a.a1) * zeta + emb (fp a.a2) * zeta ^ 2 + emb (fp a.a3) * zeta ^ 3 + emb (fp a.a4) * zeta ^ 4

theorem zeta_pow_five : (zeta : ExtField) ^ 5 = 3 := by
  have h := AdjoinRoot.eval₂_root (X ^ 5 - C (3 : ZMod Config.pMod))
  simp only [eval₂_sub, eval₂_X_pow, eval₂_C, sub_eq_zero] at h
  rw [h]
  exact map_ofNat _ 3

/-- 3 is no fifth power modulo p (R100). -/
theorem three_no_fifth_power (b : ZMod Config.pMod) : b ^ 5 ≠ 3 := by
  have := Fact.mk pMod_prime
  intro h
  have h3 : fp 3#64 = 3 := by simp [fp]
  have hb : b ≠ 0 := by
    rintro rfl
    have : fp 3#64 = fp 0#64 := by rw [h3, ← h]; simp
    exact absurd (fp_injective (by decide) (by decide) this) (by decide)
  have h1 : b ^ (Config.pMod - 1) = 1 := ZMod.pow_card_sub_one_eq_one hb
  have h2 : Config.pMod - 1 = 5 * ((Config.pMod - 1) / 5) := by decide
  rw [h2, pow_mul, h, ← h3, ← fp_powP _ 64 _ (by decide)] at h1
  exact absurd (fp_injective (canonical_powP _ _ _) (by decide : Canonical 1#64) (by rw [h1, fp_one])) (by decide +kernel)

theorem extPoly_irreducible : Irreducible (X ^ 5 - C (3 : ZMod Config.pMod)) := by
  have := Fact.mk pMod_prime
  exact X_pow_sub_C_irreducible_of_prime (by norm_num) three_no_fifth_power

theorem extPoly_monic : (X ^ 5 - C (3 : ZMod Config.pMod)).Monic := by
  have := Fact.mk pMod_prime
  exact monic_X_pow_sub_C _ (by norm_num)

/-- Five coefficients over Fp are determined by the element they give. -/
theorem ext_coeffs_zero {c0 c1 c2 c3 c4 : ZMod Config.pMod}
    (h : emb c0 + emb c1 * zeta + emb c2 * zeta ^ 2 + emb c3 * zeta ^ 3 + emb c4 * zeta ^ 4 = 0) :
    c0 = 0 ∧ c1 = 0 ∧ c2 = 0 ∧ c3 = 0 ∧ c4 = 0 := by
  have := Fact.mk pMod_prime
  set g : (ZMod Config.pMod)[X] := C c0 + C c1 * X + C c2 * X ^ 2 + C c3 * X ^ 3 + C c4 * X ^ 4 with hg
  have hmk : AdjoinRoot.mk (X ^ 5 - C (3 : ZMod Config.pMod)) g = 0 := by
    simpa [hg, AdjoinRoot.mk_C, AdjoinRoot.mk_X] using h
  have hdeg : g.degree < (X ^ 5 - C (3 : ZMod Config.pMod)).degree := by
    rw [degree_X_pow_sub_C (by norm_num)]
    rw [hg]
    compute_degree!
  have h0 : g = 0 := by
    by_contra hne
    exact absurd (AdjoinRoot.mk_eq_zero.1 hmk) (extPoly_monic.not_dvd_of_degree_lt hne hdeg)
  have hc : ∀ k, g.coeff k = 0 := fun k => by rw [h0, coeff_zero]
  refine ⟨?_, ?_, ?_, ?_, ?_⟩
  · simpa [hg, coeff_X, coeff_C, coeff_X_pow] using hc 0
  · simpa [hg, coeff_X, coeff_C, coeff_X_pow] using hc 1
  · simpa [hg, coeff_X, coeff_C, coeff_X_pow] using hc 2
  · simpa [hg, coeff_X, coeff_C, coeff_X_pow] using hc 3
  · simpa [hg, coeff_X, coeff_C, coeff_X_pow] using hc 4

theorem toExt_injective {a b : Ext5} (ha : CanonicalExt a) (hb : CanonicalExt b) (h : toExt a = toExt b) : a = b := by
  have hsub : emb (fp a.a0 - fp b.a0) + emb (fp a.a1 - fp b.a1) * zeta + emb (fp a.a2 - fp b.a2) * zeta ^ 2
      + emb (fp a.a3 - fp b.a3) * zeta ^ 3 + emb (fp a.a4 - fp b.a4) * zeta ^ 4 = 0 := by
    simp only [map_sub]
    rw [← sub_eq_zero] at h
    simp only [toExt] at h
    linear_combination h
  obtain ⟨h0, h1, h2, h3, h4⟩ := ext_coeffs_zero hsub
  obtain ⟨a0, a1, a2, a3, a4⟩ := a
  obtain ⟨b0, b1, b2, b3, b4⟩ := b
  simp only [Ext5.mk.injEq]
  exact ⟨fp_injective ha.1 hb.1 (sub_eq_zero.1 h0), fp_injective ha.2.1 hb.2.1 (sub_eq_zero.1 h1),
    fp_injective ha.2.2.1 hb.2.2.1 (sub_eq_zero.1 h2), fp_injective ha.2.2.2.1 hb.2.2.2.1 (sub_eq_zero.1 h3),
    fp_injective ha.2.2.2.2 hb.2.2.2.2 (sub_eq_zero.1 h4)⟩

@[simp] theorem toExt_zero : toExt Ext5.zero = 0 := by simp [toExt, Ext5.zero]
@[simp] theorem toExt_one : toExt Ext5.one = 1 := by simp [toExt, Ext5.one]

theorem toExt_eq_zero_iff {a : Ext5} (ha : CanonicalExt a) : toExt a = 0 ↔ a = Ext5.zero :=
  ⟨fun h => toExt_injective ha canonicalExt_zero (by rw [h, toExt_zero]), fun h => by rw [h, toExt_zero]⟩

@[simp] theorem toExt_eAdd (a b : Ext5) : toExt (eAdd a b) = toExt a + toExt b := by
  simp only [toExt, eAdd, fp_addP, map_add]; ring

@[simp] theorem toExt_eSub (a b : Ext5) : toExt (eSub a b) = toExt a - toExt b := by
  simp only [toExt, eSub, fp_subP, map_sub]; ring

@[simp] theorem toExt_eNeg (a : Ext5) : toExt (eNeg a) = -toExt a := by
  simp only [toExt, eNeg, fp_negP, map_neg]; ring

@[simp] theorem toExt_eScale (a : Ext5) (v : Word) : toExt (eScale a v) = toExt a * emb (fp v) := by
  simp only [toExt, eScale, fp_mulP, map_mul]; ring

@[simp] theorem toExt_eFrom (v : Word) : toExt (eFrom v) = emb (fp v) := by simp [toExt, eFrom]

@[simp] theorem toExt_eMuli (a : Ext5) (m : Nat) : toExt (eMuli a m) = toExt a * m := by
  simp only [toExt, eMuli, fp_redNat, Nat.cast_mul, map_mul, map_natCast]
  simp only [fp, map_natCast]
  ring

/-- `e_mul` is the field's product (R102). -/
@[simp] theorem toExt_eMul (a b : Ext5) : toExt (eMul a b) = toExt a * toExt b := by
  simp only [toExt, eMul, fp_redNat, Config.extW, Nat.cast_add, Nat.cast_mul, Nat.cast_ofNat, map_add, map_mul, map_natCast, map_ofNat]
  simp only [fp, map_natCast]
  generalize ((a.a0.toNat : ExtField)) = a0
  generalize ((a.a1.toNat : ExtField)) = a1
  generalize ((a.a2.toNat : ExtField)) = a2
  generalize ((a.a3.toNat : ExtField)) = a3
  generalize ((a.a4.toNat : ExtField)) = a4
  generalize ((b.a0.toNat : ExtField)) = b0
  generalize ((b.a1.toNat : ExtField)) = b1
  generalize ((b.a2.toNat : ExtField)) = b2
  generalize ((b.a3.toNat : ExtField)) = b3
  generalize ((b.a4.toNat : ExtField)) = b4
  have h := zeta_pow_five
  generalize (zeta : ExtField) = z at h
  linear_combination (-(a1 * b4 + a2 * b3 + a3 * b2 + a4 * b1) - (a2 * b4 + a3 * b3 + a4 * b2) * z
    - (a3 * b4 + a4 * b3) * z ^ 2 - a4 * b4 * z ^ 3) * h

@[simp] theorem toExt_eSqr (a : Ext5) : toExt (eSqr a) = toExt a ^ 2 := by rw [eSqr, toExt_eMul, sq]

end Sys2Proof.Machine
end

