-- ==== Sys2Proof/Laws/ExtInverse.lean ====
section
/-! SUPPORT. The Frobenius method of R104 (b) gives the field's inverse. -/

namespace Sys2Proof.Machine

open Sys2Proof Polynomial

theorem emb_zero : emb 0 = 0 := map_zero _

/-- γ as an element of Fp. -/
def gam : ZMod Config.pMod := fp 1041288259238279555#64

theorem fp_mul_table (a b c : Word) (h : mulP a b = c) : fp a * fp b = fp c := by rw [← h, fp_mulP]

theorem gam_two : fp 15820824984080659046#64 = gam ^ 2 := by
  rw [gam, sq]; exact (fp_mul_table _ _ _ (by decide +kernel)).symm

theorem gam_three : fp 211587555138949697#64 = gam ^ 3 := by
  rw [pow_succ, ← gam_two, gam]; exact (fp_mul_table _ _ _ (by decide +kernel)).symm

theorem gam_four : fp 1373043270956696022#64 = gam ^ 4 := by
  rw [pow_succ, ← gam_three, gam]; exact (fp_mul_table _ _ _ (by decide +kernel)).symm

theorem gam_five : gam ^ 5 = 1 := by
  rw [pow_succ, ← gam_four, gam, ← fp_one]; exact fp_mul_table _ _ _ (by decide +kernel)

theorem gam_pow_ne_one : gam ≠ 1 ∧ gam ^ 2 ≠ 1 ∧ gam ^ 3 ≠ 1 ∧ gam ^ 4 ≠ 1 := by
  have h : ∀ w : Word, Canonical w → w ≠ 1 → fp w ≠ 1 := fun w hw h1 h =>
    h1 (fp_injective hw (by decide) (h.trans fp_one.symm))
  refine ⟨h _ (by decide) (by decide), ?_, ?_, ?_⟩
  · rw [← gam_two]; exact h _ (by decide) (by decide)
  · rw [← gam_three]; exact h _ (by decide) (by decide)
  · rw [← gam_four]; exact h _ (by decide) (by decide)

/-- The automorphism z ↦ γ·z. -/
noncomputable def sigma : ExtField →+* ExtField :=
  AdjoinRoot.lift (AdjoinRoot.of _) (emb gam * zeta) (by
    rw [eval₂_sub, eval₂_X_pow, eval₂_C, mul_pow, ← map_pow, gam_five, map_one, one_mul, zeta_pow_five, sub_eq_zero]
    exact (map_ofNat _ 3).symm)

@[simp] theorem sigma_emb (c : ZMod Config.pMod) : sigma (emb c) = emb c := AdjoinRoot.lift_of _

@[simp] theorem sigma_zeta : sigma zeta = emb gam * zeta := AdjoinRoot.lift_root _

/-- One more application of the automorphism multiplies coefficient i by γ^i. -/
theorem sigma_coeffs (c0 c1 c2 c3 c4 : ZMod Config.pMod) :
    sigma (emb c0 + emb c1 * zeta + emb c2 * zeta ^ 2 + emb c3 * zeta ^ 3 + emb c4 * zeta ^ 4)
      = emb c0 + emb (c1 * gam) * zeta + emb (c2 * gam ^ 2) * zeta ^ 2 + emb (c3 * gam ^ 3) * zeta ^ 3
        + emb (c4 * gam ^ 4) * zeta ^ 4 := by
  simp only [map_add, map_mul, map_pow, sigma_emb, sigma_zeta]
  ring

/-- The table of R104 (b) holds the powers of γ. -/
theorem fp_gammaPow (k : Nat) : fp (gammaPow k) = gam ^ k := by
  have h : gam ^ k = gam ^ (k % 5) := by
    conv_lhs => rw [← Nat.div_add_mod k 5, pow_add, pow_mul, gam_five, one_pow, one_mul]
  rw [h]
  have hk : k % 5 < 5 := Nat.mod_lt _ (by decide)
  simp only [gammaPow]
  generalize k % 5 = j at hk
  match j, hk with
  | 0, _ => simp
  | 1, _ => simp [gam]
  | 2, _ => exact gam_two
  | 3, _ => exact gam_three
  | 4, _ => exact gam_four

/-- `frob_{k+1}` is one more application of the automorphism (R104 b). -/
theorem toExt_frob_succ (k : Nat) (a : Ext5) : toExt (frob (k + 1) a) = sigma (toExt (frob k a)) := by
  simp only [toExt, sigma_coeffs, frob, fp_mulP, fp_gammaPow, ← pow_add, mul_assoc]
  ring_nf

theorem toExt_frob_zero (a : Ext5) : toExt (frob 0 a) = toExt a := by
  simp [toExt, frob, fp_gammaPow]

theorem toExt_frob_five (a : Ext5) : toExt (frob 5 a) = toExt a := by
  have h : ∀ n : Nat, gam ^ (5 * n) = 1 := fun n => by rw [pow_mul, gam_five, one_pow]
  simp only [toExt, frob, fp_mulP, fp_gammaPow]
  rw [show gam ^ 5 = 1 from gam_five, show 2 * 5 = 5 * 2 from rfl, show 3 * 5 = 5 * 3 from rfl, show 4 * 5 = 5 * 4 from rfl, h, h, h]
  simp

/-- The product of the conjugates, and the element times it, as field elements (R104 b). -/
theorem toExt_mul_frobProduct (a : Ext5) :
    toExt (eMul a (frobProduct a))
      = toExt (frob 0 a) * (toExt (frob 1 a) * toExt (frob 2 a) * (toExt (frob 3 a) * toExt (frob 4 a))) := by
  rw [toExt_frob_zero, frobProduct]; simp

theorem sigma_fixes_norm (a : Ext5) : sigma (toExt (eMul a (frobProduct a))) = toExt (eMul a (frobProduct a)) := by
  have h := toExt_frob_five a
  rw [← toExt_frob_zero a] at h
  rw [toExt_mul_frobProduct]
  simp only [map_mul, ← toExt_frob_succ]
  rw [h]; ring

/-- a·t has no coefficient but its constant term (R104 b: "(N, 0, 0, 0, 0)"). -/
theorem toExt_mul_frobProduct_const (a : Ext5) : toExt (eMul a (frobProduct a)) = emb (fp (frobNorm a)) := by
  have := Fact.mk pMod_prime
  have hs := sigma_fixes_norm a
  simp only [frobNorm]
  generalize eMul a (frobProduct a) = c at hs
  simp only [toExt] at hs ⊢
  rw [sigma_coeffs, ← sub_eq_zero] at hs
  have hz : emb 0 + emb (fp c.a1 * gam - fp c.a1) * zeta + emb (fp c.a2 * gam ^ 2 - fp c.a2) * zeta ^ 2
      + emb (fp c.a3 * gam ^ 3 - fp c.a3) * zeta ^ 3 + emb (fp c.a4 * gam ^ 4 - fp c.a4) * zeta ^ 4 = 0 := by
    simp only [map_sub, map_mul, map_zero] at hs ⊢
    linear_combination hs
  obtain ⟨-, h1, h2, h3, h4⟩ := ext_coeffs_zero hz
  have key : ∀ x g : ZMod Config.pMod, g ≠ 1 → x * g - x = 0 → x = 0 := by
    intro x g hg hx
    have : x * (g - 1) = 0 := by linear_combination hx
    exact (mul_eq_zero.1 this).resolve_right (sub_ne_zero.2 hg)
  obtain ⟨g1, g2, g3, g4⟩ := gam_pow_ne_one
  rw [key _ _ g1 h1, key _ _ g2 h2, key _ _ g3 h3, key _ _ g4 h4]
  simp

theorem frobNorm_ne_zero {a : Ext5} (h : toExt a ≠ 0) : fp (frobNorm a) ≠ 0 := by
  have := Fact.mk pMod_prime
  have := Fact.mk extPoly_irreducible
  have hs : ∀ x : ExtField, x ≠ 0 → sigma x ≠ 0 := fun x hx => (map_ne_zero_iff sigma sigma.injective).2 hx
  have h0 : toExt (frob 0 a) ≠ 0 := by rwa [toExt_frob_zero]
  have h1 : toExt (frob 1 a) ≠ 0 := by rw [toExt_frob_succ]; exact hs _ h0
  have h2 : toExt (frob 2 a) ≠ 0 := by rw [toExt_frob_succ]; exact hs _ h1
  have h3 : toExt (frob 3 a) ≠ 0 := by rw [toExt_frob_succ]; exact hs _ h2
  have h4 : toExt (frob 4 a) ≠ 0 := by rw [toExt_frob_succ]; exact hs _ h3
  intro hN
  have hc := toExt_mul_frobProduct_const a
  rw [hN, emb_zero, toExt_mul_frobProduct] at hc
  exact (mul_ne_zero h0 (mul_ne_zero (mul_ne_zero h1 h2) (mul_ne_zero h3 h4))) hc

/-- `e_inv` is the field's inverse wherever the operand is not zero (R104). -/
theorem toExt_eInv {a : Ext5} (h : toExt a ≠ 0) : toExt a * toExt (eInv a) = 1 := by
  rw [eInv, toExt_eScale, ← mul_assoc, ← toExt_eMul, toExt_mul_frobProduct_const, ← map_mul, fp_invP _ (frobNorm_ne_zero h),
    map_one]

end Sys2Proof.Machine
end

