-- ==== Sys2Proof/Laws/Points.lean ====
section
/-! SUPPORT. Every point function answers canonical coordinates from canonical coordinates, on the curve or off it (R31, R140), and
the slots of a point's window read what was written (R45, R48). -/

namespace Sys2Proof.Machine

open Sys2Proof

theorem canonicalPoint_inf0 : CanonicalPoint Point.inf0 := by decide

theorem canonicalPoint_generator : CanonicalPoint generator := by decide

theorem canonicalPoint_ptNeg {P : Point} (h : CanonicalPoint P) : CanonicalPoint (ptNeg P) := by
  unfold ptNeg
  split
  · exact h
  · exact ⟨h.1, canonicalExt_eNeg _⟩

theorem canonicalPoint_chordTangent (P Q : Point) (num den : Ext5) : CanonicalPoint (chordTangent P Q num den) :=
  ⟨canonicalExt_eSub _ _, canonicalExt_eSub _ _⟩

theorem canonicalPoint_ptAdd {P Q R : Point} (hP : CanonicalPoint P) (hQ : CanonicalPoint Q) (h : ptAdd P Q = some R) :
    CanonicalPoint R := by
  unfold ptAdd at h
  split at h
  · cases h; exact hQ
  split at h
  · cases h; exact hP
  split at h
  · cases h; exact canonicalPoint_inf0
  split at h
  · cases h; exact canonicalPoint_chordTangent _ _ _ _
  split at h
  · cases h
  · cases h; exact canonicalPoint_chordTangent _ _ _ _

/-- What one iteration of the ladder answers (R138). -/
theorem ladderStep_eq_some_iff {P acc R : Point} {b : Bool} :
    ladderStep P b acc = some R ↔ ∃ d, ptDbl acc = some d ∧ (if b then ptAdd d P else some d) = some R := by
  unfold ladderStep
  cases ptDbl acc <;> simp

theorem canonicalPoint_ladder {P R : Point} (hP : CanonicalPoint P) (k n : Nat) :
    ∀ {acc : Point}, CanonicalPoint acc → ladder P k n acc = some R → CanonicalPoint R := by
  induction n with
  | zero => intro acc ha h; cases h; exact ha
  | succ n ih =>
    intro acc ha h
    rw [ladder] at h
    cases hs : ladderStep P (k.testBit n) acc with
    | none => rw [hs] at h; cases h
    | some acc' =>
      rw [hs] at h
      obtain ⟨d, hd, hb⟩ := ladderStep_eq_some_iff.1 hs
      have cd : CanonicalPoint d := canonicalPoint_ptAdd ha ha hd
      refine ih ?_ h
      split at hb
      · exact canonicalPoint_ptAdd cd hP hb
      · cases hb; exact cd

theorem canonicalPoint_ptMul {P R : Point} {k : Nat} (hP : CanonicalPoint P) (h : ptMul P k = some R) : CanonicalPoint R :=
  canonicalPoint_ladder hP k _ canonicalPoint_inf0 h

/-- What `encrypt` answers, and from what (R162). -/
theorem encrypt_eq_some_iff {pk M A B : Point} {r : Nat} :
    encrypt pk M r = some (A, B) ↔ ptMul generator r = some A ∧ ∃ X, ptMul pk r = some X ∧ ptAdd M X = some B := by
  unfold encrypt
  cases ptMul generator r <;> cases ptMul pk r <;> simp
  rename_i a x
  cases ptAdd M x <;> simp

/-- What `remask` answers, and from what (R163). -/
theorem remask_eq_some_iff {ca cb pk A B : Point} {r : Nat} :
    remask ca cb pk r = some (A, B) ↔
      (∃ X, ptMul generator r = some X ∧ ptAdd ca X = some A) ∧ ∃ X, ptMul pk r = some X ∧ ptAdd cb X = some B := by
  unfold remask
  cases ptMul generator r <;> cases ptMul pk r <;> simp
  rename_i a x
  cases ptAdd ca a <;> cases ptAdd cb x <;> simp

/-- What `decrypt` answers, and from what (R164). -/
theorem decrypt_eq_some_iff {ca cb M : Point} {sk : Nat} :
    decrypt sk ca cb = some M ↔ ∃ S, ptMul ca sk = some S ∧ ptAdd cb (ptNeg S) = some M := by
  unfold decrypt
  cases ptMul ca sk <;> simp

theorem canonicalPoint_encrypt {pk M A B : Point} {r : Nat} (hp : CanonicalPoint pk) (hM : CanonicalPoint M)
    (h : encrypt pk M r = some (A, B)) : CanonicalPoint A ∧ CanonicalPoint B := by
  obtain ⟨hA, X, hX, hB⟩ := encrypt_eq_some_iff.1 h
  exact ⟨canonicalPoint_ptMul canonicalPoint_generator hA, canonicalPoint_ptAdd hM (canonicalPoint_ptMul hp hX) hB⟩

theorem canonicalPoint_remask {ca cb pk A B : Point} {r : Nat} (ha : CanonicalPoint ca) (hb : CanonicalPoint cb)
    (hp : CanonicalPoint pk) (h : remask ca cb pk r = some (A, B)) : CanonicalPoint A ∧ CanonicalPoint B := by
  obtain ⟨⟨X, hX, hA⟩, Y, hY, hB⟩ := remask_eq_some_iff.1 h
  exact ⟨canonicalPoint_ptAdd ha (canonicalPoint_ptMul canonicalPoint_generator hX) hA,
    canonicalPoint_ptAdd hb (canonicalPoint_ptMul hp hY) hB⟩

theorem canonicalPoint_decrypt {ca cb M : Point} {sk : Nat} (ha : CanonicalPoint ca) (hb : CanonicalPoint cb)
    (h : decrypt sk ca cb = some M) : CanonicalPoint M := by
  obtain ⟨S, hS, hM⟩ := decrypt_eq_some_iff.1 h
  exact canonicalPoint_ptAdd hb (canonicalPoint_ptNeg (canonicalPoint_ptMul ha hS)) hM

theorem canonicalPoint_setSlot {P : Point} (h : CanonicalPoint P) (slot : Fin 11) (w : Word) :
    CanonicalPoint (P.setSlot slot w) := by
  unfold Point.setSlot
  split
  · exact ⟨canonicalExt_setCoeff h.1 (canonical_fromInt64 w) _, h.2⟩
  split
  · exact ⟨h.1, canonicalExt_setCoeff h.2 (canonical_fromInt64 w) _⟩
  · exact h

/-- A slot reads what was written: the reduced word, or the flag (R170, R177, R178). -/
theorem slotWord_setSlot_same (P : Point) (slot : Fin 11) (w : Word) :
    (P.setSlot slot w).slotWord slot = if slot.val ≤ 9 then fromInt64 w else BitVec.ofNat 64 (w.getLsbD 0).toNat := by
  fin_cases slot <;> simp [Point.setSlot, Point.slotWord]

/-- The other slots keep what they held (R48). -/
theorem slotWord_setSlot_ne (P : Point) (slot j : Fin 11) (w : Word) (h : j ≠ slot) :
    (P.setSlot slot w).slotWord j = P.slotWord j := by
  unfold Point.setSlot Point.slotWord
  have hne : j.val ≠ slot.val := fun e => h (Fin.ext e)
  split <;> split
  · rename_i h1 h2
    exact coeff_setCoeff_ne _ _ _ _ (fun e => hne (by simpa using e))
  all_goals split <;> (try split) <;> (try rfl)
  all_goals first
    | exact coeff_setCoeff_ne _ _ _ _ (fun e => hne (by have := congrArg Fin.val e; simp only at this; omega))
    | (exfalso; omega)

/-- `pt_add` answers nothing in its case 5 only (R135). -/
theorem ptAdd_eq_none_iff (P Q : Point) : ptAdd P Q = none ↔ AddCase5 P Q := by
  obtain ⟨px, py, pi⟩ := P
  obtain ⟨qx, qy, qi⟩ := Q
  cases pi <;> cases qi <;> simp [ptAdd, AddCase5]
  by_cases hx : px = qx <;> by_cases hn : py = eNeg qy <;> by_cases hy : py = qy <;> simp [hx, hn, hy]
  split <;> simp

/-- Doubling never meets case 5 (R136). -/
theorem ptDbl_ne_none (P : Point) : ptDbl P ≠ none := by
  rw [ptDbl, Ne, ptAdd_eq_none_iff]
  exact fun h => h.2.2.2.1 rfl

/-- From an accumulator the ladder reached, the rest of the ladder gives the whole ladder's answer (R138). -/
theorem ladderAcc_ladder {P acc : Point} {k n : Nat} (h : LadderAcc P k n acc) : ptMul P k = ladder P k n acc := by
  induction h with
  | start => rfl
  | double h hd hb ih => rw [ih, ladder, ladderStep, ptDbl, hd, hb]; rfl
  | add h hd hb hr ih => rw [ih, ladder, ladderStep, ptDbl, hd, hb]; simp [hr]

/-- The ladder from an accumulator it reached: it reaches the end, or an inner addition faults (R138, R191). -/
theorem ladder_reaches {P : Point} {k : Nat} (n : Nat) :
    ∀ {acc : Point}, LadderAcc P k n acc →
      (∃ R, ladder P k n acc = some R ∧ LadderAcc P k 0 R) ∨ (ladder P k n acc = none ∧ MulFaults P k) := by
  induction n with
  | zero => intro acc h; exact .inl ⟨acc, rfl, h⟩
  | succ n ih =>
    intro acc h
    cases hd : ptAdd acc acc with
    | none => exact absurd hd (ptDbl_ne_none acc)
    | some d =>
      cases hb : k.testBit n with
      | false =>
        have e : ladder P k (n + 1) acc = ladder P k n d := by rw [ladder, ladderStep, ptDbl, hd, hb]; rfl
        rw [e]; exact ih (.double h hd hb)
      | true =>
        cases hr : ptAdd d P with
        | none =>
          refine .inr ⟨?_, n, acc, d, h, hd, hb, (ptAdd_eq_none_iff d P).1 hr⟩
          rw [ladder, ladderStep, ptDbl, hd, hb]; simp [hr]
        | some r =>
          have e : ladder P k (n + 1) acc = ladder P k n r := by rw [ladder, ladderStep, ptDbl, hd, hb]; simp [hr]
          rw [e]; exact ih (.add h hd hb hr)

end Sys2Proof.Machine
end

