-- ==== Sys2Proof/Laws/Curve.lean ====
section
/-! SUPPORT. Points of the curve as elements of Mathlib's group of the Weierstrass curve y² = x³ + 2x² + 263z·x over
Fp[X]/(X^5 − 3), and the point functions as that group's operations. -/

namespace Sys2Proof.Machine

open Sys2Proof WeierstrassCurve.Affine

/-- The curve (R130). -/
noncomputable def weierstrass : WeierstrassCurve.Affine ExtField := ⟨0, 2, 0, 263 * zeta, 0⟩

theorem toExt_curveA : toExt curveA = 2 := by
  have : fp 2#64 = 2 := by simp [fp]
  simp [toExt, curveA, this, map_ofNat]

theorem toExt_curveB : toExt curveB = 263 * zeta := by
  have : fp 263#64 = 263 := by simp [fp]
  simp [toExt, curveB, this, map_ofNat]

/-- `on_curve` of a finite point with canonical coordinates is the curve equation (R133). -/
theorem onCurve_finite_iff (P : Point) (h : P.inf = false) :
    onCurve P = true ↔ weierstrass.Equation (toExt P.x) (toExt P.y) := by
  rw [equation_iff]
  have hc : CanonicalExt (eSqr P.y) := canonicalExt_eSqr _
  have hd : CanonicalExt (eMul P.x (eAdd (eAdd (eSqr P.x) (eMuli P.x 2)) curveB)) := canonicalExt_eMul _ _
  simp only [onCurve, h, Bool.false_or, eEq_iff]
  have key : eSqr P.y = eMul P.x (eAdd (eAdd (eSqr P.x) (eMuli P.x 2)) curveB) ↔
      toExt P.y ^ 2 = toExt P.x * (toExt P.x ^ 2 + toExt P.x * 2 + 263 * zeta) := by
    constructor
    · intro e
      have := congrArg toExt e
      simpa [toExt_curveB] using this
    · intro e
      exact toExt_injective hc hd (by simpa [toExt_curveB] using e)
  rw [key]
  simp only [weierstrass]
  constructor <;> intro e <;> linear_combination e

theorem emb_natCast (n : Nat) : emb (n : ZMod Config.pMod) = (n : ExtField) := map_natCast _ n

theorem natCast_ne_zero {n : Nat} (h0 : 0 < n) (h1 : n < Config.pMod) : (n : ExtField) ≠ 0 := by
  intro h
  have hz : emb (n : ZMod Config.pMod) + emb 0 * zeta + emb 0 * zeta ^ 2 + emb 0 * zeta ^ 3 + emb 0 * zeta ^ 4 = 0 := by
    simp only [emb_zero, emb_natCast, h]; ring
  have := (ext_coeffs_zero hz).1
  rw [ZMod.natCast_eq_zero_iff] at this
  exact absurd (Nat.le_of_dvd h0 this) (by omega)

theorem two_ne_zero_ext : (2 : ExtField) ≠ 0 := natCast_ne_zero (n := 2) (by decide) (by decide)

/-- The slope's quotient times its denominator is its numerator: step 7 of R135 without a division. -/
theorem lineResult_chordTangent (P Q : Point) {num den : Ext5} (hn : CanonicalExt num) (hd : toExt den ≠ 0) :
    LineResult P Q num den (chordTangent P Q num den) :=
  ⟨eMul num (eInv den), canonicalExt_eMul _ _, toExt_injective (canonicalExt_eMul _ _) hn (by
    rw [toExt_eMul, toExt_eMul, mul_assoc, mul_comm (toExt (eInv den)), toExt_eInv hd, mul_one]), rfl, rfl, rfl⟩

/-- Points as elements of an abelian group: the good points stand for elements, infinite points for 0 whatever they store, and the
point functions are the group's operations (R134 to R139). -/
structure GroupModel (G : Type) [AddCommGroup G] (R : Point → G → Prop) : Prop where
  good : ∀ P, GoodPoint P ↔ ∃ A, R P A
  inf0 : R Point.inf0 0
  eq : ∀ {P Q A B}, R P A → R Q B → (ptEq P Q = true ↔ A = B)
  unique : ∀ {P Q A}, R P A → R Q A → P.inf = false → P = Q
  neg : ∀ {P A}, R P A → R (ptNeg P) (-A)
  add : ∀ {P Q A B}, R P A → R Q B → ∃ S, ptAdd P Q = some S ∧ R S (A + B)

section Group

variable [Fact (Nat.Prime Config.pMod)] [Fact (Irreducible (Polynomial.X ^ 5 - Polynomial.C (3 : ZMod Config.pMod)))]

open Classical in
/-- The group of the curve's points (R139 e). -/
noncomputable abbrev CurveGroup := weierstrass.Point

theorem zeta_ne_zero : (zeta : ExtField) ≠ 0 := by
  intro h
  have h5 := zeta_pow_five
  rw [h] at h5
  exact natCast_ne_zero (n := 3) (by decide) (by decide) (by rw [Nat.cast_ofNat, ← h5]; ring)

theorem weierstrass_disc : weierstrass.Δ ≠ 0 := by
  have h64 : (64 : ExtField) ≠ 0 := natCast_ne_zero (n := 64) (by decide) (by decide)
  have h263 : (263 : ExtField) ≠ 0 := natCast_ne_zero (n := 263) (by decide) (by decide)
  have hlin : (1 - 263 * zeta : ExtField) ≠ 0 := by
    intro h
    have hz : emb 1 + emb (-263) * zeta + emb 0 * zeta ^ 2 + emb 0 * zeta ^ 3 + emb 0 * zeta ^ 4 = 0 := by
      simp only [emb_zero, map_neg, map_one, map_ofNat]
      linear_combination h
    exact one_ne_zero (ext_coeffs_zero hz).1
  have e : weierstrass.Δ = 64 * (263 * zeta) ^ 2 * (1 - 263 * zeta) := by
    simp only [WeierstrassCurve.Δ, WeierstrassCurve.b₂, WeierstrassCurve.b₄, WeierstrassCurve.b₆, WeierstrassCurve.b₈, weierstrass]
    ring
  rw [e]
  exact mul_ne_zero (mul_ne_zero h64 (pow_ne_zero _ (mul_ne_zero h263 zeta_ne_zero))) hlin

theorem nonsingular_of_equation {x y : ExtField} (h : weierstrass.Equation x y) : weierstrass.Nonsingular x y :=
  (equation_iff_nonsingular_of_Δ_ne_zero weierstrass_disc).1 h

/-- The point value stands for the group element: infinite points for 0, whatever they store (R132). -/
def Represents (P : Point) (A : CurveGroup) : Prop :=
  CanonicalPoint P ∧ ((P.inf = true ∧ A = 0) ∨ (P.inf = false ∧ ∃ h, A = Point.some (toExt P.x) (toExt P.y) h))

/-- A good point stands for a group element, and only good points do. -/
theorem goodPoint_iff (P : Point) : GoodPoint P ↔ ∃ A, Represents P A := by
  constructor
  · rintro ⟨hc, ho⟩
    cases hinf : P.inf with
    | true => exact ⟨0, hc, Or.inl ⟨hinf, rfl⟩⟩
    | false =>
      exact ⟨_, hc, Or.inr ⟨hinf, nonsingular_of_equation ((onCurve_finite_iff P hinf).1 ho), rfl⟩⟩
  · rintro ⟨A, hc, ⟨hinf, -⟩ | ⟨hinf, hns, -⟩⟩
    · exact ⟨hc, by simp [onCurve, hinf]⟩
    · exact ⟨hc, (onCurve_finite_iff P hinf).2 hns.1⟩

omit [Fact (Nat.Prime Config.pMod)] [Fact (Irreducible (Polynomial.X ^ 5 - Polynomial.C (3 : ZMod Config.pMod)))] in
theorem represents_inf0 : Represents Point.inf0 0 := ⟨by decide, Or.inl ⟨rfl, rfl⟩⟩

omit [Fact (Nat.Prime Config.pMod)] [Fact (Irreducible (Polynomial.X ^ 5 - Polynomial.C (3 : ZMod Config.pMod)))] in
/-- Equality of points is equality in the group (R137). -/
theorem ptEq_iff {P Q : Point} {A B : CurveGroup} (hP : Represents P A) (hQ : Represents Q B) :
    ptEq P Q = true ↔ A = B := by
  obtain ⟨cP, ⟨iP, rfl⟩ | ⟨iP, nP, rfl⟩⟩ := hP <;> obtain ⟨cQ, ⟨iQ, rfl⟩ | ⟨iQ, nQ, rfl⟩⟩ := hQ
  · simp [ptEq, iP, iQ]
  · simp only [ptEq, iP, iQ]
    exact ⟨fun h => by simp at h, fun h => absurd h.symm (Point.some_ne_zero _)⟩
  · simp only [ptEq, iP, iQ]
    exact ⟨fun h => by simp at h, fun h => absurd h (Point.some_ne_zero _)⟩
  · simp only [ptEq, iP, iQ]
    simp only [Bool.and_self, Bool.false_eq_true, if_false, bne_self_eq_false, Bool.and_eq_true, eEq_iff, Point.some.injEq]
    exact ⟨fun h => ⟨by rw [h.1], by rw [h.2]⟩,
      fun h => ⟨toExt_injective cP.1 cQ.1 h.1, toExt_injective cP.2 cQ.2 h.2⟩⟩

omit [Fact (Nat.Prime Config.pMod)] [Fact (Irreducible (Polynomial.X ^ 5 - Polynomial.C (3 : ZMod Config.pMod)))] in
/-- A finite point is determined by its group element, stored bits included (R149). -/
theorem represents_unique {P Q : Point} {A : CurveGroup} (hP : Represents P A) (hQ : Represents Q A) (hi : P.inf = false) : P = Q := by
  have h := (ptEq_iff hP hQ).2 rfl
  obtain ⟨px, py, pi⟩ := P
  obtain ⟨qx, qy, qi⟩ := Q
  simp only at hi
  subst hi
  cases qi <;> simp [ptEq] at h ⊢
  exact h

theorem negY_eq (x y : ExtField) : weierstrass.negY x y = -y := by simp [weierstrass]

omit [Fact (Nat.Prime Config.pMod)] [Fact (Irreducible (Polynomial.X ^ 5 - Polynomial.C (3 : ZMod Config.pMod)))] in
theorem some_congr {x y x' y' : ExtField} (hx : x = x') (hy : y = y') (h : weierstrass.Nonsingular x y) :
    ∃ h', (Point.some x y h : CurveGroup) = Point.some x' y' h' := by
  subst hx; subst hy; exact ⟨h, rfl⟩

/-- `pt_neg` is the group's negation (R134). -/
theorem represents_neg {P : Point} {A : CurveGroup} (hP : Represents P A) : Represents (ptNeg P) (-A) := by
  obtain ⟨cP, ⟨iP, rfl⟩ | ⟨iP, nP, rfl⟩⟩ := hP
  · rw [ptNeg, if_pos iP]
    exact ⟨cP, Or.inl ⟨iP, Point.neg_zero⟩⟩
  · rw [ptNeg, if_neg (by simp [iP])]
    refine ⟨⟨cP.1, canonicalExt_eNeg _⟩, Or.inr ⟨rfl, ?_⟩⟩
    have hn : weierstrass.negY (toExt P.x) (toExt P.y) = toExt (eNeg P.y) := by rw [negY_eq, toExt_eNeg]
    rw [Point.neg_some]
    exact some_congr rfl hn _

/-- Step 7 of `pt_add` with the slope λ of the line (R135). -/
theorem toExt_chordTangent {P Q : Point} {num den : Ext5} {l : ExtField} (hd : toExt den ≠ 0)
    (hl : l * toExt den = toExt num) :
    toExt (chordTangent P Q num den).x = weierstrass.addX (toExt P.x) (toExt Q.x) l ∧
    toExt (chordTangent P Q num den).y = weierstrass.addY (toExt P.x) (toExt Q.x) (toExt P.y) l := by
  have hlam : toExt num * toExt (eInv den) = l := by
    rw [← hl, mul_assoc, toExt_eInv hd, mul_one]
  constructor
  · simp only [chordTangent, toExt_eSub, toExt_eSqr, toExt_eMul, hlam, toExt_curveA, addX, weierstrass]
    ring
  · simp only [chordTangent, toExt_eSub, toExt_eSqr, toExt_eMul, hlam, toExt_curveA, addY, negAddY, negY, addX, weierstrass]
    ring

open Classical in
/-- On the curve `pt_add` never meets its case 5, and it is the group's addition (R135, R139 e). -/
theorem represents_add {P Q : Point} {A B : CurveGroup} (hP : Represents P A) (hQ : Represents Q B) :
    ∃ R, ptAdd P Q = some R ∧ Represents R (A + B) := by
  obtain ⟨cP, ⟨iP, rfl⟩ | ⟨iP, nP, rfl⟩⟩ := id hP
  · exact ⟨Q, by rw [ptAdd, if_pos iP], by rw [show (0 : CurveGroup) + B = B from zero_add B]; exact hQ⟩
  obtain ⟨cQ, ⟨iQ, rfl⟩ | ⟨iQ, nQ, rfl⟩⟩ := id hQ
  · exact ⟨P, by rw [ptAdd, if_neg (by simp [iP]), if_pos iQ], by
    rw [show ((Point.some _ _ nP : CurveGroup) + 0) = Point.some _ _ nP from add_zero (Point.some _ _ nP : CurveGroup)]; exact hP⟩
  have fP : ¬ P.inf = true := by simp [iP]
  have fQ : ¬ Q.inf = true := by simp [iQ]
  have ex : eEq P.x Q.x = true ↔ toExt P.x = toExt Q.x := by
    rw [eEq_iff]; exact ⟨fun h => by rw [h], toExt_injective cP.1 cQ.1⟩
  have en : eEq P.y (eNeg Q.y) = true ↔ toExt P.y = weierstrass.negY (toExt Q.x) (toExt Q.y) := by
    rw [eEq_iff, negY_eq, ← toExt_eNeg]
    exact ⟨fun h => by rw [h], toExt_injective cP.2 (canonicalExt_eNeg _)⟩
  have ey : eEq P.y Q.y = true ↔ toExt P.y = toExt Q.y := by
    rw [eEq_iff]; exact ⟨fun h => by rw [h], toExt_injective cP.2 cQ.2⟩
  by_cases hx : toExt P.x = toExt Q.x
  · by_cases hn : toExt P.y = weierstrass.negY (toExt Q.x) (toExt Q.y)
    · refine ⟨Point.inf0, ?_, ?_⟩
      · rw [ptAdd, if_neg fP, if_neg fQ, if_pos (by simp [ex.2 hx, en.2 hn])]
      · rw [Point.add_of_Y_eq hx hn]; exact represents_inf0
    · have hy : toExt P.y = toExt Q.y := Y_eq_of_Y_ne nP.1 nQ.1 hx hn
      refine ⟨_, by
        rw [ptAdd, if_neg fP, if_neg fQ, if_neg (by simp [ex.2 hx, mt en.1 hn]), if_pos (by simp [ex.2 hx, ey.2 hy])],
        canonicalPoint_chordTangent _ _ _ _, Or.inr ⟨rfl, ?_⟩⟩
      rw [Point.add_of_Y_ne hn]
      have hd : toExt P.y - weierstrass.negY (toExt P.x) (toExt P.y) ≠ 0 := by
        rw [negY_eq] at hn ⊢
        intro h0
        apply hn
        rw [← hy]
        linear_combination h0
      have hden : toExt (eMuli P.y 2) = toExt P.y - weierstrass.negY (toExt P.x) (toExt P.y) := by
        rw [negY_eq, toExt_eMuli]; push_cast; ring
      have hs : weierstrass.slope (toExt P.x) (toExt Q.x) (toExt P.y) (toExt Q.y) * toExt (eMuli P.y 2)
          = toExt (tangentNum P.x) := by
        rw [slope_of_Y_ne hx hn, hden, div_mul_cancel₀ _ hd]
        simp only [tangentNum, toExt_eAdd, toExt_eMuli, toExt_eSqr, toExt_curveB, weierstrass]
        push_cast; ring
      obtain ⟨h1, h2⟩ := toExt_chordTangent (P := P) (Q := Q) (by rw [hden]; exact hd) hs
      exact some_congr h1.symm h2.symm _
  · refine ⟨_, by
      rw [ptAdd, if_neg fP, if_neg fQ, if_neg (by simp [mt ex.1 hx]), if_neg (by simp [mt ex.1 hx]), if_neg (mt ex.1 hx)],
      canonicalPoint_chordTangent _ _ _ _, Or.inr ⟨rfl, ?_⟩⟩
    rw [Point.add_of_X_ne hx]
    have hd : toExt (eSub Q.x P.x) ≠ 0 := by
      rw [toExt_eSub]; exact sub_ne_zero.2 (Ne.symm hx)
    have hs : weierstrass.slope (toExt P.x) (toExt Q.x) (toExt P.y) (toExt Q.y) * toExt (eSub Q.x P.x)
        = toExt (eSub Q.y P.y) := by
      rw [slope_of_X_ne hx, toExt_eSub, toExt_eSub]
      have : toExt P.x - toExt Q.x ≠ 0 := sub_ne_zero.2 hx
      field_simp
      ring
    obtain ⟨h1, h2⟩ := toExt_chordTangent (P := P) (Q := Q) hd hs
    exact some_congr h1.symm h2.symm _

open Classical in
/-- The points of the curve as elements of an abelian group, with the point functions as its operations (R139 e). -/
theorem groupModel_curve : GroupModel CurveGroup Represents where
  good := goodPoint_iff
  inf0 := represents_inf0
  eq := ptEq_iff
  unique := represents_unique
  neg := represents_neg
  add := represents_add

end Group

theorem groupModel_exists : ∃ (G : Type) (_ : AddCommGroup G) (R : Point → G → Prop), GroupModel G R := by
  have := Fact.mk pMod_prime
  have := Fact.mk extPoly_irreducible
  exact ⟨_, _, _, groupModel_curve⟩

section Ladder

variable {G : Type} [AddCommGroup G] {R : Point → G → Prop}

/-- One iteration of the ladder doubles and adds in the group (R138). -/
theorem GroupModel.ladderStep (m : GroupModel G R) {P acc : Point} {A C : G} (hP : R P A) (hacc : R acc C) (b : Bool) :
    ∃ Q, ladderStep P b acc = some Q ∧ R Q (2 • C + b.toNat • A) := by
  obtain ⟨D, hD, rD⟩ := m.add hacc hacc
  rw [← two_nsmul] at rD
  cases b with
  | false => exact ⟨D, by simp [Machine.ladderStep, ptDbl, hD], by simpa using rD⟩
  | true =>
    obtain ⟨Q, hQ, rQ⟩ := m.add rD hP
    exact ⟨Q, by simp [Machine.ladderStep, ptDbl, hD, hQ], by simpa using rQ⟩

/-- The ladder over the low `n` bits of `k` (R138). -/
theorem GroupModel.ladder (m : GroupModel G R) {P : Point} {A : G} (hP : R P A) (k n : Nat) :
    ∀ {acc : Point} {C : G}, R acc C → ∃ Q, ladder P k n acc = some Q ∧ R Q (2 ^ n • C + (k % 2 ^ n) • A) := by
  induction n with
  | zero =>
    intro acc C h
    exact ⟨acc, rfl, by simpa [Nat.mod_one] using h⟩
  | succ n ih =>
    intro acc C h
    obtain ⟨S, hS, rS⟩ := m.ladderStep hP h (k.testBit n)
    obtain ⟨Q, hQ, rQ⟩ := ih rS
    refine ⟨Q, by simp [Machine.ladder, hS, hQ], ?_⟩
    have hk : k % 2 ^ (n + 1) = 2 ^ n * (k.testBit n).toNat + k % 2 ^ n := by
      rw [Nat.mod_pow_succ, Nat.toNat_testBit, add_comm]
    have e : 2 ^ (n + 1) • C + (k % 2 ^ (n + 1)) • A
        = 2 ^ n • (2 • C + (k.testBit n).toNat • A) + (k % 2 ^ n) • A := by
      rw [hk, add_smul, mul_smul, pow_succ, mul_smul, smul_add, add_assoc]
    rwa [e]

/-- On the curve `pt_mul` never faults, and it is the group's multiple (R138). -/
theorem GroupModel.mul (m : GroupModel G R) {P : Point} {A : G} (hP : R P A) {k : Nat} (hk : k < 2 ^ Config.scalarBits) :
    ∃ Q, ptMul P k = some Q ∧ R Q (k • A) := by
  obtain ⟨Q, hQ, rQ⟩ := m.ladder hP k Config.scalarBits m.inf0
  refine ⟨Q, hQ, ?_⟩
  rwa [Nat.mod_eq_of_lt hk, smul_zero, zero_add] at rQ

/-- A point is infinite exactly when it stands for 0 (R132, R137). -/
theorem GroupModel.inf_iff (m : GroupModel G R) {X : Point} {A : G} (h : R X A) : X.inf = true ↔ A = 0 := by
  rw [← m.eq h m.inf0]
  obtain ⟨x, y, i⟩ := X
  cases i <;> simp [ptEq, Point.inf0]

end Ladder

theorem generator_good : GoodPoint generator := ⟨by decide, by decide +kernel⟩

end Sys2Proof.Machine
end

