-- ==== Sys2Proof/Laws/Decode.lean ====
section
/-! SUPPORT. The fields of an encoded word, the two ways to read a word (as a number and through a mask), and what `legal` and
`transfer` answer. -/

namespace Sys2Proof

theorem formatR_toNat (op : Nat) (rd ra rb rc re rf : RegNum) (h : op < 256) :
    (formatR op rd ra rb rc re rf).toNat
      = op * 2 ^ 24 + rd.val * 2 ^ 20 + ra.val * 2 ^ 16 + rb.val * 2 ^ 12 + rc.val * 2 ^ 8 + re.val * 2 ^ 4 + rf.val := by
  rw [formatR, BitVec.toNat_ofNat]
  omega

theorem formatI_toNat (op : Nat) (rd ra : RegNum) (imm8 : BitVec 8) (h : op < 256) :
    (formatI op rd ra imm8).toNat = op * 2 ^ 24 + rd.val * 2 ^ 20 + ra.val * 2 ^ 16 + imm8.toNat := by
  rw [formatI, BitVec.toNat_ofNat]
  omega

theorem formatX_toNat (op : Nat) (r : RegNum) (slot : Nat) (h : op < 256) (hs : slot < 256) :
    (formatX op r slot).toNat = op * 2 ^ 24 + r.val * 2 ^ 20 + slot := by
  rw [formatX, BitVec.toNat_ofNat]
  omega

/-- The fields of a format R word, and the reserved parts the rows of R64 use (R61). -/
theorem formatR_fields (op : Nat) (rd ra rb rc re rf : RegNum) (h : op < 256) :
    bits (formatR op rd ra rb rc re rf) 24 8 = op ∧ bits (formatR op rd ra rb rc re rf) 20 4 = rd.val ∧
    bits (formatR op rd ra rb rc re rf) 16 4 = ra.val ∧ bits (formatR op rd ra rb rc re rf) 12 4 = rb.val ∧
    bits (formatR op rd ra rb rc re rf) 8 4 = rc.val ∧ bits (formatR op rd ra rb rc re rf) 4 4 = re.val ∧
    bits (formatR op rd ra rb rc re rf) 0 4 = rf.val ∧
    bits (formatR op rd ra rb rc re rf) 0 8 = re.val * 2 ^ 4 + rf.val ∧
    bits (formatR op rd ra rb rc re rf) 0 12 = rc.val * 2 ^ 8 + re.val * 2 ^ 4 + rf.val ∧
    bits (formatR op rd ra rb rc re rf) 0 16 = rb.val * 2 ^ 12 + rc.val * 2 ^ 8 + re.val * 2 ^ 4 + rf.val ∧
    bits (formatR op rd ra rb rc re rf) 0 20
      = ra.val * 2 ^ 16 + rb.val * 2 ^ 12 + rc.val * 2 ^ 8 + re.val * 2 ^ 4 + rf.val := by
  simp only [bits, formatR_toNat _ _ _ _ _ _ _ h]
  omega

/-- The fields of a format I word (R62). -/
theorem formatI_fields (op : Nat) (rd ra : RegNum) (imm8 : BitVec 8) (h : op < 256) :
    bits (formatI op rd ra imm8) 24 8 = op ∧ bits (formatI op rd ra imm8) 20 4 = rd.val ∧
    bits (formatI op rd ra imm8) 16 4 = ra.val ∧ bits (formatI op rd ra imm8) 8 8 = 0 ∧
    bits (formatI op rd ra imm8) 0 8 = imm8.toNat := by
  simp only [bits, formatI_toNat _ _ _ _ h]
  omega

/-- The fields of a format X word (R63). -/
theorem formatX_fields (op : Nat) (r : RegNum) (slot : Nat) (h : op < 256) (hs : slot < 256) :
    bits (formatX op r slot) 24 8 = op ∧ bits (formatX op r slot) 20 4 = r.val ∧
    bits (formatX op r slot) 8 12 = 0 ∧ bits (formatX op r slot) 0 8 = slot := by
  simp only [bits, formatX_toNat _ _ _ h hs]
  omega

/-- A register field holds the register number of its bits (R61). -/
theorem regField_eq {w : CommandWord} {lo : Nat} {r : RegNum} (h : bits w lo 4 = r.val) : regField w lo = r := by
  apply Fin.ext
  simp only [regField, Fin.ofNat, h]
  omega

theorem regField_val (w : CommandWord) (lo : Nat) : (regField w lo).val = bits w lo 4 := by
  simp only [regField, Fin.ofNat, bits]
  omega

theorem immField_toNat (w : CommandWord) : (immField w).toNat = bits w 0 8 := by
  simp only [immField, BitVec.toNat_ofNat, bits]
  omega

@[simp] theorem legal_true (i : Instr) : legal true i = some i := rfl
@[simp] theorem legal_false (i : Instr) : legal false i = none := rfl

theorem legal_eq_some_iff (b : Bool) (i j : Instr) : legal b i = some j ↔ b = true ∧ i = j := by
  cases b <;> simp

theorem legal_eq_none_iff (b : Bool) (i : Instr) : legal b i = none ↔ b = false := by
  cases b <;> simp

/-- A transfer word spells its command exactly when bits 19:8 are 0 and the slot is in the window (R63, R66 c). -/
theorem transfer_eq_some_iff (w : CommandWord) (n : Nat) (mk : Fin n → Instr) (j : Instr) :
    transfer w n mk = some j ↔ bits w 8 12 = 0 ∧ ∃ h : bits w 0 8 < n, mk ⟨bits w 0 8, h⟩ = j := by
  unfold transfer
  split
  · rename_i h
    rw [legal_eq_some_iff]
    simp [h]
  · rename_i h
    simp [h]

/-- The mask of the field of `len` bits from bit `lo` up. -/
def fieldMask (lo len : Nat) : CommandWord := (BitVec.allOnes len).setWidth 32 <<< lo

theorem bits_eq_extract (w : CommandWord) (lo len : Nat) : bits w lo len = (w.extractLsb' lo len).toNat := by
  simp [bits, Nat.shiftRight_eq_div_pow]

/-- A field read through a mask is the field read as a number (R64). -/
theorem and_fieldMask_eq_iff (w : CommandWord) (lo len : Nat) (v : BitVec len) (h : lo + len ≤ 32) :
    w &&& fieldMask lo len = v.setWidth 32 <<< lo ↔ bits w lo len = v.toNat := by
  rw [bits_eq_extract, ← BitVec.toNat_inj]
  constructor
  · intro e
    congr 1
    rw [BitVec.toNat_inj] at e
    ext i hi
    have := congrArg (fun x => x.getLsbD (lo + i)) e
    have hlt : lo + i < 32 := by omega
    simp [fieldMask, hlt, hi] at this
    simp [BitVec.getLsbD_eq_getElem, hlt, this]
  · intro e
    rw [BitVec.toNat_inj] at e ⊢
    subst e
    ext i hi
    by_cases hlo : i < lo
    · simp [fieldMask, hlo]
    · by_cases hlen : i - lo < len
      · have e1 : lo + (i - lo) = i := by omega
        simp [fieldMask, hlo, hlen, e1, BitVec.getLsbD_eq_getElem, hi]
      · simp [fieldMask, hlo, hlen]

/-- A mask of two fields that do not overlap compares both (R64). -/
theorem and_or_eq_iff (w m n a b : CommandWord) (hmn : m &&& n = 0) (ha : a &&& m = a) (hb : b &&& n = b) :
    w &&& (m ||| n) = a ||| b ↔ w &&& m = a ∧ w &&& n = b := by
  constructor
  · intro h
    have key : ∀ i (hi : i < 32), (w[i] && m[i]) = a[i] ∧ (w[i] && n[i]) = b[i] := by
      intro i hi
      have h1 := congrArg (fun x : CommandWord => x[i]) h
      have h2 := congrArg (fun x : CommandWord => x[i]) hmn
      have h3 := congrArg (fun x : CommandWord => x[i]) ha
      have h4 := congrArg (fun x : CommandWord => x[i]) hb
      simp only [BitVec.getElem_and, BitVec.getElem_or, BitVec.ofNat_eq_ofNat, BitVec.getElem_zero] at h1 h2 h3 h4
      revert h1 h2 h3 h4
      cases w[i] <;> cases m[i] <;> cases n[i] <;> cases a[i] <;> cases b[i] <;> decide
    constructor
    · ext i hi
      rw [BitVec.getElem_and]
      exact (key i hi).1
    · ext i hi
      rw [BitVec.getElem_and]
      exact (key i hi).2
  · rintro ⟨rfl, rfl⟩
    rw [BitVec.and_or_distrib_left]

/-- A row's mask and match read two fields: the upper one has a value, the lower one is 0 (R64, R65). -/
theorem and_two_fields_iff (w : CommandWord) (lo₁ len₁ lo₂ len₂ : Nat) (v : BitVec len₁) (h₁ : lo₁ + len₁ ≤ 32)
    (h₂ : lo₂ + len₂ ≤ lo₁) :
    w &&& (fieldMask lo₁ len₁ ||| fieldMask lo₂ len₂) = v.setWidth 32 <<< lo₁ ↔ bits w lo₁ len₁ = v.toNat ∧ bits w lo₂ len₂ = 0 := by
  have hd : fieldMask lo₁ len₁ &&& fieldMask lo₂ len₂ = 0 := by
    ext i hi
    by_cases h : i < lo₁
    · simp [fieldMask, h]
    · by_cases h' : i < lo₂
      · simp [fieldMask, h']
      · have : ¬ i - lo₂ < len₂ := by omega
        simp [fieldMask, this]
  have hv : (v.setWidth 32 <<< lo₁) &&& fieldMask lo₁ len₁ = v.setWidth 32 <<< lo₁ := by
    ext i hi
    by_cases h : i < lo₁
    · simp [fieldMask, h]
    · by_cases h' : i - lo₁ < len₁
      · simp [fieldMask, h, h']
      · simp [fieldMask, h, h', BitVec.getLsbD_of_ge v (i - lo₁) (by omega)]
  have := and_or_eq_iff w (fieldMask lo₁ len₁) (fieldMask lo₂ len₂) (v.setWidth 32 <<< lo₁) 0 hd hv (by simp)
  have e : (v.setWidth 32 <<< lo₁ : CommandWord) ||| 0 = v.setWidth 32 <<< lo₁ := by simp
  rw [e] at this
  rw [this, and_fieldMask_eq_iff w lo₁ len₁ v h₁]
  have z := and_fieldMask_eq_iff w lo₂ len₂ 0 (by omega)
  simp only [BitVec.ofNat_eq_ofNat, BitVec.toNat_ofNat, Nat.zero_mod] at z
  rw [← z]
  have e0 : ((0#len₂).setWidth 32 <<< lo₂ : CommandWord) = 0 := by
    ext i hi
    simp
  rw [e0]

/-- A word is made of its opcode byte and its six 4-bit fields (R61). -/
theorem toNat_eq_fields (w : CommandWord) :
    w.toNat = bits w 24 8 * 2 ^ 24 + bits w 20 4 * 2 ^ 20 + bits w 16 4 * 2 ^ 16 + bits w 12 4 * 2 ^ 12 + bits w 8 4 * 2 ^ 8
      + bits w 4 4 * 2 ^ 4 + bits w 0 4 := by
  have := w.isLt
  simp only [bits]
  omega

/-- The longer fields, made of the 4-bit ones. -/
theorem bits_split (w : CommandWord) :
    bits w 0 8 = bits w 4 4 * 2 ^ 4 + bits w 0 4 ∧ bits w 0 12 = bits w 8 4 * 2 ^ 8 + bits w 0 8 ∧
    bits w 0 16 = bits w 12 4 * 2 ^ 12 + bits w 0 12 ∧ bits w 0 20 = bits w 16 4 * 2 ^ 16 + bits w 0 16 ∧
    bits w 8 8 = bits w 12 4 * 2 ^ 4 + bits w 8 4 ∧ bits w 8 12 = bits w 16 4 * 2 ^ 8 + bits w 8 8 := by
  simp only [bits]
  omega

theorem shiftLeft_field {n k : Nat} (h : n < 2 ^ (32 - k)) (hk : k ≤ 32) : (BitVec.ofNat 32 n <<< k).toNat = n * 2 ^ k := by
  have hp : 2 ^ (32 - k) * 2 ^ k = 2 ^ 32 := by rw [← pow_add, Nat.sub_add_cancel hk]
  have hn : n * 2 ^ k < 2 ^ 32 := by rw [← hp]; exact Nat.mul_lt_mul_of_pos_right h (Nat.two_pow_pos k)
  have hn' : n < 2 ^ 32 := Nat.lt_of_lt_of_le h (Nat.pow_le_pow_right (by decide) (Nat.sub_le 32 k))
  rw [BitVec.toNat_shiftLeft, BitVec.toNat_ofNat, Nat.mod_eq_of_lt hn', Nat.shiftLeft_eq, Nat.mod_eq_of_lt hn]

theorem or_field {x y k : Nat} (h : y < 2 ^ k) : x * 2 ^ k ||| y = x * 2 ^ k + y := by
  rw [← Nat.shiftLeft_eq, Nat.shiftLeft_add_eq_or_of_lt h]

/-- R61's word, put together with shifts and ORs, is the encoder's. -/
theorem wordR_eq (op : CommandWord) (rd ra rb rc re rf : RegNum) (h : op.toNat < 256) :
    Machine.wordR op rd ra rb rc re rf = formatR op.toNat rd ra rb rc re rf := by
  apply BitVec.eq_of_toNat_eq
  rw [formatR_toNat _ _ _ _ _ _ _ h]
  have e : op = BitVec.ofNat 32 op.toNat := by simp
  rw [Machine.wordR, e]
  simp only [BitVec.toNat_or]
  rw [shiftLeft_field (k := 24) (by simpa using h) (by decide), shiftLeft_field (k := 20) (by omega) (by decide),
    shiftLeft_field (k := 16) (by omega) (by decide), shiftLeft_field (k := 12) (by omega) (by decide),
    shiftLeft_field (k := 8) (by omega) (by decide), shiftLeft_field (k := 4) (by omega) (by decide),
    BitVec.toNat_ofNat, BitVec.toNat_ofNat]
  have := rd.isLt; have := ra.isLt; have := rb.isLt; have := rc.isLt; have := re.isLt; have := rf.isLt
  generalize op.toNat = o at h
  generalize rd.val = d at *; generalize ra.val = a at *; generalize rb.val = b at *; generalize rc.val = c at *
  generalize re.val = e' at *; generalize rf.val = f at *
  rw [Nat.mod_eq_of_lt (a := o) (by omega), Nat.mod_eq_of_lt (a := f) (by omega),
    or_field (k := 24) (y := d * 2 ^ 20) (by omega),
    show o * 2 ^ 24 + d * 2 ^ 20 = (o * 2 ^ 4 + d) * 2 ^ 20 by omega, or_field (k := 20) (y := a * 2 ^ 16) (by omega),
    show (o * 2 ^ 4 + d) * 2 ^ 20 + a * 2 ^ 16 = (o * 2 ^ 8 + d * 2 ^ 4 + a) * 2 ^ 16 by omega,
    or_field (k := 16) (y := b * 2 ^ 12) (by omega),
    show (o * 2 ^ 8 + d * 2 ^ 4 + a) * 2 ^ 16 + b * 2 ^ 12 = (o * 2 ^ 12 + d * 2 ^ 8 + a * 2 ^ 4 + b) * 2 ^ 12 by omega,
    or_field (k := 12) (y := c * 2 ^ 8) (by omega),
    show (o * 2 ^ 12 + d * 2 ^ 8 + a * 2 ^ 4 + b) * 2 ^ 12 + c * 2 ^ 8 = (o * 2 ^ 16 + d * 2 ^ 12 + a * 2 ^ 8 + b * 2 ^ 4 + c) * 2 ^ 8
      by omega,
    or_field (k := 8) (y := e' * 2 ^ 4) (by omega),
    show (o * 2 ^ 16 + d * 2 ^ 12 + a * 2 ^ 8 + b * 2 ^ 4 + c) * 2 ^ 8 + e' * 2 ^ 4
      = (o * 2 ^ 20 + d * 2 ^ 16 + a * 2 ^ 12 + b * 2 ^ 8 + c * 2 ^ 4 + e') * 2 ^ 4 by omega,
    or_field (k := 4) (y := f) (by omega)]

/-- R62's word, put together with shifts and ORs, is the encoder's. -/
theorem wordI_eq (op : CommandWord) (rd ra : RegNum) (imm8 : BitVec 8) (h : op.toNat < 256) :
    Machine.wordI op rd ra imm8 = formatI op.toNat rd ra imm8 := by
  apply BitVec.eq_of_toNat_eq
  rw [formatI_toNat _ _ _ _ h]
  have e : op = BitVec.ofNat 32 op.toNat := by simp
  rw [Machine.wordI, e]
  simp only [BitVec.toNat_or]
  rw [shiftLeft_field (k := 24) (by simpa using h) (by decide), shiftLeft_field (k := 20) (by omega) (by decide),
    shiftLeft_field (k := 16) (by omega) (by decide), BitVec.toNat_setWidth, BitVec.toNat_ofNat]
  have := rd.isLt; have := ra.isLt; have := imm8.isLt
  generalize op.toNat = o at h
  generalize rd.val = d at *; generalize ra.val = a at *; generalize imm8.toNat = f at *
  rw [Nat.mod_eq_of_lt (a := o) (by omega), Nat.mod_eq_of_lt (a := f) (by omega),
    or_field (k := 24) (y := d * 2 ^ 20) (by omega),
    show o * 2 ^ 24 + d * 2 ^ 20 = (o * 2 ^ 4 + d) * 2 ^ 20 by omega, or_field (k := 20) (y := a * 2 ^ 16) (by omega),
    show (o * 2 ^ 4 + d) * 2 ^ 20 + a * 2 ^ 16 = (o * 2 ^ 8 + d * 2 ^ 4 + a) * 2 ^ 16 by omega,
    or_field (k := 16) (y := f) (by omega)]

/-- R63's word, put together with shifts and ORs, is the encoder's. -/
theorem wordX_eq (op : CommandWord) (r : RegNum) (slot : BitVec 8) (h : op.toNat < 256) :
    Machine.wordX op r slot = formatX op.toNat r slot.toNat := by
  apply BitVec.eq_of_toNat_eq
  rw [formatX_toNat _ _ _ h slot.isLt]
  have e : op = BitVec.ofNat 32 op.toNat := by simp
  rw [Machine.wordX, e]
  simp only [BitVec.toNat_or]
  rw [shiftLeft_field (k := 24) (by simpa using h) (by decide), shiftLeft_field (k := 20) (by omega) (by decide),
    BitVec.toNat_setWidth, BitVec.toNat_ofNat]
  have := r.isLt; have := slot.isLt
  generalize op.toNat = o at h
  generalize r.val = d at *; generalize slot.toNat = f at *
  rw [Nat.mod_eq_of_lt (a := o) (by omega), Nat.mod_eq_of_lt (a := f) (by omega),
    or_field (k := 24) (y := d * 2 ^ 20) (by omega),
    show o * 2 ^ 24 + d * 2 ^ 20 = (o * 2 ^ 4 + d) * 2 ^ 20 by omega, or_field (k := 20) (y := f) (by omega)]

end Sys2Proof
end

