-- ==== Sys2Proof/Laws/ScalarArith.lean ====
section
/-! SUPPORT. Scalars: the value of ten limbs and the limbs of a value are inverse to each other, slots read what was written, and
what KRND's loop answers. -/

namespace Sys2Proof.Machine

open Sys2Proof

theorem limbOf_toNat (v j : Nat) : (limbOf v j).toNat = (v >>> (32 * j)) % 2 ^ 32 := by
  simp [limbOf]

theorem shift_succ (v j : Nat) : v >>> (32 * (j + 1)) = v >>> (32 * j) / 2 ^ 32 := by
  rw [Nat.mul_add, Nat.shiftRight_add, Nat.shiftRight_eq_div_pow _ (32 * 1)]

/-- One limb and the rest above it (R8). -/
theorem limb_step (v j : Nat) : (limbOf v j).toNat + 2 ^ 32 * (v >>> (32 * (j + 1))) = v >>> (32 * j) := by
  rw [limbOf_toNat, shift_succ]; omega

set_option exponentiation.threshold 400 in
/-- The limbs of a 320-bit value give it back (R8). -/
theorem val_limbs {v : Nat} (h : v < 2 ^ 320) : (limbs v).val = v := by
  have top : (limbOf v 9).toNat = v >>> (32 * 9) := by
    have := limb_step v 9
    have h1 : v >>> (32 * 10) = 0 := by
      have e : 32 * 10 = 320 := rfl
      rw [Nat.shiftRight_eq_div_pow, e]
      exact Nat.div_eq_of_lt h
    rwa [h1, Nat.mul_zero, Nat.add_zero] at this
  clear h
  have h8 : (limbOf v 8).toNat + 2 ^ 32 * (v >>> (32 * 9)) = v >>> (32 * 8) := limb_step v 8
  have h7 : (limbOf v 7).toNat + 2 ^ 32 * (v >>> (32 * 8)) = v >>> (32 * 7) := limb_step v 7
  have h6 : (limbOf v 6).toNat + 2 ^ 32 * (v >>> (32 * 7)) = v >>> (32 * 6) := limb_step v 6
  have h5 : (limbOf v 5).toNat + 2 ^ 32 * (v >>> (32 * 6)) = v >>> (32 * 5) := limb_step v 5
  have h4 : (limbOf v 4).toNat + 2 ^ 32 * (v >>> (32 * 5)) = v >>> (32 * 4) := limb_step v 4
  have h3 : (limbOf v 3).toNat + 2 ^ 32 * (v >>> (32 * 4)) = v >>> (32 * 3) := limb_step v 3
  have h2 : (limbOf v 2).toNat + 2 ^ 32 * (v >>> (32 * 3)) = v >>> (32 * 2) := limb_step v 2
  have h1 : (limbOf v 1).toNat + 2 ^ 32 * (v >>> (32 * 2)) = v >>> (32 * 1) := limb_step v 1
  have h0 : (limbOf v 0).toNat + 2 ^ 32 * (v >>> (32 * 1)) = v >>> (32 * 0) := limb_step v 0
  simp only [Scalar.val, Scalar.limbList, limbs, limbsValue, Nat.mul_zero, Nat.add_zero]
  rw [Nat.mul_zero, Nat.shiftRight_zero] at h0
  generalize (limbOf v 0).toNat = l0 at *
  generalize (limbOf v 1).toNat = l1 at *
  generalize (limbOf v 2).toNat = l2 at *
  generalize (limbOf v 3).toNat = l3 at *
  generalize (limbOf v 4).toNat = l4 at *
  generalize (limbOf v 5).toNat = l5 at *
  generalize (limbOf v 6).toNat = l6 at *
  generalize (limbOf v 7).toNat = l7 at *
  generalize (limbOf v 8).toNat = l8 at *
  generalize (limbOf v 9).toNat = l9 at *
  generalize v >>> (32 * 1) = q1 at *
  generalize v >>> (32 * 2) = q2 at *
  generalize v >>> (32 * 3) = q3 at *
  generalize v >>> (32 * 4) = q4 at *
  generalize v >>> (32 * 5) = q5 at *
  generalize v >>> (32 * 6) = q6 at *
  generalize v >>> (32 * 7) = q7 at *
  generalize v >>> (32 * 8) = q8 at *
  generalize v >>> (32 * 9) = q9 at *
  rw [top, h8, h7, h6, h5, h4, h3, h2, h1, h0]

theorem horner_lt (l : Limb) {x m : Nat} (h : x < m) : l.toNat + 2 ^ 32 * x < 2 ^ 32 * m := by
  have := l.isLt; omega

set_option exponentiation.threshold 400 in
theorem val_lt (k : Scalar) : k.val < 2 ^ 320 := by
  have h := horner_lt k.l0 (horner_lt k.l1 (horner_lt k.l2 (horner_lt k.l3 (horner_lt k.l4 (horner_lt k.l5 (horner_lt k.l6
    (horner_lt k.l7 (horner_lt k.l8 k.l9.isLt))))))))
  simp only [← pow_add, Nat.reduceAdd] at h
  simpa only [Scalar.val, Scalar.limbList, limbsValue, Nat.mul_zero, Nat.add_zero] using h

set_option exponentiation.threshold 400 in
/-- A scalar fits the ladder's 320 bits (R138). -/
theorem val_lt_ladder (k : Scalar) : k.val < 2 ^ Config.scalarBits := val_lt k

theorem horner_inj {a b : Limb} {x y : Nat} (h : a.toNat + 2 ^ 32 * x = b.toNat + 2 ^ 32 * y) : a = b ∧ x = y := by
  have := a.isLt; have := b.isLt
  exact ⟨BitVec.eq_of_toNat_eq (by omega), by omega⟩

theorem val_injective {a b : Scalar} (h : a.val = b.val) : a = b := by
  obtain ⟨a0, a1, a2, a3, a4, a5, a6, a7, a8, a9⟩ := a
  obtain ⟨b0, b1, b2, b3, b4, b5, b6, b7, b8, b9⟩ := b
  simp only [Scalar.val, Scalar.limbList, limbsValue, Nat.mul_zero, Nat.add_zero] at h
  obtain ⟨e0, h⟩ := horner_inj h
  obtain ⟨e1, h⟩ := horner_inj h
  obtain ⟨e2, h⟩ := horner_inj h
  obtain ⟨e3, h⟩ := horner_inj h
  obtain ⟨e4, h⟩ := horner_inj h
  obtain ⟨e5, h⟩ := horner_inj h
  obtain ⟨e6, h⟩ := horner_inj h
  obtain ⟨e7, h⟩ := horner_inj h
  obtain ⟨e8, h⟩ := horner_inj h
  rw [e0, e1, e2, e3, e4, e5, e6, e7, e8, BitVec.eq_of_toNat_eq h]

theorem limbs_val (k : Scalar) : limbs k.val = k := val_injective (val_limbs (val_lt k))

@[simp] theorem kEq_iff (a b : Scalar) : kEq a b = true ↔ a = b := by
  cases a; cases b
  simp [kEq, and_assoc]

@[simp] theorem limb_setLimb_same (k : Scalar) (j : Fin 10) (v : Limb) : (k.setLimb j v).limb j = v := by
  fin_cases j <;> rfl

theorem limb_setLimb_ne (k : Scalar) (j i : Fin 10) (v : Limb) (h : i ≠ j) : (k.setLimb j v).limb i = k.limb i := by
  fin_cases j <;> fin_cases i <;> first | rfl | exact absurd rfl h

set_option exponentiation.threshold 400 in
theorem groupOrder_bounds : 2 ^ 318 < groupOrder ∧ groupOrder < 2 ^ 319 ∧ 2 * groupOrder < 2 ^ 320 ∧ 2 ^ 320 < 3 * groupOrder := by
  decide

set_option exponentiation.threshold 400 in
theorem candidate_eq (w : RandomWord) : candidate w = w.toNat % 2 ^ 319 := by simp [candidate]

theorem acceptable_iff (w : RandomWord) : acceptable w = true ↔ 0 < candidate w ∧ candidate w < groupOrder := by
  simp [acceptable]

/-- KRND's loop answers the first acceptable candidate: the words before it were not acceptable (R125). -/
theorem drawKey_eq_some_iff (ws : List RandomWord) (c : Nat) (rest : List RandomWord) :
    drawKey ws = some (c, rest) ↔
      ∃ pre w, ws = pre ++ w :: rest ∧ (∀ x ∈ pre, acceptable x = false) ∧ acceptable w = true ∧ c = candidate w := by
  induction ws with
  | nil => simp [drawKey]
  | cons x xs ih =>
    by_cases hx : acceptable x = true
    · simp only [drawKey, hx, if_true, Option.some.injEq, Prod.mk.injEq]
      constructor
      · rintro ⟨rfl, rfl⟩
        exact ⟨[], x, rfl, by simp, hx, rfl⟩
      · rintro ⟨pre, w, h, hpre, -, rfl⟩
        cases pre with
        | nil => simp only [List.nil_append, List.cons.injEq] at h; exact ⟨by rw [h.1], h.2⟩
        | cons p pre =>
          simp only [List.cons_append, List.cons.injEq] at h
          have := hpre p (by simp)
          rw [← h.1, hx] at this
          cases this
    · have hx' : acceptable x = false := by simpa using hx
      simp only [drawKey, hx', Bool.false_eq_true, if_false, ih]
      constructor
      · rintro ⟨pre, w, rfl, hpre, hw, rfl⟩
        exact ⟨x :: pre, w, rfl, by simpa [hx'] using hpre, hw, rfl⟩
      · rintro ⟨pre, w, h, hpre, hw, rfl⟩
        cases pre with
        | nil =>
          simp only [List.nil_append, List.cons.injEq] at h
          rw [← h.1, hx'] at hw; cases hw
        | cons p pre =>
          simp only [List.cons_append, List.cons.injEq] at h
          exact ⟨pre, w, h.2, fun y hy => hpre y (by simp [hy]), hw, rfl⟩

/-- KRND's loop answers nothing exactly when no word is acceptable (R125, R221). -/
theorem drawKey_eq_none_iff (ws : List RandomWord) : drawKey ws = none ↔ ∀ w ∈ ws, acceptable w = false := by
  induction ws with
  | nil => simp [drawKey]
  | cons x xs ih =>
    by_cases hx : acceptable x = true
    · simp [drawKey, hx]
    · have hx' : acceptable x = false := by simpa using hx
      simp [drawKey, hx', ih]

end Sys2Proof.Machine
end

