-- ==== Sys2Proof/Laws/Ops.lean ====
section
/-! SUPPORT. What each shared operation can do, said once: completing, faulting, refusing and waiting; the legality of the registers
after each write; and what one command can answer. -/

namespace Sys2Proof.Machine

open Sys2Proof

/-! ### Running and being refused -/

theorem live_of_not_fault {s : State} (h : s.fault = false) (act : State) : live s act = .next act := by simp [live, h]

theorem live_of_fault {s : State} (h : s.fault = true) (act : State) : live s act = .next s.refuse := by simp [live, h]

/-! ### Completing: the response, and what stays -/

section Frames

variable (s : State) (w : Word)

theorem done_complete : Done s (s.complete w) w := ⟨rfl, rfl, rfl, rfl, rfl, rfl, rfl, rfl⟩

theorem done_setB (rd : RegNum) (v : Word) : Done s ((s.setB rd v).complete w) w := ⟨rfl, rfl, rfl, rfl, rfl, rfl, rfl, rfl⟩

theorem done_setE (rd : RegNum) (v : Ext5) : Done s ((s.setE rd v).complete w) w := ⟨rfl, rfl, rfl, rfl, rfl, rfl, rfl, rfl⟩

theorem done_setK (rd : RegNum) (v : Scalar) : Done s ((s.setK rd v).complete w) w := ⟨rfl, rfl, rfl, rfl, rfl, rfl, rfl, rfl⟩

theorem done_setP (rd : RegNum) (v : Point) : Done s ((s.setP rd v).complete w) w := ⟨rfl, rfl, rfl, rfl, rfl, rfl, rfl, rfl⟩

theorem done_setPP (rd ra : RegNum) (u v : Point) : Done s (((s.setP rd u).setP ra v).complete w) w :=
  ⟨rfl, rfl, rfl, rfl, rfl, rfl, rfl, rfl⟩

theorem done_draw (rd : RegNum) (v : Scalar) (ws : List RandomWord) : Done s (((s.setRnd ws).setK rd v).complete w) w :=
  ⟨rfl, rfl, rfl, rfl, rfl, rfl, rfl, rfl⟩

theorem done_compare (b : Bool) : Done s (s.compare b) (flagWord b) := ⟨rfl, rfl, rfl, rfl, rfl, rfl, rfl, rfl⟩

theorem sameRegisters_complete : SameRegisters s (s.complete w) := ⟨fun _ => rfl, fun _ => rfl, fun _ => rfl, fun _ => rfl, rfl, rfl⟩

theorem sameRegisters_refuse : SameRegisters s s.refuse := ⟨fun _ => rfl, fun _ => rfl, fun _ => rfl, fun _ => rfl, rfl, rfl⟩

theorem onlyB_setB (rd : RegNum) (v : Word) : OnlyB rd s ((s.setB rd v).complete w) :=
  ⟨fun r h => s.getB_setB_ne rd r v h, fun _ => rfl, fun _ => rfl, fun _ => rfl, rfl, rfl⟩

theorem onlyE_setE (rd : RegNum) (v : Ext5) : OnlyE rd s ((s.setE rd v).complete w) :=
  ⟨fun _ => rfl, fun r h => s.getE_setE_ne rd r v h, fun _ => rfl, fun _ => rfl, rfl, rfl⟩

theorem onlyK_setK (rd : RegNum) (v : Scalar) : OnlyK rd s ((s.setK rd v).complete w) :=
  ⟨⟨fun _ => rfl, fun _ => rfl, fun r h => s.getK_setK_ne rd r v h, fun _ => rfl, rfl⟩, rfl⟩

theorem onlyKOrRnd_draw (rd : RegNum) (v : Scalar) (ws : List RandomWord) :
    OnlyKOrRnd rd s (((s.setRnd ws).setK rd v).complete w) :=
  ⟨fun _ => rfl, fun _ => rfl, fun r h => (s.setRnd ws).getK_setK_ne rd r v h, fun _ => rfl, rfl⟩

theorem onlyP_setP (rd : RegNum) (v : Point) : OnlyP rd s ((s.setP rd v).complete w) :=
  ⟨fun _ => rfl, fun _ => rfl, fun _ => rfl, fun r h => s.getP_setP_ne rd r v h, rfl, rfl⟩

theorem onlyPP_setPP (rd ra : RegNum) (u v : Point) : OnlyPP rd ra s (((s.setP rd u).setP ra v).complete w) :=
  ⟨fun _ => rfl, fun _ => rfl, fun _ => rfl,
    fun r h h' => ((s.setP rd u).getP_setP_ne ra r v h').trans (s.getP_setP_ne rd r u h), rfl, rfl⟩

theorem onlyT_compare (b : Bool) : OnlyT s (s.compare b) := ⟨fun _ => rfl, fun _ => rfl, fun _ => rfl, fun _ => rfl, rfl⟩

theorem faultEntered_takeFault (c : FaultCode) : FaultEntered s (s.takeFault c) c.code :=
  ⟨⟨fun _ => rfl, fun _ => rfl, fun _ => rfl, fun _ => rfl, rfl, rfl⟩, rfl, rfl, rfl, rfl, rfl, rfl, rfl, rfl, rfl⟩

end Frames

@[simp] theorem compare_t (s : State) (b : Bool) : (s.compare b).t = b := rfl
@[simp] theorem compare_fault (s : State) (b : Bool) : (s.compare b).fault = s.fault := rfl
@[simp] theorem compare_rsp (s : State) (b : Bool) : (s.compare b).rsp = some ⟨0, flagWord b⟩ := rfl
@[simp] theorem flagWord_toNat (b : Bool) : (flagWord b).toNat = b.toNat := by cases b <;> rfl

/-! ### The legality of the registers (R31) -/

theorem State.RegistersLegal.of_words {s : State} (hb : ∀ i, Canonical (s.getB i)) (he : ∀ i, CanonicalExt (s.getE i))
    (hp : ∀ i, CanonicalPoint (s.getP i)) : s.RegistersLegal :=
  ⟨hb, he, hp, fun i j => ((s.getK i).limb j).isLt, fun i => by cases (s.getP i).inf <;> decide⟩

section Legal

variable {s : State} (h : s.RegistersLegal)

include h

theorem State.RegistersLegal.setB {v : Word} (hv : Canonical v) (i : RegNum) : (s.setB i v).RegistersLegal :=
  .of_words (fun j => by rw [State.getB_setB]; split; exacts [hv, h.1 j]) h.2.1 h.2.2.1

theorem State.RegistersLegal.setE {v : Ext5} (hv : CanonicalExt v) (i : RegNum) : (s.setE i v).RegistersLegal :=
  .of_words h.1 (fun j => by rw [State.getE_setE]; split; exacts [hv, h.2.1 j]) h.2.2.1

theorem State.RegistersLegal.setK (v : Scalar) (i : RegNum) : (s.setK i v).RegistersLegal :=
  .of_words h.1 h.2.1 h.2.2.1

theorem State.RegistersLegal.setP {v : Point} (hv : CanonicalPoint v) (i : RegNum) : (s.setP i v).RegistersLegal :=
  .of_words h.1 h.2.1 (fun j => by rw [State.getP_setP]; split; exacts [hv, h.2.2.1 j])

theorem State.RegistersLegal.setT (v : Bool) : (s.setT v).RegistersLegal := .of_words h.1 h.2.1 h.2.2.1

theorem State.RegistersLegal.setRnd (ws : List RandomWord) : (s.setRnd ws).RegistersLegal := .of_words h.1 h.2.1 h.2.2.1

theorem State.RegistersLegal.complete (w : Word) : (s.complete w).RegistersLegal := .of_words h.1 h.2.1 h.2.2.1

theorem State.RegistersLegal.takeFault (c : FaultCode) : (s.takeFault c).RegistersLegal := .of_words h.1 h.2.1 h.2.2.1

theorem State.RegistersLegal.refuse : s.refuse.RegistersLegal := .of_words h.1 h.2.1 h.2.2.1

theorem State.RegistersLegal.awaitRandom : s.awaitRandom.RegistersLegal := .of_words h.1 h.2.1 h.2.2.1

theorem State.RegistersLegal.take (c : CommandWord) (w : Word) (l : List HostEvent) : (s.take c w l).RegistersLegal :=
  .of_words h.1 h.2.1 h.2.2.1

end Legal

theorem registersLegal_afterReset (l : List HostEvent) (ws : List RandomWord) : (State.afterReset l ws).RegistersLegal :=
  .of_words (fun i => by rw [State.getB_afterReset]; exact canonical_zero)
    (fun i => by rw [State.getE_afterReset]; exact canonicalExt_zero)
    (fun i => by rw [State.getP_afterReset]; exact canonicalPoint_inf0)

/-! ### What one command can answer -/

/-- The writes of a command that completes: from `s` to the registers, T and random words of `u`, with everything else as it was,
and with legal registers where `s` had them. -/
def Writes (s u : State) : Prop :=
  u.fault = s.fault ∧ u.cause = s.cause ∧ u.fcmd = s.fcmd ∧ u.cmd = s.cmd ∧ u.wdata = s.wdata ∧ u.host = s.host ∧
  (s.RegistersLegal → u.RegistersLegal)

section Writes

variable (s : State)

theorem writes_none : Writes s s := ⟨rfl, rfl, rfl, rfl, rfl, rfl, id⟩
theorem writes_setB (i : RegNum) {v : Word} (hv : s.RegistersLegal → Canonical v) : Writes s (s.setB i v) :=
  ⟨rfl, rfl, rfl, rfl, rfl, rfl, fun h => h.setB (hv h) i⟩
theorem writes_setE (i : RegNum) {v : Ext5} (hv : s.RegistersLegal → CanonicalExt v) : Writes s (s.setE i v) :=
  ⟨rfl, rfl, rfl, rfl, rfl, rfl, fun h => h.setE (hv h) i⟩
theorem writes_setK (i : RegNum) (v : Scalar) : Writes s (s.setK i v) := ⟨rfl, rfl, rfl, rfl, rfl, rfl, fun h => h.setK v i⟩
theorem writes_draw (i : RegNum) (v : Scalar) (ws : List RandomWord) : Writes s ((s.setRnd ws).setK i v) :=
  ⟨rfl, rfl, rfl, rfl, rfl, rfl, fun h => (h.setRnd ws).setK v i⟩
theorem writes_setP (i : RegNum) {v : Point} (hv : s.RegistersLegal → CanonicalPoint v) : Writes s (s.setP i v) :=
  ⟨rfl, rfl, rfl, rfl, rfl, rfl, fun h => h.setP (hv h) i⟩
theorem writes_setPP (i j : RegNum) {u v : Point} (hv : s.RegistersLegal → CanonicalPoint u ∧ CanonicalPoint v) :
    Writes s ((s.setP i u).setP j v) :=
  ⟨rfl, rfl, rfl, rfl, rfl, rfl, fun h => (h.setP (hv h).1 i).setP (hv h).2 j⟩
theorem writes_setT (v : Bool) : Writes s (s.setT v) := ⟨rfl, rfl, rfl, rfl, rfl, rfl, fun h => h.setT v⟩

end Writes

/-- The four ways a command that runs can end. -/
inductive Ends (i : Instr) (s : State) : State → Prop where
  | completes (u : State) (w : Word) (h : Writes s u) : Ends i s (u.complete w)
  | faults (c : FaultCode) : Ends i s (s.takeFault c)
  | waits (rd : RegNum) (hi : i = .krnd rd) (h : drawKey s.rnd = none) : Ends i s s.awaitRandom

/-- Every command answers a next state. While FAULT = 1, RDSR completes and every other command is refused (R197). While FAULT = 0
a command completes, takes a fault, or is a KRND that waits for the random source (R42, R196, R221). -/
theorem exec_cases (i : Instr) (s : State) :
    (∃ slot, i = .rdsr slot ∧ exec i s = .next (s.complete (s.statusRead slot))) ∨
    (s.fault = true ∧ (∀ slot, i ≠ .rdsr slot) ∧ exec i s = .next s.refuse) ∨
    (s.fault = false ∧ (∀ slot, i ≠ .rdsr slot) ∧ ∃ t, exec i s = .next t ∧ Ends i s t) := by
  have lift : ∀ (act : State), (∀ slot, i ≠ .rdsr slot) → exec i s = live s act → Ends i s act →
      (∃ slot, i = .rdsr slot ∧ exec i s = .next (s.complete (s.statusRead slot))) ∨
      (s.fault = true ∧ (∀ slot, i ≠ .rdsr slot) ∧ exec i s = .next s.refuse) ∨
      (s.fault = false ∧ (∀ slot, i ≠ .rdsr slot) ∧ ∃ t, exec i s = .next t ∧ Ends i s t) := by
    intro act hn he ha
    cases hf : s.fault with
    | true => exact .inr (.inl ⟨rfl, hn, by rw [he, live_of_fault hf]⟩)
    | false => exact .inr (.inr ⟨rfl, hn, act, by rw [he, live_of_not_fault hf], ha⟩)
  cases i with
  | rdsr slot => exact .inl ⟨slot, rfl, rfl⟩
  | badd | bsub | bmul | bneg =>
    exact lift _ (fun _ => by nofun) rfl (.completes _ _ (writes_setB s _ fun _ => by
      first | exact canonical_redNat _ | exact canonical_redInt _))
  | bmov rd ra => exact lift _ (fun _ => by nofun) rfl (.completes _ _ (writes_setB s _ fun h => h.1 ra))
  | wrb => exact lift _ (fun _ => by nofun) rfl (.completes _ _ (writes_setB s _ fun _ => canonical_fromInt64 _))
  | binv rd ra =>
    refine lift _ (fun _ => by nofun) rfl ?_
    split
    · exact .faults _
    · exact .completes _ _ (writes_setB s _ fun _ => canonical_invP _)
  | bdiv rd ra rb =>
    refine lift _ (fun _ => by nofun) rfl ?_
    split
    · exact .faults _
    · exact .completes _ _ (writes_setB s _ fun _ => canonical_mulP _ _)
  | beq | eeq | keq | peq => exact lift _ (fun _ => by nofun) rfl (.completes _ _ (writes_setT s _))
  | eadd => exact lift _ (fun _ => by nofun) rfl (.completes _ _ (writes_setE s _ fun _ => canonicalExt_eAdd _ _))
  | esub => exact lift _ (fun _ => by nofun) rfl (.completes _ _ (writes_setE s _ fun _ => canonicalExt_eSub _ _))
  | emul => exact lift _ (fun _ => by nofun) rfl (.completes _ _ (writes_setE s _ fun _ => canonicalExt_eMul _ _))
  | esqr => exact lift _ (fun _ => by nofun) rfl (.completes _ _ (writes_setE s _ fun _ => canonicalExt_eSqr _))
  | eneg => exact lift _ (fun _ => by nofun) rfl (.completes _ _ (writes_setE s _ fun _ => canonicalExt_eNeg _))
  | einv rd ra =>
    refine lift _ (fun _ => by nofun) rfl ?_
    split
    · exact .faults _
    · exact .completes _ _ (writes_setE s _ fun _ => canonicalExt_eInv _)
  | emov rd ra => exact lift _ (fun _ => by nofun) rfl (.completes _ _ (writes_setE s _ fun h => h.2.1 ra))
  | efromb rd ra =>
    exact lift _ (fun _ => by nofun) rfl (.completes _ _ (writes_setE s _ fun h => canonicalExt_eFrom (h.1 ra)))
  | emuli => exact lift _ (fun _ => by nofun) rfl (.completes _ _ (writes_setE s _ fun _ => canonicalExt_eMuli _ _))
  | wre r slot =>
    exact lift _ (fun _ => by nofun) rfl (.completes _ _ (writes_setE s _ fun h =>
      canonicalExt_setCoeff (h.2.1 r) (canonical_fromInt64 _) slot))
  | kred | kmov => exact lift _ (fun _ => by nofun) rfl (.completes _ _ (writes_setK s _ _))
  | krnd rd =>
    refine lift _ (fun _ => by nofun) rfl ?_
    split
    · exact .completes _ _ (writes_draw s _ _ _)
    · exact .waits rd rfl (by assumption)
  | wrk r slot =>
    refine lift _ (fun _ => by nofun) rfl ?_
    split
    · exact .completes _ _ (writes_setK s _ _)
    · exact .faults _
  | padd rd ra rb =>
    refine lift _ (fun _ => by nofun) rfl ?_
    split
    · rename_i R hR
      exact .completes _ _ (writes_setP s _ fun h => canonicalPoint_ptAdd (h.2.2.1 ra) (h.2.2.1 rb) hR)
    · exact .faults _
  | pdbl rd ra =>
    refine lift _ (fun _ => by nofun) rfl ?_
    split
    · rename_i R hR
      exact .completes _ _ (writes_setP s _ fun h => canonicalPoint_ptAdd (h.2.2.1 ra) (h.2.2.1 ra) hR)
    · exact .faults _
  | pneg rd ra => exact lift _ (fun _ => by nofun) rfl (.completes _ _ (writes_setP s _ fun h => canonicalPoint_ptNeg (h.2.2.1 ra)))
  | pmul rd ra rb =>
    refine lift _ (fun _ => by nofun) rfl ?_
    split
    · rename_i R hR
      exact .completes _ _ (writes_setP s _ fun h => canonicalPoint_ptMul (h.2.2.1 ra) hR)
    · exact .faults _
  | pchk ra =>
    refine lift _ (fun _ => by nofun) rfl ?_
    split
    · exact .completes _ _ (writes_setT s _)
    · exact .faults _
  | pgen => exact lift _ (fun _ => by nofun) rfl (.completes _ _ (writes_setP s _ fun _ => canonicalPoint_generator))
  | pmov rd ra => exact lift _ (fun _ => by nofun) rfl (.completes _ _ (writes_setP s _ fun h => h.2.2.1 ra))
  | gpub rd ra =>
    refine lift _ (fun _ => by nofun) rfl ?_
    split
    · rename_i R hR
      exact .completes _ _ (writes_setP s _ fun h => canonicalPoint_ptMul canonicalPoint_generator hR)
    · exact .faults _
  | genc rd ra rb rc re =>
    refine lift _ (fun _ => by nofun) rfl ?_
    split
    · exact .faults _
    split
    · rename_i A B hR
      exact .completes _ _ (writes_setPP s _ _ fun h => canonicalPoint_encrypt (h.2.2.1 rb) (h.2.2.1 rc) hR)
    · exact .faults _
  | grmk rd ra rb rc re rf =>
    refine lift _ (fun _ => by nofun) rfl ?_
    split
    · exact .faults _
    split
    · rename_i A B hR
      exact .completes _ _ (writes_setPP s _ _ fun h => canonicalPoint_remask (h.2.2.1 rb) (h.2.2.1 rc) (h.2.2.1 re) hR)
    · exact .faults _
  | gdec rd ra rb rc =>
    refine lift _ (fun _ => by nofun) rfl ?_
    split
    · rename_i R hR
      exact .completes _ _ (writes_setP s _ fun h => canonicalPoint_decrypt (h.2.2.1 rb) (h.2.2.1 rc) hR)
    · exact .faults _
  | wrp r slot =>
    refine lift _ (fun _ => by nofun) rfl ?_
    split
    · exact .completes _ _ (writes_setP s _ fun h => canonicalPoint_setSlot (h.2.2.1 r) slot _)
    · exact .faults _
  | rdb | rde | rdk | rdp => exact lift _ (fun _ => by nofun) rfl (.completes _ _ (writes_none s))

/-- A step that takes a command runs it in the state that has taken it (R41). -/
theorem step_command {s : State} {cmd : CommandWord} {wdata : Word} {rest : List HostEvent} (hb : s.busy = false)
    (hh : s.host = .command cmd wdata :: rest) : step s = (s.take cmd wdata rest).runCommand := by
  simp [step, State.hostStep, hb, hh]

/-- What running the command on the port can give: one instruction's answer, IllegalCommand, or a refusal (R194, R197). -/
theorem runCommand_cases (s : State) :
    (∃ i, decode s.cmd = some i ∧ s.runCommand = exec i s) ∨
    (decode s.cmd = none ∧ s.fault = false ∧ s.runCommand = .next (s.takeFault .illegalCommand)) ∨
    (decode s.cmd = none ∧ s.fault = true ∧ s.runCommand = .next s.refuse) := by
  unfold State.runCommand
  cases hd : decode s.cmd with
  | some i => exact .inl ⟨i, rfl, rfl⟩
  | none =>
    cases hf : s.fault with
    | true => exact .inr (.inr ⟨rfl, rfl, live_of_fault hf _⟩)
    | false => exact .inr (.inl ⟨rfl, rfl, live_of_not_fault hf _⟩)

end Sys2Proof.Machine
end

