-- ==== Sys2Proof/Laws/PerInstr.lean ====
section
/-! SUPPORT. The opcode byte of every instruction's word is the one R64 gives its row, one lemma per constructor. -/

namespace Sys2Proof.Laws.OpcodeByte

open Sys2Proof

/-- Bits 31:24 of the instruction's word are its opcode (R60, R64). -/
def Statement (i : Instr) : Prop := bits (encode i) 24 8 = i.opcode

theorem badd (rd : RegNum) (ra : RegNum) (rb : RegNum) : Statement (.badd rd ra rb) := (formatR_fields _ _ _ _ _ _ _ (by decide)).1
theorem bsub (rd : RegNum) (ra : RegNum) (rb : RegNum) : Statement (.bsub rd ra rb) := (formatR_fields _ _ _ _ _ _ _ (by decide)).1
theorem bmul (rd : RegNum) (ra : RegNum) (rb : RegNum) : Statement (.bmul rd ra rb) := (formatR_fields _ _ _ _ _ _ _ (by decide)).1
theorem bneg (rd : RegNum) (ra : RegNum) : Statement (.bneg rd ra) := (formatR_fields _ _ _ _ _ _ _ (by decide)).1
theorem binv (rd : RegNum) (ra : RegNum) : Statement (.binv rd ra) := (formatR_fields _ _ _ _ _ _ _ (by decide)).1
theorem bdiv (rd : RegNum) (ra : RegNum) (rb : RegNum) : Statement (.bdiv rd ra rb) := (formatR_fields _ _ _ _ _ _ _ (by decide)).1
theorem beq (ra : RegNum) (rb : RegNum) : Statement (.beq ra rb) := (formatR_fields _ _ _ _ _ _ _ (by decide)).1
theorem bmov (rd : RegNum) (ra : RegNum) : Statement (.bmov rd ra) := (formatR_fields _ _ _ _ _ _ _ (by decide)).1
theorem eadd (rd : RegNum) (ra : RegNum) (rb : RegNum) : Statement (.eadd rd ra rb) := (formatR_fields _ _ _ _ _ _ _ (by decide)).1
theorem esub (rd : RegNum) (ra : RegNum) (rb : RegNum) : Statement (.esub rd ra rb) := (formatR_fields _ _ _ _ _ _ _ (by decide)).1
theorem emul (rd : RegNum) (ra : RegNum) (rb : RegNum) : Statement (.emul rd ra rb) := (formatR_fields _ _ _ _ _ _ _ (by decide)).1
theorem esqr (rd : RegNum) (ra : RegNum) : Statement (.esqr rd ra) := (formatR_fields _ _ _ _ _ _ _ (by decide)).1
theorem eneg (rd : RegNum) (ra : RegNum) : Statement (.eneg rd ra) := (formatR_fields _ _ _ _ _ _ _ (by decide)).1
theorem einv (rd : RegNum) (ra : RegNum) : Statement (.einv rd ra) := (formatR_fields _ _ _ _ _ _ _ (by decide)).1
theorem eeq (ra : RegNum) (rb : RegNum) : Statement (.eeq ra rb) := (formatR_fields _ _ _ _ _ _ _ (by decide)).1
theorem emov (rd : RegNum) (ra : RegNum) : Statement (.emov rd ra) := (formatR_fields _ _ _ _ _ _ _ (by decide)).1
theorem efromb (rd : RegNum) (ra : RegNum) : Statement (.efromb rd ra) := (formatR_fields _ _ _ _ _ _ _ (by decide)).1
theorem emuli (rd : RegNum) (ra : RegNum) (imm8 : BitVec 8) : Statement (.emuli rd ra imm8) := (formatI_fields _ _ _ _ (by decide)).1
theorem kred (rd : RegNum) (ra : RegNum) : Statement (.kred rd ra) := (formatR_fields _ _ _ _ _ _ _ (by decide)).1
theorem keq (ra : RegNum) (rb : RegNum) : Statement (.keq ra rb) := (formatR_fields _ _ _ _ _ _ _ (by decide)).1
theorem krnd (rd : RegNum) : Statement (.krnd rd) := (formatR_fields _ _ _ _ _ _ _ (by decide)).1
theorem kmov (rd : RegNum) (ra : RegNum) : Statement (.kmov rd ra) := (formatR_fields _ _ _ _ _ _ _ (by decide)).1
theorem padd (rd : RegNum) (ra : RegNum) (rb : RegNum) : Statement (.padd rd ra rb) := (formatR_fields _ _ _ _ _ _ _ (by decide)).1
theorem pdbl (rd : RegNum) (ra : RegNum) : Statement (.pdbl rd ra) := (formatR_fields _ _ _ _ _ _ _ (by decide)).1
theorem pneg (rd : RegNum) (ra : RegNum) : Statement (.pneg rd ra) := (formatR_fields _ _ _ _ _ _ _ (by decide)).1
theorem peq (ra : RegNum) (rb : RegNum) : Statement (.peq ra rb) := (formatR_fields _ _ _ _ _ _ _ (by decide)).1
theorem pmul (rd : RegNum) (ra : RegNum) (rb : RegNum) : Statement (.pmul rd ra rb) := (formatR_fields _ _ _ _ _ _ _ (by decide)).1
theorem pchk (ra : RegNum) : Statement (.pchk ra) := (formatR_fields _ _ _ _ _ _ _ (by decide)).1
theorem pgen (rd : RegNum) : Statement (.pgen rd) := (formatR_fields _ _ _ _ _ _ _ (by decide)).1
theorem pmov (rd : RegNum) (ra : RegNum) : Statement (.pmov rd ra) := (formatR_fields _ _ _ _ _ _ _ (by decide)).1
theorem gpub (rd : RegNum) (ra : RegNum) : Statement (.gpub rd ra) := (formatR_fields _ _ _ _ _ _ _ (by decide)).1
theorem genc (rd : RegNum) (ra : RegNum) (rb : RegNum) (rc : RegNum) (re : RegNum) : Statement (.genc rd ra rb rc re) := (formatR_fields _ _ _ _ _ _ _ (by decide)).1
theorem grmk (rd : RegNum) (ra : RegNum) (rb : RegNum) (rc : RegNum) (re : RegNum) (rf : RegNum) : Statement (.grmk rd ra rb rc re rf) := (formatR_fields _ _ _ _ _ _ _ (by decide)).1
theorem gdec (rd : RegNum) (ra : RegNum) (rb : RegNum) (rc : RegNum) : Statement (.gdec rd ra rb rc) := (formatR_fields _ _ _ _ _ _ _ (by decide)).1
theorem wrb (r : RegNum) : Statement (.wrb r) := (formatX_fields _ _ _ (by decide) (by decide)).1
theorem rdb (r : RegNum) : Statement (.rdb r) := (formatX_fields _ _ _ (by decide) (by decide)).1
theorem wre (r : RegNum) (slot : Fin 5) : Statement (.wre r slot) := (formatX_fields _ _ _ (by decide) (by omega)).1
theorem rde (r : RegNum) (slot : Fin 5) : Statement (.rde r slot) := (formatX_fields _ _ _ (by decide) (by omega)).1
theorem wrk (r : RegNum) (slot : Fin 10) : Statement (.wrk r slot) := (formatX_fields _ _ _ (by decide) (by omega)).1
theorem rdk (r : RegNum) (slot : Fin 10) : Statement (.rdk r slot) := (formatX_fields _ _ _ (by decide) (by omega)).1
theorem wrp (r : RegNum) (slot : Fin 11) : Statement (.wrp r slot) := (formatX_fields _ _ _ (by decide) (by omega)).1
theorem rdp (r : RegNum) (slot : Fin 11) : Statement (.rdp r slot) := (formatX_fields _ _ _ (by decide) (by omega)).1
theorem rdsr (slot : Fin 2) : Statement (.rdsr slot) := (formatX_fields _ _ _ (by decide) (by omega)).1

end Sys2Proof.Laws.OpcodeByte
end

