-- ==== Sys2Proof/Tests/Slice0.lean ====
section
/-! SUPPORT. Tests: the words and vectors the spec prints (30_encoding.md to 46_transfer_system.md, 95_test_vectors.md), the refusals of
the well-formedness check, and a witness for the hypotheses of every statement. -/

namespace Sys2Proof.Tests

open Sys2Proof Sys2Proof.Machine

-- The checks of this file follow one another.
set_option Elab.async false

/-! ### Well-formedness -/

/-- The one check, once for each instruction that has it: two results never go into one register (R66 d). -/
theorem test_wellFormed_refuses : (Instr.genc 4 4 1 2 1).wellFormed = false ∧ (Instr.grmk 6 6 4 5 1 2).wellFormed = false := by decide

theorem test_wellFormed_accepts : (Instr.genc 4 5 1 2 1).wellFormed = true ∧ (Instr.grmk 4 5 4 5 1 2).wellFormed = true := by decide

/-! ### Decoding: 95_test_vectors.md V8, one word of every command -/

theorem test_decode_base :
    decode 0x10123000#32 = some (.badd 1 2 3) ∧
    decode 0x11123000#32 = some (.bsub 1 2 3) ∧
    decode 0x12123000#32 = some (.bmul 1 2 3) ∧
    decode 0x13120000#32 = some (.bneg 1 2) ∧
    decode 0x14120000#32 = some (.binv 1 2) ∧
    decode 0x15123000#32 = some (.bdiv 1 2 3) ∧
    decode 0x16023000#32 = some (.beq 2 3) ∧
    decode 0x17120000#32 = some (.bmov 1 2) := by decide

theorem test_decode_ext :
    decode 0x20123000#32 = some (.eadd 1 2 3) ∧
    decode 0x21123000#32 = some (.esub 1 2 3) ∧
    decode 0x22123000#32 = some (.emul 1 2 3) ∧
    decode 0x23120000#32 = some (.esqr 1 2) ∧
    decode 0x24120000#32 = some (.eneg 1 2) ∧
    decode 0x25120000#32 = some (.einv 1 2) ∧
    decode 0x26023000#32 = some (.eeq 2 3) ∧
    decode 0x27120000#32 = some (.emov 1 2) ∧
    decode 0x28120000#32 = some (.efromb 1 2) ∧
    decode 0x291200C8#32 = some (.emuli 1 2 200) := by decide

theorem test_decode_scalar :
    decode 0x30120000#32 = some (.kred 1 2) ∧
    decode 0x31023000#32 = some (.keq 2 3) ∧
    decode 0x32100000#32 = some (.krnd 1) ∧
    decode 0x33120000#32 = some (.kmov 1 2) := by decide

theorem test_decode_group :
    decode 0x40123000#32 = some (.padd 1 2 3) ∧
    decode 0x41120000#32 = some (.pdbl 1 2) ∧
    decode 0x42120000#32 = some (.pneg 1 2) ∧
    decode 0x43023000#32 = some (.peq 2 3) ∧
    decode 0x44123000#32 = some (.pmul 1 2 3) ∧
    decode 0x45020000#32 = some (.pchk 2) ∧
    decode 0x46100000#32 = some (.pgen 1) ∧
    decode 0x47120000#32 = some (.pmov 1 2) := by decide

theorem test_decode_elgamal :
    decode 0x50120000#32 = some (.gpub 1 2) ∧
    decode 0x51123450#32 = some (.genc 1 2 3 4 5) ∧
    decode 0x52123456#32 = some (.grmk 1 2 3 4 5 6) ∧
    decode 0x53123400#32 = some (.gdec 1 2 3 4) := by decide

theorem test_decode_transfer :
    decode 0x60700000#32 = some (.wrb 7) ∧
    decode 0x61700000#32 = some (.rdb 7) ∧
    decode 0x62700004#32 = some (.wre 7 4) ∧
    decode 0x63700004#32 = some (.rde 7 4) ∧
    decode 0x64700009#32 = some (.wrk 7 9) ∧
    decode 0x65700009#32 = some (.rdk 7 9) ∧
    decode 0x6670000A#32 = some (.wrp 7 10) ∧
    decode 0x6770000A#32 = some (.rdp 7 10) ∧
    decode 0x68000001#32 = some (.rdsr 1) := by decide

/-- Illegal words: opcodes 00, 18 and FF, a reserved field, slots one above the window, rd = ra (R66). -/
theorem test_decode_illegal :
    decode 0x00000000#32 = none ∧ decode 0x18000000#32 = none ∧ decode 0xFFFFFFFF#32 = none ∧ decode 0x10312001#32 = none ∧
    decode 0x60100001#32 = none ∧ decode 0x62000005#32 = none ∧ decode 0x6400000A#32 = none ∧ decode 0x6600000B#32 = none ∧
    decode 0x68000002#32 = none ∧ decode 0x68100000#32 = none ∧ decode 0x51441210#32 = none := by decide

/-- R69's own example of syntax. -/
theorem test_asm : (Instr.grmk 6 7 4 5 1 4).asm = "GRMK P6, P7, P4, P5, P1, K4" ∧ (Instr.rdp 3 10).asm = "RDP P3[10]" := by decide +kernel

/-- R70: KEYGEN is KRND and then GPUB; PINF writes 1 into slot 10. -/
theorem test_pseudo : hostEvents (Pseudo.keygen 2 5).expand = [.command 0x32200000 0, .command 0x50520000 0] ∧
    hostEvents (Pseudo.pinf 1).expand = [.command 0x6610000A 1] := by decide

/-! ### Single steps -/

/-- The state after the host has presented one command. -/
def run (s : State) (cmd : CommandWord) (wdata : Word := 0) : State :=
  match step { s with host := [.command cmd wdata] } with
  | .next t => t
  | _ => State.reset

/-- n (R120), limb 0 first. -/
def nLimbs : Scalar :=
  ⟨2492202977, 3893352854, 3609501852, 3901250617, 3484943929, 2147483622, 22, 2147483633, 2147483655, 2147483645⟩

theorem test_groupOrder : nLimbs.val = groupOrder := by decide

/-- 2G (R142) -/
def point2G : Point :=
  ⟨⟨17293822565076172804, 8070450530368880624, 0, 0, 0⟩,
   ⟨2802119724609112643, 15148449414430609716, 8946200504603803264, 5543440903273420636, 6411036242926574856⟩, false⟩

/-- 3G (R145) -/
def point3G : Point :=
  ⟨⟨4546139357324501584, 1393728687664685160, 15208040286522119521, 7903224051455420834, 12463930627278381774⟩,
   ⟨12080962605282185806, 8232969628916148632, 12430994427457734074, 13391398763165102430, 121243572736949421⟩, false⟩

/-- The negation of G (R143) -/
def pointNegG : Point :=
  ⟨⟨12883135586176881569, 4356519642755055268, 5248930565894896907, 2165973894480315022, 2448410071095648785⟩,
   ⟨3807689863536226687, 1020665498394363249, 15897765875249581014, 9782848491493324233, 8653103785031989181⟩, false⟩

/-- (G.x, G.y + ONE5, 0), off the curve (R146) -/
def offG : Point :=
  ⟨⟨12883135586176881569, 4356519642755055268, 5248930565894896907, 2165973894480315022, 2448410071095648785⟩,
   ⟨14639054205878357635, 17426078571020221072, 2548978194165003307, 8663895577921260088, 9793640284382595140⟩, false⟩

/-- N, the point of order 2 (R139 b). -/
def pointN : Point := ⟨Ext5.zero, Ext5.zero, false⟩

/-- An infinite point that stores coordinates (95_test_vectors.md, J). -/
def pointJ : Point := ⟨⟨1, 2, 3, 4, 5⟩, ⟨6, 7, 8, 9, 10⟩, true⟩

/-- The public key of S5 -/
def pk : Point :=
  ⟨⟨727809928977338759, 9665065939242531985, 10679127231957607574, 13979332362060554178, 7149830714768265881⟩,
   ⟨11118370416008520369, 11313574819439835612, 9953298914084035834, 9046639911435712681, 13949237440016862589⟩, false⟩

/-- M of S6 -/
def plain : Point :=
  ⟨⟨1726043114905348755, 1639826910207959204, 13572834749261061555, 17787479523920969772, 2283288657772236461⟩,
   ⟨17468715570658889758, 5844167153823772334, 16358390224707150503, 8161529868746302941, 16452237268909402150⟩, false⟩

/-- Ca of S6 -/
def cipherA : Point :=
  ⟨⟨7804038241877460166, 6183290872726262930, 15057908986931961365, 10654898320704111134, 17944507222399721565⟩,
   ⟨2149565554154434055, 2004176846961192952, 271146655926435535, 4734626493492592919, 16348498266383656067⟩, false⟩

/-- R84: p − 1 + 1 wraps to 0. -/
theorem test_badd : (run ((State.reset.setB 1 18446744069414584320).setB 2 1) 0x10312000).getB 3 = 0 := by decide +kernel

/-- R84: `BADD B1, B1, B1` doubles B1. -/
theorem test_badd_same : (run (State.reset.setB 1 21) 0x10111000).getB 1 = 42 := by decide +kernel

/-- R85: 5 − 7. -/
theorem test_bsub : (run ((State.reset.setB 1 5).setB 2 7) 0x11312000).getB 3 = 18446744069414584319 := by decide +kernel

/-- R86: the product below p. -/
theorem test_bmul : (run ((State.reset.setB 1 4294967295).setB 2 4294967295) 0x12312000).getB 3 = 18446744065119617025 := by decide +kernel

/-- R86: 2^32 times 2^32. -/
theorem test_bmul_reduces : (run ((State.reset.setB 1 4294967296).setB 2 4294967296) 0x12312000).getB 3 = 4294967295 := by decide +kernel

/-- R87, and 0 for 0. -/
theorem test_bneg : (run (State.reset.setB 1 1) 0x13210000).getB 2 = 18446744069414584320 ∧ (run (State.reset.setB 2 9) 0x13210000).getB 2 = 0 := by decide +kernel

/-- R88: the inverse of 2. -/
theorem test_binv : (run (State.reset.setB 1 2) 0x14210000).getB 2 = 9223372034707292161 := by decide +kernel

/-- R88, R179: DivisionByZero, B2 kept, STATUS 0x12. -/
theorem test_binv_zero : (run (State.reset.setB 2 9) 0x14210000).getB 2 = 9 ∧ (run State.reset 0x14210000).statusWord = 0x12#64 ∧ (run State.reset 0x14210000).fcmd = 0x14210000 := by decide +kernel

/-- R89: 1 / 3. -/
theorem test_bdiv : (run ((State.reset.setB 1 1).setB 2 3) 0x15312000).getB 3 = 12297829379609722881 := by decide +kernel

/-- R89: 0 / 0 faults. -/
theorem test_bdiv_zero : (run State.reset 0x15312000).rsp = some ⟨1, 0⟩ := by decide +kernel

/-- R90: equal, and not equal. -/
theorem test_beq : (run State.reset 0x16012000).rsp = some ⟨0, 1⟩ ∧ (run ((State.reset.setB 1 1).setT true) 0x16012000).t = false := by decide +kernel

/-- R91. -/
theorem test_bmov : (run (State.reset.setB 4 7) 0x17540000).getB 5 = 7 := by decide +kernel

/-- R105. -/
theorem test_eadd : (run ((State.reset.setE 1 ⟨1, 2, 3, 4, 5⟩).setE 2 ⟨6, 7, 8, 9, 10⟩) 0x20312000).getE 3 = ⟨7, 9, 11, 13, 15⟩ := by decide +kernel

/-- R106. -/
theorem test_esub : (run ((State.reset.setE 1 ⟨1, 2, 3, 4, 5⟩).setE 2 ⟨6, 7, 8, 9, 10⟩) 0x21312000).getE 3 = ⟨18446744069414584316, 18446744069414584316, 18446744069414584316, 18446744069414584316, 18446744069414584316⟩ := by decide +kernel

/-- R107. -/
theorem test_emul : (run ((State.reset.setE 1 ⟨1, 2, 3, 4, 5⟩).setE 2 ⟨6, 7, 8, 9, 10⟩) 0x22312000).getE 3 = ⟨348, 337, 295, 220, 110⟩ := by decide +kernel

/-- R108: both examples. -/
theorem test_esqr : (run ((State.reset.setE 1 ⟨1, 2, 3, 4, 5⟩).setE 2 ⟨6, 7, 8, 9, 10⟩) 0x23210000).getE 2 = ⟨133, 142, 130, 95, 35⟩ ∧ (run (State.reset.setE 1 ⟨0, 0, 0, 0, 1⟩) 0x23210000).getE 2 = ⟨0, 0, 0, 3, 0⟩ := by decide +kernel

/-- R109, and a zero coefficient stays 0. -/
theorem test_eneg : (run ((State.reset.setE 1 ⟨1, 2, 3, 4, 5⟩).setE 2 ⟨6, 7, 8, 9, 10⟩) 0x24210000).getE 2 = ⟨18446744069414584320, 18446744069414584319, 18446744069414584318, 18446744069414584317, 18446744069414584316⟩ ∧ (run State.reset 0x24210000).getE 2 = ⟨0, 0, 0, 0, 0⟩ := by decide +kernel

/-- R110. -/
theorem test_einv : (run ((State.reset.setE 1 ⟨1, 2, 3, 4, 5⟩).setE 2 ⟨6, 7, 8, 9, 10⟩) 0x25210000).getE 2 = ⟨16227807958868272813, 4552730750487813724, 11612833514307017418, 9161515214422980997, 13509202856671625680⟩ := by decide +kernel

/-- R110: DivisionByZero, E2 kept. -/
theorem test_einv_zero : (run (State.reset.setE 2 ⟨6, 7, 8, 9, 10⟩) 0x25210000).rsp = some ⟨1, 0⟩ ∧ (run (State.reset.setE 2 ⟨6, 7, 8, 9, 10⟩) 0x25210000).getE 2 = ⟨6, 7, 8, 9, 10⟩ := by decide +kernel

/-- R111: they differ in the last coefficient. -/
theorem test_eeq : (run ((State.reset.setE 1 ⟨1, 2, 3, 4, 5⟩).setE 2 ⟨1, 2, 3, 4, 6⟩) 0x26012000).rsp = some ⟨0, 0⟩ := by decide +kernel

/-- R112. -/
theorem test_emov : (run (State.reset.setE 4 ⟨1, 2, 3, 4, 5⟩) 0x27540000).getE 5 = ⟨1, 2, 3, 4, 5⟩ := by decide +kernel

/-- R113. -/
theorem test_efromb : (run ((State.reset.setB 1 4).setE 2 ⟨9, 9, 9, 9, 9⟩) 0x28210000).getE 2 = ⟨4, 0, 0, 0, 0⟩ := by decide +kernel

/-- R114: G.y = 4·G.x. -/
theorem test_emuli : (run (State.reset.setE 0 ⟨0xb2ca178ecf4453a1, 0x3c757788836d3ea4, 0x48d7f28a26dafd0b, 0x1e0f15c7fd44c28e, 0x21fa7ffcc8252211⟩) 0x29100004).getE 1 = ⟨0xcb285e3d3d114e82, 0xf1d5de220db4fa90, 0x235fca299b6bf42b, 0x783c571ff5130a38, 0x87e9fff320948844⟩ := by decide +kernel

/-- R122: n + 5 gives 5. -/
theorem test_kred : (run (State.reset.setK 0 { nLimbs with l0 := 2492202982 }) 0x30100000).getK 1 = ⟨5, 0, 0, 0, 0, 0, 0, 0, 0, 0⟩ := by decide +kernel

/-- R122: the largest input. -/
theorem test_kred_max : (run (State.reset.setK 0 ⟨0xFFFFFFFF, 0xFFFFFFFF, 0xFFFFFFFF, 0xFFFFFFFF, 0xFFFFFFFF, 0xFFFFFFFF, 0xFFFFFFFF, 0xFFFFFFFF, 0xFFFFFFFF, 0xFFFFFFFF⟩) 0x30100000).getK 1 = ⟨3605528637, 803228882, 1370930886, 787433356, 1620046732, 50, 4294967251, 29, 4294967281, 4⟩ := by decide +kernel

/-- R123: n + 5 and 5 are unequal. -/
theorem test_keq : (run ((State.reset.setK 0 { nLimbs with l0 := 2492202982 }).setK 1 ⟨5, 0, 0, 0, 0, 0, 0, 0, 0, 0⟩) 0x31001000).rsp = some ⟨0, 0⟩ := by decide +kernel

/-- R125: 2^320 − 1 is rejected, 2^319 + 7 gives 7. -/
theorem test_krnd : (run { State.reset with rnd := [BitVec.allOnes 320, 7#320 ||| 1#320 <<< 319, 9#320] } 0x32300000).getK 3
      = ⟨7, 0, 0, 0, 0, 0, 0, 0, 0, 0⟩ ∧
    (run { State.reset with rnd := [BitVec.allOnes 320, 7#320 ||| 1#320 <<< 319, 9#320] } 0x32300000).rnd = [9#320] := by decide +kernel

/-- R125, R221: 0 and 2^320 − 1 are rejected and nothing follows: no response, and `cmd_ready` stays 0. -/
theorem test_krnd_waits : (run { State.reset with rnd := [0#320, BitVec.allOnes 320] } 0x32300000).rsp = none ∧
    (run { State.reset with rnd := [0#320, BitVec.allOnes 320] } 0x32300000).cmdReady = false := by decide +kernel

/-- R124. -/
theorem test_kmov : (run (State.reset.setK 1 nLimbs) 0x33210000).getK 2 = nLimbs := by decide +kernel

/-- R141: G + (−G), and 2G + G. -/
theorem test_padd : (run ((State.reset.setP 1 generator).setP 2 pointNegG) 0x40312000).getP 3 = Point.inf0 ∧ (run ((State.reset.setP 1 point2G).setP 2 generator) 0x40312000).getP 3 = point3G := by decide +kernel

/-- R135 case 5: equal x, y neither equal nor opposite. -/
theorem test_padd_case5 : (run ((State.reset.setP 1 generator).setP 2 offG) 0x40312000).rsp = some ⟨1, 0⟩ ∧ (run ((State.reset.setP 1 generator).setP 2 offG) 0x40312000).getP 3 = Point.inf0 := by decide +kernel

/-- R142, and y = ZERO5 gives INF0. -/
theorem test_pdbl : (run (State.reset.setP 1 generator) 0x41210000).getP 2 = point2G ∧ (run (State.reset.setP 1 pointN) 0x41210000).getP 2 = Point.inf0 := by decide +kernel

/-- R143, and an infinite point is copied as stored. -/
theorem test_pneg : (run (State.reset.setP 1 generator) 0x42210000).getP 2 = pointNegG ∧ (run (State.reset.setP 1 pointJ) 0x42210000).getP 2 = pointJ := by decide +kernel

/-- R144: two infinite points are equal whatever they store; N and INF0 are not. -/
theorem test_peq : (run (State.reset.setP 2 pointJ) 0x43012000).rsp = some ⟨0, 1⟩ ∧ (run (State.reset.setP 1 pointN) 0x43012000).rsp = some ⟨0, 0⟩ := by decide +kernel

/-- R145: 3·G. -/
theorem test_pmul : (run ((State.reset.setP 1 generator).setK 0 ⟨3, 0, 0, 0, 0, 0, 0, 0, 0, 0⟩) 0x44210000).getP 2 = point3G := by decide +kernel

/-- R146: G passes. -/
theorem test_pchk : (run (State.reset.setP 1 generator) 0x45010000).rsp = some ⟨0, 1⟩ ∧ (run (State.reset.setP 1 generator) 0x45010000).t = true := by decide +kernel

/-- R146: a point off the curve, err 2. -/
theorem test_pchk_off : (run (State.reset.setP 1 offG) 0x45010000).rsp = some ⟨2, 0⟩ ∧ (run (State.reset.setP 1 offG) 0x45010000).t = false := by decide +kernel

/-- R131, R147. -/
theorem test_pgen : (run State.reset 0x46100000).getP 1 = generator := by decide +kernel

/-- R148: all stored bits. -/
theorem test_pmov : (run (State.reset.setP 4 pointJ) 0x47540000).getP 5 = pointJ := by decide +kernel

/-- R161: 2·G. -/
theorem test_gpub : (run (State.reset.setK 0 ⟨2, 0, 0, 0, 0, 0, 0, 0, 0, 0⟩) 0x50100000).getP 1 = point2G := by decide +kernel

/-- V5.7: r = 0. -/
theorem test_genc_zero : (run ((State.reset.setP 1 pk).setP 2 plain) 0x51451210).getP 4 = Point.inf0 ∧ (run ((State.reset.setP 1 pk).setP 2 plain) 0x51451210).getP 5 = plain := by decide +kernel

/-- V5.12: pk off the curve, M = G, r = 1: err 1 and neither destination written. -/
theorem test_genc_fault : (run (((State.reset.setP 1 offG).setP 2 generator).setK 1 ⟨1, 0, 0, 0, 0, 0, 0, 0, 0, 0⟩) 0x51451210).rsp = some ⟨1, 0⟩ ∧ (run (((State.reset.setP 1 offG).setP 2 generator).setK 1 ⟨1, 0, 0, 0, 0, 0, 0, 0, 0, 0⟩) 0x51451210).getP 4 = Point.inf0 := by decide +kernel

/-- R163: r' = 0 in place keeps a finite Ca as stored and returns INF0 for an infinite Cb. -/
theorem test_grmk_zero : (run ((State.reset.setP 4 cipherA).setP 5 pointJ) 0x52454512).getP 4 = cipherA ∧ (run ((State.reset.setP 4 cipherA).setP 5 pointJ) 0x52454512).getP 5 = Point.inf0 := by decide +kernel

/-- R164: Ca = G, Cb = 3·G and sk = 2 give 3·G − 2·G = G. -/
theorem test_gdec : (run (((State.reset.setK 0 ⟨2, 0, 0, 0, 0, 0, 0, 0, 0, 0⟩).setP 4 generator).setP 5 point3G) 0x53804500).getP 8 = generator := by decide +kernel

/-- R171: a word above p is reduced. -/
theorem test_wrb : (run State.reset 0x60100000 0xFFFFFFFFFFFFFFFF).getB 1 = 4294967294 := by decide +kernel

/-- R172. -/
theorem test_rdb : (run (State.reset.setB 1 42) 0x61100000).rsp = some ⟨0, 42⟩ := by decide +kernel

/-- R173: coefficient a2 of E0, the others kept. -/
theorem test_wre : (run (State.reset.setE 0 ⟨1, 2, 3, 4, 5⟩) 0x62000002 0x48d7f28a26dafd0b).getE 0 = ⟨1, 2, 0x48d7f28a26dafd0b, 4, 5⟩ := by decide +kernel

/-- R174. -/
theorem test_rde : (run (State.reset.setE 1 ⟨1, 2, 3, 4, 5⟩) 0x63100004).rsp = some ⟨0, 5⟩ := by decide +kernel

/-- R175: the top limb. -/
theorem test_wrk : (run State.reset 0x64000009 1692681010).getK 0 = ⟨0, 0, 0, 0, 0, 0, 0, 0, 0, 1692681010⟩ := by decide +kernel

/-- R175: err 3. -/
theorem test_wrk_fault : (run State.reset 0x64000009 0x100000000).rsp = some ⟨3, 0⟩ ∧ (run State.reset 0x64000009 0x100000000).getK 0 = Scalar.zero := by decide +kernel

/-- R176. -/
theorem test_rdk : (run (State.reset.setK 1 nLimbs) 0x65100000).rsp = some ⟨0, 2492202977⟩ := by decide +kernel

/-- R177: 1 makes P1 infinite and keeps its coordinates. -/
theorem test_wrp : (run (State.reset.setP 1 ⟨⟨1, 2, 3, 4, 5⟩, ⟨6, 7, 8, 9, 10⟩, false⟩) 0x6610000A 1).getP 1 = pointJ := by decide +kernel

/-- R177: 2 is err 2. -/
theorem test_wrp_fault : (run State.reset 0x6610000A 2).rsp = some ⟨2, 0⟩ ∧ (run State.reset 0x6610000A 2).getP 1 = Point.inf0 := by decide +kernel

/-- R178: y.a4 of an infinite point, and its flag. -/
theorem test_rdp : (run (State.reset.setP 3 pointJ) 0x67300009).rsp = some ⟨0, 10⟩ ∧ (run (State.reset.setP 3 pointJ) 0x6730000A).rsp = some ⟨0, 1⟩ := by decide +kernel

/-- R179: 0 after reset; 0x13 after a DivisionByZero with T = 1, read while halted. -/
theorem test_rdsr : (run State.reset 0x68000000).rsp = some ⟨0, 0⟩ ∧ (run (run (State.reset.setT true) 0x14210000) 0x68000000).rsp = some ⟨0, 0x13⟩ := by decide +kernel

/-- R28, R197: FCMD of the first fault; another command is answered Halted. -/
theorem test_rdsr_fcmd : (run (run State.reset 0x14210000) 0x68000001).rsp = some ⟨0, 0x14210000⟩ ∧ (run (run State.reset 0x14210000) 0x61100000).rsp = some ⟨15, 0⟩ := by decide +kernel

/-- V5.11: GENC with rd = ra, err 4, STATUS 0x42. -/
theorem test_illegal : (run State.reset 0x51441210).statusWord = 0x42#64 ∧ (run State.reset 0x51441210).fcmd = 0x51441210 := by decide +kernel

/-- log 14: the table's number is the word the next step runs. -/
theorem test_withFetchWord : step (State.reset.withFetchWord 32 0x46100000) = exec (.pgen 1) (State.reset.take 0x46100000 0 []) := by rfl

/-! ### Witnesses: for every statement with hypotheses, a state and operands that meet them, clause by clause -/

/-- A small state: two B, two E and three K registers, points on the curve, off it, infinite, and of order 2. B3, E3, K3 are 0, and P4
is INF0. -/
def demo : State :=
  ((((((((((((State.reset.setB 1 18446744069414584320).setB 2 1).setE 1 ⟨1, 2, 3, 4, 5⟩).setE 2 ⟨0, 0, 0, 0, 1⟩).setK 1
    ⟨1, 0, 0, 0, 0, 0, 0, 0, 0, 0⟩).setK 2 ⟨2, 0, 0, 0, 0, 0, 0, 0, 0, 0⟩).setP 1 generator).setP 2 pointNegG).setP 3 point2G).setP 5
    offG).setP 6 pointN).setP 7 pointJ)

/-- The small state with the host's next action. -/
def demoHost (e : HostEvent) : State := { demo with host := [e] }

/-- The small state, halted. -/
def halted : State := demo.takeFault .divisionByZero

/-- The small state, with a KRND that waits. -/
def waiting : State := { demo.awaitRandom with cmd := 0x32300000 }

theorem demo_legal : demo.RegistersLegal :=
  ((((((((((((registersLegal_afterReset [] []).setB (by decide) 1).setB (by decide) 2).setE (by decide) 1).setE (by decide) 2).setK
    _ 1).setK _ 2).setP (by decide) 1).setP (by decide) 2).setP (by decide) 3).setP (by decide) 5).setP (by decide) 6).setP (by decide) 7

theorem demo_live : demo.Live := rfl

theorem demo_good : GoodPoint (demo.getP 1) ∧ GoodPoint (demo.getP 2) ∧ GoodPoint (demo.getP 3) ∧ GoodPoint (demo.getP 4) ∧
    GoodPoint (demo.getP 7) :=
  ⟨⟨by decide +kernel, by decide +kernel⟩, ⟨by decide +kernel, by decide +kernel⟩, ⟨by decide +kernel, by decide +kernel⟩,
    ⟨by decide +kernel, by decide +kernel⟩, ⟨by decide +kernel, by decide +kernel⟩⟩

theorem acc_of_mul {P R : Point} {k : Nat} (h : ptMul P k = some R) : LadderAcc P k 0 R := by
  rcases ladder_reaches 320 (.start (P := P) (k := k)) with ⟨S, hS, hA⟩ | ⟨hN, -⟩
  · rw [← ladderAcc_ladder .start, h] at hS; cases hS; exact hA
  · rw [← ladderAcc_ladder .start, h] at hN; cases hN

theorem mul_demo : ptMul (demo.getP 1) (demo.getK 1).val = some generator ∧ ptMul (demo.getP 1) (demo.getK 2).val = some point2G ∧
    ptMul generator (demo.getK 2).val = some (demo.getP 3) := by decide +kernel

theorem witness_StepRunsDecodedCommand :
    ((demoHost (.command 0x10312000 0)).busy = false ∧ (demoHost (.command 0x10312000 0)).host = [.command 0x10312000 0] ∧
      decode 0x10312000#32 = some (.badd 3 1 2)) ∧
    (demo.busy = false ∧ demo.host = []) ∧
    (waiting.busy = true ∧ (∀ rest, waiting.host ≠ .reset :: rest) ∧ decode waiting.cmd = some (.krnd 3)) :=
  ⟨⟨rfl, rfl, by decide⟩, ⟨rfl, rfl⟩, rfl, fun _ h => by (cases h), by decide⟩

theorem witness_ResetFromAnyState : ({ halted with host := [.reset] } : State).host = .reset :: [] ∧
    ({ waiting with host := [.reset] } : State).host = .reset :: [] := ⟨rfl, rfl⟩

/-- A KRND abandoned after one rejected word, before the end of the source's words; an abandoned BADD; a halted core. -/
theorem witness_ResetDuringCommand :
    ((demoHost (.resetDuring 0x32300000 1)).busy = false ∧ (demoHost (.resetDuring 0x32300000 1)).host = .resetDuring 0x32300000 1 :: [] ∧
      (demoHost (.resetDuring 0x32300000 1)).fault = false ∧ decode 0x32300000#32 = some (.krnd 3) ∧
      ∀ w ∈ ([0, 5] : List RandomWord).take 1, acceptable w = false) ∧
    (∀ rd, decode 0x10312000#32 ≠ some (.krnd rd)) ∧ halted.fault = true :=
  ⟨⟨rfl, rfl, rfl, by decide, fun w hw => by rw [List.mem_singleton.mp hw]; decide +kernel⟩, by decide +kernel, rfl⟩

theorem demoHost_inv (e : HostEvent) : (demoHost e).Inv :=
  ⟨demo_legal, ⟨(by decide : demo.cause.toNat ≤ 4), ⟨fun h => absurd rfl h, fun h => (by cases h)⟩, fun _ => rfl⟩, fun _ h => (by cases h),
    fun h => (by cases h)⟩

theorem witness_StepKeepsInvariant :
    (demoHost (.command 0x10312000 0)).Inv ∧ ∃ t, step (demoHost (.command 0x10312000 0)) = .next t := ⟨demoHost_inv _, _, rfl⟩

theorem witness_CommandsKeepRegistersLegal :
    demo.RegistersLegal ∧ (∃ t, exec (.badd 3 1 2) demo = .next t) ∧ ∃ t, step demo = .next t := ⟨demo_legal, ⟨_, rfl⟩, _, rfl⟩

theorem witness_DecodeEncode : (Instr.grmk 15 14 0 0 0 0).wellFormed = true := rfl

theorem witness_DecodeFollowsTable :
    ⟨"BADD", 0xFF000FFF, 0x10000000, noExtra⟩ ∈ opcodeTable ∧ decode 0x52EF0000#32 = some (.grmk 14 15 0 0 0 0) :=
  ⟨by simp [opcodeTable, tableB], by decide⟩

theorem witness_OpcodeMapIllegal :
    (demoHost (.command 0x60100001 7)).busy = false ∧ (demoHost (.command 0x60100001 7)).host = .command 0x60100001 7 :: [] :=
  ⟨rfl, rfl⟩

/-- BINV of B3 = 0, and an illegal word. -/
theorem witness_FaultEntryIsPrecise :
    ((demoHost (.command 0x14230000 0)).Live ∧ (demoHost (.command 0x14230000 0)).busy = false ∧
      ∃ t, step (demoHost (.command 0x14230000 0)) = .next t ∧ t.fault = true) ∧
    (∃ t, step (demoHost (.command 0 0)) = .next t ∧ t.fault = true) ∧
    ∃ t, exec (.binv 2 3) demo = .next t ∧ t.fault = true := ⟨⟨rfl, rfl, _, rfl, rfl⟩, ⟨_, rfl, rfl⟩, _, rfl, rfl⟩

theorem witness_HaltedRefusesAll :
    halted.fault = true ∧ halted.busy = false ∧ decode 0x68000001#32 = some (.rdsr 1) ∧
    (∀ slot, decode 0x61100000#32 ≠ some (.rdsr slot)) ∧ (∀ slot, decode 0x68000002#32 ≠ some (.rdsr slot)) := by decide

theorem witness_OnlyResetLeavesHalt :
    halted.fault = true ∧ (∃ t, step halted = .next t) ∧ ∃ t, step { halted with host := [.reset] } = .next t :=
  ⟨rfl, ⟨_, rfl⟩, _, rfl⟩

theorem witness_DivisionByZeroExactly :
    (Instr.binv 2 3).wellFormed = true ∧ demo.Live ∧ (∃ t, exec (.binv 2 3) demo = .next t) ∧ DivisionByZeroWhen (.binv 2 3) demo ∧
    DivisionByZeroWhen (.padd 3 1 5) demo ∧ GoodPoint (demo.getP 1) ∧ LadderAcc (demo.getP 1) 5 320 Point.inf0 :=
  ⟨rfl, rfl, ⟨_, rfl⟩, rfl, ⟨by decide, by decide, by decide +kernel, by decide +kernel, by decide +kernel⟩, demo_good.1, .start⟩

theorem witness_OtherFaultsExactly :
    demo.Live ∧ (∃ t, exec (.pchk 5) demo = .next t) ∧ InvalidPointWhen (.pchk 5) demo ∧
    InvalidPointWhen (.wrp 1 10) { demo with wdata := 2 } ∧ InvalidScalarLengthWhen (.wrk 1 9) { demo with wdata := 0x100000000 } :=
  ⟨rfl, ⟨_, rfl⟩, ⟨by decide, by decide +kernel⟩, ⟨rfl, by decide, by decide⟩, (by decide : 2 ^ 32 ≤ (0x100000000#64).toNat)⟩

/-- The three kinds of response: BADD completes, an illegal word faults, a halted core refuses. -/
theorem witness_ResponseCodes :
    (∃ t, step (demoHost (.command 0x10312000 0)) = .next t ∧ t.rsp = some ⟨0, 0⟩) ∧
    (∃ t, step (demoHost (.command 0 0)) = .next t ∧ t.rsp = some ⟨4, 0⟩) ∧
    ∃ t, step { halted with host := [.command 0x10312000 0] } = .next t ∧ t.rsp = some ⟨15, 0⟩ :=
  ⟨⟨_, rfl, rfl⟩, ⟨_, rfl, rfl⟩, _, rfl, rfl⟩

theorem witness_OneResponseEach :
    (∃ t, step (demoHost (.command 0x10312000 0)) = .next t) ∧ (∃ t, step (demoHost (.command 0x32300000 0)) = .next t) ∧
    waiting.PortLegal ∧ waiting.busy = true ∧ ∀ rest, waiting.host ≠ .reset :: rest :=
  ⟨⟨_, rfl⟩, ⟨_, rfl⟩, ⟨fun _ h => by (cases h), fun _ => ⟨rfl, rfl, rfl, 3, by decide⟩⟩, rfl, fun _ h => by (cases h)⟩

theorem witness_DataWordUse :
    (isWrite (.rdb 1) = false ∧ ∃ t, exec (.rdb 1) demo = .next t ∧ t.rsp = some ⟨0, 18446744069414584320⟩ ∧
      wordRead (.rdb 1) demo = some 18446744069414584320) ∧
    (∃ t, exec (.binv 2 3) demo = .next t ∧ t.rsp = some ⟨1, 0⟩) ∧
    (isTest (.beq 1 2) = true ∧ ∃ t, exec (.beq 1 2) demo = .next t ∧ t.rsp = some ⟨0, 0⟩) ∧
    (wordRead (.badd 1 1 1) demo = none ∧ isTest (.badd 1 1 1) = false ∧ ∃ t, exec (.badd 1 1 1) demo = .next t ∧ t.rsp = some ⟨0, 0⟩) ∧
    (decode 0#32 = none ∧ ∃ t, step (demoHost (.command 0 7)) = .next t ∧ t.rsp = some ⟨4, 0⟩) :=
  ⟨⟨rfl, _, rfl, rfl, rfl⟩, ⟨_, rfl, rfl⟩, ⟨rfl, _, rfl, rfl⟩, ⟨rfl, rfl, _, rfl, rfl⟩, rfl, _, rfl, rfl⟩

theorem witness_TestFlagUse :
    (isTest (.badd 3 1 2) = false ∧ ∃ t, exec (.badd 3 1 2) demo = .next t) ∧
    (demo.Live ∧ (∃ t, exec (.beq 1 1) demo = .next t) ∧ (∃ t, exec (.eeq 1 1) demo = .next t) ∧
      (∃ t, exec (.keq 1 1) demo = .next t) ∧ ∃ t, exec (.peq 1 1) demo = .next t) ∧
    (∃ t, exec (.pchk 4) demo = .next t ∧ t.rsp = some ⟨0, 1⟩) ∧
    (∃ t, exec (.binv 2 3) demo = .next t ∧ t.rsp = some ⟨1, 0⟩) ∧
    (isRdsr (.beq 1 1) = false ∧ isTest (.beq 1 1) = true ∧ ∃ t, exec (.beq 1 1) demo = .next t ∧ t.rsp = some ⟨0, 1⟩) ∧
    ∃ t u, exec (.rdsr 0) demo = .next t ∧ exec (.rdsr 0) (demo.setT true) = .next u :=
  ⟨⟨rfl, _, rfl⟩, ⟨rfl, ⟨_, rfl⟩, ⟨_, rfl⟩, ⟨_, rfl⟩, _, rfl⟩, ⟨_, rfl, rfl⟩, ⟨_, rfl, rfl⟩, ⟨rfl, rfl, _, rfl, rfl⟩, _, _, rfl, rfl⟩

theorem witness_FilesWritten :
    (∃ t, exec (.badd 3 1 2) demo = .next t ∧ destB (.badd 3 1 2) ≠ some 1 ∧ destE (.badd 3 1 2) ≠ some 1 ∧
      destK (.badd 3 1 2) ≠ some 1 ∧ 1 ∉ destP (.badd 3 1 2)) ∧
    ∃ t, exec (.binv 2 3) demo = .next t ∧ ¬ ∃ w, t.rsp = some ⟨0, w⟩ :=
  ⟨⟨_, rfl, by decide, by decide, by decide, by decide⟩, _, rfl, fun ⟨_, h⟩ => by (cases h)⟩

theorem witness_RandomPortUse :
    (isKrnd (.badd 3 1 2) = false ∧ ∃ t, exec (.badd 3 1 2) demo = .next t) ∧
    (∃ t, exec (.krnd 3) { demo with rnd := [0, 5, 6] } = .next t) ∧ ∃ t, step { demo with rnd := [0, 5, 6] } = .next t :=
  ⟨⟨rfl, _, rfl⟩, ⟨_, rfl⟩, _, rfl⟩

/-- The hypotheses of the statements about one command that runs on any live state, or on any live and legal one: BaseMultiply, Moves,
ExtAddSubNeg, ExtMultiplySquare, ExtEmbedAndSmallMultiply, PointGenerator, WriteFieldWords, ReadWords. -/
theorem witness_live_and_legal : demo.Live ∧ demo.RegistersLegal := ⟨rfl, demo_legal⟩

/-- The sum of B1 and B2 is p itself, the difference B2 − B1 borrows, and B3 is 0. -/
theorem witness_BaseAddSubNeg : demo.Live ∧ demo.RegistersLegal ∧ (demo.getB 1).toNat + (demo.getB 2).toNat = Config.pMod ∧
    (demo.getB 2).toNat < (demo.getB 1).toNat ∧ demo.getB 3 = 0 := ⟨rfl, demo_legal, by decide, by decide, by decide⟩

theorem witness_BaseInvert : demo.Live ∧ demo.RegistersLegal ∧ demo.getB 3 = 0 ∧ demo.getB 1 ≠ 0 := ⟨rfl, demo_legal, by decide, by decide⟩

theorem witness_BaseDivide : demo.Live ∧ demo.RegistersLegal ∧ demo.getB 3 = 0 ∧ demo.getB 2 ≠ 0 := ⟨rfl, demo_legal, by decide, by decide⟩

theorem witness_Comparisons : (0x16#32) ∈ [0x16#32, 0x26#32, 0x31#32, 0x43#32] ∧ (15 : RegNum) ≠ 0 ∧ demo.Live :=
  ⟨by decide, by decide, rfl⟩

theorem witness_BaseDatapaths : Canonical 0xFFFFFFFF00000000#64 ∧ Canonical 0#64 := by decide

theorem witness_ExtMultiplicationLaws : CanonicalExt ⟨18446744069414584320, 0, 0, 0, 18446744069414584320⟩ := by decide

theorem witness_ExtInvert : demo.Live ∧ demo.RegistersLegal ∧ demo.getE 3 = ⟨0, 0, 0, 0, 0⟩ ∧ demo.getE 2 ≠ ⟨0, 0, 0, 0, 0⟩ :=
  ⟨rfl, demo_legal, by decide, by decide⟩

set_option exponentiation.threshold 400 in
theorem witness_ScalarReduce : demo.Live ∧ (demo.getK 2).val < groupOrder ∧ groupOrder < 2 ^ Config.scalarBits := ⟨rfl, by decide, by decide⟩

/-- 0 and n are rejected, n − 1 is accepted; and a source with no acceptable word. -/
theorem witness_RandomScalar :
    ({ demo with rnd := [0, BitVec.ofNat 320 groupOrder] ++ BitVec.ofNat 320 (groupOrder - 1) :: [9] } : State).Live ∧
    (∀ x ∈ ([0, BitVec.ofNat 320 groupOrder] : List RandomWord),
      ¬ (0 < x.toNat % 2 ^ (Config.scalarBits - 1) ∧ x.toNat % 2 ^ (Config.scalarBits - 1) < groupOrder)) ∧
    0 < (BitVec.ofNat 320 (groupOrder - 1)).toNat % 2 ^ (Config.scalarBits - 1) ∧
    (BitVec.ofNat 320 (groupOrder - 1)).toNat % 2 ^ (Config.scalarBits - 1) < groupOrder ∧
    ∀ x ∈ demo.rnd, ¬ (0 < x.toNat % 2 ^ (Config.scalarBits - 1) ∧ x.toNat % 2 ^ (Config.scalarBits - 1) < groupOrder) :=
  ⟨rfl, by
    intro x hx
    rcases List.mem_cons.mp hx with rfl | hx
    · decide +kernel
    · rw [List.mem_singleton.mp hx]; decide +kernel, by decide +kernel, by decide +kernel, fun _ h => nomatch h⟩

/-- The six cases: P4 first, P4 second, P1 and P2, P1 twice, P1 and P5, P1 and P3. -/
theorem witness_PointAdd :
    demo.Live ∧ demo.RegistersLegal ∧ (demo.getP 4).inf = true ∧ (demo.getP 1).inf = false ∧
    ((demo.getP 2).inf = false ∧ (demo.getP 1).x = (demo.getP 2).x ∧ (demo.getP 1).y = eNeg (demo.getP 2).y) ∧
    (demo.getP 1).y ≠ eNeg (demo.getP 1).y ∧
    ((demo.getP 5).inf = false ∧ (demo.getP 1).x = (demo.getP 5).x ∧ (demo.getP 1).y ≠ eNeg (demo.getP 5).y ∧
      (demo.getP 1).y ≠ (demo.getP 5).y) ∧
    ((demo.getP 3).inf = false ∧ (demo.getP 1).x ≠ (demo.getP 3).x) :=
  ⟨rfl, demo_legal, by decide, by decide, by decide +kernel, by decide +kernel, by decide +kernel, by decide +kernel⟩

theorem witness_PointDouble :
    demo.Live ∧ demo.RegistersLegal ∧ (demo.getP 4).inf = true ∧ ((demo.getP 6).inf = false ∧ (demo.getP 6).y = Ext5.zero) ∧
    ((demo.getP 1).inf = false ∧ (demo.getP 1).y ≠ Ext5.zero) :=
  ⟨rfl, demo_legal, by decide, by decide, by decide⟩

theorem witness_PointNegate :
    demo.Live ∧ demo.RegistersLegal ∧ (demo.getP 7).inf = true ∧ (demo.getP 1).inf = false := ⟨rfl, demo_legal, by decide, by decide⟩

set_option exponentiation.threshold 400 in
theorem witness_LadderIsDoubleAndAdd :
    319 < 320 ∧ generator.inf = false ∧ pointJ.inf = true ∧ 0 < 1 ∧ 1 < 2 ^ Config.scalarBits :=
  ⟨by decide, rfl, rfl, by decide, by decide⟩

theorem witness_PointMultiply :
    demo.Live ∧ LadderAcc (demo.getP 1) (demo.getK 2).val 0 point2G ∧ GoodPoint (demo.getP 1) ∧ (demo.getK 3).val = 0 ∧
    (demo.getP 1).inf = false ∧ (demo.getK 1).val = 1 ∧ (demo.getP 7).inf = true :=
  ⟨rfl, acc_of_mul mul_demo.2.1, demo_good.1, by decide, by decide, by decide, by decide⟩

theorem witness_PointCheck :
    demo.Live ∧ OffCurve (demo.getP 5) ∧ ¬ OffCurve (demo.getP 6) ∧ (demo.getP 7).inf = true :=
  ⟨rfl, ⟨by decide, by decide +kernel⟩, fun h => absurd h.2 (by decide +kernel), by decide⟩

theorem witness_GroupLaw :
    GoodPoint (demo.getP 1) ∧ GoodPoint (demo.getP 3) ∧ GoodPoint (demo.getP 4) ∧ (demo.getP 4).inf = true ∧
    ptAdd (demo.getP 1) (demo.getP 3) = some point3G ∧ ptAdd (demo.getP 3) (demo.getP 1) = some point3G ∧
    ptAdd point3G (demo.getP 4) = some point3G ∧ ptAdd (demo.getP 3) (demo.getP 4) = some point2G ∧
    ptAdd (demo.getP 1) point2G = some point3G ∧ ptAdd (demo.getP 1) (ptNeg (demo.getP 1)) = some Point.inf0 :=
  ⟨demo_good.1, demo_good.2.2.1, demo_good.2.2.2.1, by decide, by decide +kernel, by decide +kernel, by decide +kernel,
    by decide +kernel, by decide +kernel, by decide +kernel⟩

set_option exponentiation.threshold 400 in
theorem witness_LadderIsRepeatedSum :
    GoodPoint generator ∧ 2 * groupOrder < 2 ^ Config.scalarBits ∧ groupOrder + groupOrder < 2 ^ Config.scalarBits :=
  ⟨generator_good, by decide, by decide⟩

theorem witness_PointsStayOnCurve :
    (∀ r slot, Instr.padd 3 1 2 ≠ .wrp r slot) ∧ (∀ r, GoodPoint (State.reset.getP r)) ∧ ∃ t, exec (.padd 3 1 2) State.reset = .next t :=
  ⟨fun _ _ h => by (cases h), fun r => by rw [State.getP_reset]; exact ⟨by decide, by decide⟩, _, rfl⟩

theorem witness_PublicKey :
    demo.Live ∧ (∃ u, exec (.pgen 9) demo = .next u ∧ ∃ v, exec (.pmul 8 9 2) u = .next v) ∧ (demo.getK 3).val = 0 ∧
    (demo.getK 1).val = 1 := ⟨rfl, ⟨_, rfl, _, rfl⟩, by decide, by decide⟩

/-- pk = G, M = 2·G, r = 1; r = 0 with a finite M; and pk off the curve with M = G (V5.12). -/
theorem witness_Encrypt :
    (4 : RegNum) ≠ 5 ∧ demo.Live ∧ LadderAcc generator (demo.getK 1).val 0 generator ∧
    LadderAcc (demo.getP 1) (demo.getK 1).val 0 generator ∧ ptAdd (demo.getP 3) generator = some point3G ∧
    GoodPoint (demo.getP 1) ∧ GoodPoint (demo.getP 3) ∧ (demo.getK 3).val = 0 ∧ (demo.getP 3).inf = false ∧
    ptMul (demo.getP 5) (demo.getK 1).val = some offG ∧ AddCase5 (demo.getP 1) offG :=
  ⟨by decide, rfl, acc_of_mul mul_demo.1, acc_of_mul mul_demo.1, by decide +kernel, demo_good.1, demo_good.2.2.1, by decide, by decide,
    by decide +kernel, by decide, by decide, by decide +kernel, by decide +kernel, by decide +kernel⟩

/-- Ca = 2·G, Cb = 2·G, pk = G, r' = 1; and r' = 0. -/
theorem witness_Remask :
    (4 : RegNum) ≠ 5 ∧ demo.Live ∧ LadderAcc generator (demo.getK 1).val 0 generator ∧
    LadderAcc (demo.getP 1) (demo.getK 1).val 0 generator ∧ ptAdd (demo.getP 3) generator = some point3G ∧
    GoodPoint (demo.getP 1) ∧ GoodPoint (demo.getP 3) ∧ (demo.getK 3).val = 0 ∧ AddCase5 (demo.getP 5) generator :=
  ⟨by decide, rfl, acc_of_mul mul_demo.1, acc_of_mul mul_demo.1, by decide +kernel, demo_good.1, demo_good.2.2.1, by decide,
    by decide, by decide, by decide +kernel, by decide +kernel, by decide +kernel⟩

/-- sk = 2, Ca = G: S = 2·G, with Cb = G, Cb = S, and Cb off the curve. -/
theorem witness_Decrypt :
    demo.Live ∧ demo.RegistersLegal ∧ LadderAcc (demo.getP 1) (demo.getK 2).val 0 point2G ∧
    ptAdd (demo.getP 1) (ptNeg point2G) = some pointNegG ∧ GoodPoint (demo.getP 1) ∧ GoodPoint (demo.getP 3) ∧
    (demo.getK 3).val = 0 ∧ point2G.inf = false ∧ demo.getP 3 = point2G ∧
    LadderAcc (demo.getP 1) (demo.getK 1).val 0 generator ∧ AddCase5 (demo.getP 5) (ptNeg generator) :=
  ⟨rfl, demo_legal, acc_of_mul mul_demo.2.1, by decide +kernel, demo_good.1, demo_good.2.2.1, by decide, rfl, by decide,
    acc_of_mul mul_demo.1, by decide, by decide +kernel, by decide +kernel, by decide +kernel, by decide +kernel⟩

/-- sk = 2, pk = 2·G, M = G. -/
theorem witness_DecryptUndoesEncrypt :
    demo.Live ∧ (4 : RegNum) ≠ 5 ∧ ptMul generator (demo.getK 2).val = some (demo.getP 3) ∧ GoodPoint (demo.getP 1) ∧
    (demo.getP 1).inf = false := ⟨rfl, by decide, mul_demo.2.2, demo_good.1, by decide⟩

/-- sk = 2, pk = 2·G, Ca = G, Cb = −G. -/
theorem witness_RemaskKeepsPlaintext :
    demo.Live ∧ (8 : RegNum) ≠ 9 ∧ ptMul generator (demo.getK 2).val = some (demo.getP 3) ∧ GoodPoint (demo.getP 1) ∧
    GoodPoint (demo.getP 2) := ⟨rfl, by decide, mul_demo.2.2, demo_good.1, demo_good.2.1⟩

/-- The largest data word that fits a limb, and the least that does not. -/
theorem witness_WriteLimb :
    ({ demo with wdata := 0xFFFFFFFF } : State).Live ∧ ({ demo with wdata := 0xFFFFFFFF } : State).wdata.toNat < 2 ^ 32 ∧
    2 ^ 32 ≤ ({ demo with wdata := 0x100000000 } : State).wdata.toNat := ⟨rfl, by decide, by decide⟩

/-- The largest data word the flag takes, and the least it does not. -/
theorem witness_WritePoint :
    ({ demo with wdata := 1 } : State).Live ∧ ({ demo with wdata := 1 } : State).wdata.toNat ≤ 1 ∧
    1 < ({ demo with wdata := 2 } : State).wdata.toNat := ⟨rfl, by decide, by decide⟩

theorem witness_ReadStatus : (1 : RegNum) ≠ 0 ∧ 8 ≤ 63 ∧ 32 ≤ 63 ∧ halted.fault = true ∧ isRdsr (.rdb 1) = false := by decide


end Sys2Proof.Tests
end

/-! ### What a step and a command answer, and the legal states (O3, O6, O7, O8)

The invariant is kept for one reason: a reset puts the core into the reset state, and running a command establishes a legal port
by itself, so that it needs legal registers and a legal STATUS only. -/

section
namespace Sys2Proof.Machine

open Sys2Proof

/-- What one step does: reset, the command in flight going on, an idle core, a command taken, or a command abandoned by a reset
(R43, R51, R53, R210). -/
theorem step_cases (s : State) :
    (∃ rest, s.host = .reset :: rest ∧ step s = .next (State.afterReset rest s.rnd)) ∨
    (s.busy = true ∧ (∀ rest, s.host ≠ .reset :: rest) ∧ step s = s.runCommand) ∨
    (s.busy = false ∧ s.host = [] ∧ step s = .next s) ∨
    (∃ cmd wdata rest, s.busy = false ∧ s.host = .command cmd wdata :: rest ∧ step s = (s.take cmd wdata rest).runCommand) ∨
    (∃ cmd drawn rest, s.busy = false ∧ s.host = .resetDuring cmd drawn :: rest ∧
      step s = .next (s.takeResetDuring cmd drawn rest)) := by
  unfold step State.hostStep
  split
  case h_1 _ rest hh => exact .inl ⟨rest, hh, rfl⟩
  case h_2 hb hn => exact .inr (.inl ⟨hb, fun rest hh => hn rest hh, rfl⟩)
  case h_3 hh hb => exact .inr (.inr (.inl ⟨hb, hh, rfl⟩))
  case h_4 cmd wdata rest hh hb => exact .inr (.inr (.inr (.inl ⟨cmd, wdata, rest, hb, hh, rfl⟩)))
  case h_5 cmd drawn rest hh hb => exact .inr (.inr (.inr (.inr ⟨cmd, drawn, rest, hb, hh, rfl⟩)))

/-- `exec_cases` read from the state a command answers. -/
theorem exec_next_cases {i : Instr} {s t : State} (h : exec i s = .next t) :
    (∃ slot, i = .rdsr slot ∧ t = s.complete (s.statusRead slot)) ∨
    (s.fault = true ∧ (∀ slot, i ≠ .rdsr slot) ∧ t = s.refuse) ∨
    (s.fault = false ∧ (∀ slot, i ≠ .rdsr slot) ∧ Ends i s t) := by
  obtain ⟨slot, hi, he⟩ | ⟨hf, hi, he⟩ | ⟨hf, hi, u, he, hu⟩ := exec_cases i s <;> cases he.symm.trans h
  · exact .inl ⟨slot, hi, rfl⟩
  · exact .inr (.inl ⟨hf, hi, rfl⟩)
  · exact .inr (.inr ⟨hf, hi, hu⟩)

/-! ### The registers (R31) -/

theorem exec_keeps_registersLegal {i : Instr} {s t : State} (hs : s.RegistersLegal) (h : exec i s = .next t) :
    t.RegistersLegal := by
  obtain ⟨slot, -, rfl⟩ | ⟨-, -, rfl⟩ | ⟨-, -, ends⟩ := exec_next_cases h
  · exact hs.complete _
  · exact hs.refuse
  · cases ends with
    | completes u w hw =>
      obtain ⟨-, -, -, -, -, -, legal⟩ := hw
      exact (legal hs).complete w
    | faults c => exact hs.takeFault c
    | waits => exact hs.awaitRandom

theorem runCommand_keeps_registersLegal {s t : State} (hs : s.RegistersLegal) (h : s.runCommand = .next t) :
    t.RegistersLegal := by
  obtain ⟨i, -, he⟩ | ⟨-, -, he⟩ | ⟨-, -, he⟩ := runCommand_cases s
  · exact exec_keeps_registersLegal hs (he.symm.trans h)
  · cases he.symm.trans h
    exact hs.takeFault _
  · cases he.symm.trans h
    exact hs.refuse

theorem step_keeps_registersLegal {s t : State} (hs : s.RegistersLegal) (h : step s = .next t) : t.RegistersLegal := by
  obtain ⟨_, -, he⟩ | ⟨-, -, he⟩ | ⟨-, -, he⟩ | ⟨_, _, _, -, -, he⟩ | ⟨_, _, _, -, -, he⟩ := step_cases s
  · cases he.symm.trans h
    exact registersLegal_afterReset _ _
  · exact runCommand_keeps_registersLegal hs (he.symm.trans h)
  · cases he.symm.trans h
    exact hs
  · exact runCommand_keeps_registersLegal (hs.take _ _ _) (he.symm.trans h)
  · cases he.symm.trans h
    exact registersLegal_afterReset _ _

/-! ### STATUS and the port (R27, R28, R44, R221) -/

theorem FaultCode.code_ne_zero (c : FaultCode) : c.code ≠ 0 := by cases c <;> decide

theorem FaultCode.code_le (c : FaultCode) : c.code.toNat ≤ 4 := by cases c <;> decide

theorem State.StatusLegal.of_eq {s t : State} (h : s.StatusLegal) (hf : t.fault = s.fault) (hc : t.cause = s.cause)
    (hw : t.fcmd = s.fcmd) : t.StatusLegal := by
  unfold State.StatusLegal
  rw [hf, hc, hw]
  exact h

theorem statusLegal_takeFault (s : State) (c : FaultCode) : (s.takeFault c).StatusLegal :=
  ⟨c.code_le, ⟨fun _ => rfl, fun _ => c.code_ne_zero⟩, nofun⟩

theorem statusLegal_afterReset (l : List HostEvent) (ws : List RandomWord) : (State.afterReset l ws).StatusLegal :=
  ⟨Nat.zero_le 4, ⟨fun h => absurd rfl h, nofun⟩, fun _ => rfl⟩

theorem legal_completed (w : Word) : Response.Legal ⟨0, w⟩ := ⟨.inl (Nat.zero_le 4), fun h => absurd rfl h⟩

theorem legal_faulted (c : FaultCode) : Response.Legal ⟨c.code, 0⟩ := ⟨.inl c.code_le, fun _ => rfl⟩

theorem legal_refused : Response.Legal ⟨haltedCode, 0⟩ := ⟨.inr rfl, fun _ => rfl⟩

/-- A ready core with a legal response on its port has a legal port. -/
theorem State.PortLegal.of_response {t : State} {r : Response} (hr : r.Legal) (ht : t.rsp = some r) (hb : t.busy = false) :
    t.PortLegal :=
  ⟨fun r' h => Option.some.inj (ht.symm.trans h) ▸ hr, fun h => by simp [hb] at h⟩

theorem portLegal_afterReset (l : List HostEvent) (ws : List RandomWord) : (State.afterReset l ws).PortLegal := ⟨nofun, nofun⟩

theorem inv_afterReset (l : List HostEvent) (ws : List RandomWord) : (State.afterReset l ws).Inv :=
  ⟨registersLegal_afterReset l ws, statusLegal_afterReset l ws, portLegal_afterReset l ws⟩

theorem inv_takeFault {s : State} (hr : s.RegistersLegal) (c : FaultCode) : (s.takeFault c).Inv :=
  ⟨hr.takeFault c, statusLegal_takeFault s c, .of_response (legal_faulted c) rfl rfl⟩

theorem inv_refuse {s : State} (hr : s.RegistersLegal) (hs : s.StatusLegal) : s.refuse.Inv :=
  ⟨hr.refuse, hs, .of_response legal_refused rfl rfl⟩

theorem inv_complete {s : State} (hr : s.RegistersLegal) (hs : s.StatusLegal) (w : Word) : (s.complete w).Inv :=
  ⟨hr.complete w, hs, .of_response (legal_completed w) rfl rfl⟩

/-- A KRND that finds no acceptable word leaves the port in the legal waiting state (R221). -/
theorem inv_awaitRandom {s : State} {rd : RegNum} (hr : s.RegistersLegal) (hs : s.StatusLegal) (hf : s.fault = false)
    (hd : decode s.cmd = some (.krnd rd)) : s.awaitRandom.Inv :=
  ⟨hr.awaitRandom, hs, nofun, fun _ => ⟨rfl, hf, rfl, rd, hd⟩⟩

/-- Executing the command on the port establishes the invariant from legal registers and a legal STATUS, whatever the port held. -/
theorem exec_inv {i : Instr} {s t : State} (hr : s.RegistersLegal) (hs : s.StatusLegal) (hd : decode s.cmd = some i)
    (h : exec i s = .next t) : t.Inv := by
  obtain ⟨slot, -, rfl⟩ | ⟨-, -, rfl⟩ | ⟨hf, -, ends⟩ := exec_next_cases h
  · exact inv_complete hr hs _
  · exact inv_refuse hr hs
  · cases ends with
    | completes u w hw =>
      obtain ⟨fault, cause, fcmd, -, -, -, legal⟩ := hw
      exact inv_complete (legal hr) (hs.of_eq fault cause fcmd) w
    | faults c => exact inv_takeFault hr c
    | waits rd hi => exact inv_awaitRandom hr hs hf (hi ▸ hd)

theorem runCommand_inv {s t : State} (hr : s.RegistersLegal) (hs : s.StatusLegal) (h : s.runCommand = .next t) : t.Inv := by
  obtain ⟨i, hd, he⟩ | ⟨-, -, he⟩ | ⟨-, -, he⟩ := runCommand_cases s
  · exact exec_inv hr hs hd (he.symm.trans h)
  · cases he.symm.trans h
    exact inv_takeFault hr _
  · cases he.symm.trans h
    exact inv_refuse hr hs

/-- Settles O7: each kind of step either resets, changes nothing, or runs the command on the port. -/
theorem stepKeepsInvariant : Obligations.StepKeepsInvariant := by
  intro s t hs h
  have ⟨hr, hst, _⟩ := hs
  obtain ⟨_, -, he⟩ | ⟨-, -, he⟩ | ⟨-, -, he⟩ | ⟨_, _, _, -, -, he⟩ | ⟨_, _, _, -, -, he⟩ := step_cases s
  · cases he.symm.trans h
    exact inv_afterReset _ _
  · exact runCommand_inv hr hst (he.symm.trans h)
  · cases he.symm.trans h
    exact hs
  · exact runCommand_inv (hr.take _ _ _) hst (he.symm.trans h)
  · cases he.symm.trans h
    exact inv_afterReset _ _

/-- Settles O8: reset has legal registers, and a command and a step keep them. -/
theorem commandsKeepRegistersLegal : Obligations.CommandsKeepRegistersLegal :=
  ⟨registersLegal_afterReset [] [], fun _ _ _ => exec_keeps_registersLegal, fun _ _ => step_keeps_registersLegal⟩

/-- Settles O3, from the reset values of the four files. -/
theorem resetStateValues : Obligations.ResetStateValues := by
  refine ⟨State.getB_reset, State.getE_reset, fun r j => ?_, fun r => ?_, State.getP_reset, rfl, rfl, rfl, rfl, rfl⟩
  · rw [State.getK_reset]
    revert j
    decide
  · rw [State.getK_reset]
    decide

/-- Settles O6: the reset state is the state after a reset with nothing left to do and no random words. -/
theorem invariantAtReset : Obligations.InvariantAtReset := inv_afterReset [] []

end Sys2Proof.Machine
end

/-! ### What a command that runs does, and on what it depends (O21, O22)

A command other than RDSR that is not refused does one of ten things, said once in `exec_effect`: which one, and with what
values, depends on the four register files alone, on `wdata` for a write and on the random words for KRND. The frames of the
files and of T, and the independence of T, are read off from it. -/

section
namespace Sys2Proof.Machine

open Sys2Proof

/-- What a live command other than RDSR does, with the values it writes or answers. -/
inductive Effect where
  | setB (rd : RegNum) (v : Word)
  | setE (rd : RegNum) (v : Ext5)
  | setK (rd : RegNum) (v : Scalar)
  | draw (rd : RegNum) (v : Scalar) (rest : List RandomWord)
  | setP (rd : RegNum) (v : Point)
  | setPP (rd ra : RegNum) (u v : Point)
  | test (v : Bool)
  | read (w : Word)
  | fault (c : FaultCode)
  | wait

/-- The state an effect leads to. -/
def Effect.apply (f : Effect) (s : State) : State :=
  match f with
  | .setB rd v => (s.setB rd v).complete 0
  | .setE rd v => (s.setE rd v).complete 0
  | .setK rd v => (s.setK rd v).complete 0
  | .draw rd v rest => ((s.setRnd rest).setK rd v).complete 0
  | .setP rd v => (s.setP rd v).complete 0
  | .setPP rd ra u v => ((s.setP rd u).setP ra v).complete 0
  | .test v => s.compare v
  | .read w => s.complete w
  | .fault c => s.takeFault c
  | .wait => s.awaitRandom

/-- The effects an instruction may have: it writes the registers its row of R32 names, T only if it is a test, and so on. -/
def Effect.Fits (f : Effect) (i : Instr) (s : State) : Prop :=
  match f with
  | .setB rd _ => destB i = some rd
  | .setE rd _ => destE i = some rd
  | .setK rd _ => destK i = some rd
  | .draw rd _ _ => i = .krnd rd
  | .setP rd _ => destP i = [rd]
  | .setPP rd ra _ _ => destP i = [rd, ra]
  | .test _ => isTest i = true
  | .read w => wordRead i s = some w
  | .fault _ => True
  | .wait => isKrnd i = true

/-- `s'` agrees with `s` in all that the instruction reads of a live core: the register files, the data word if it is a write
(R44) and the random words if it is KRND (R49). -/
structure SameInputs (i : Instr) (s s' : State) : Prop where
  b : ∀ r, s'.getB r = s.getB r
  e : ∀ r, s'.getE r = s.getE r
  k : ∀ r, s'.getK r = s.getK r
  p : ∀ r, s'.getP r = s.getP r
  wdata : isWrite i = true → s'.wdata = s.wdata
  rnd : isKrnd i = true → s'.rnd = s.rnd

theorem sameInputs_refl (i : Instr) (s : State) : SameInputs i s s :=
  ⟨fun _ => rfl, fun _ => rfl, fun _ => rfl, fun _ => rfl, fun _ => rfl, fun _ => rfl⟩

theorem sameInputs_setT (i : Instr) (s : State) (v : Bool) : SameInputs i s (s.setT v) :=
  ⟨fun _ => rfl, fun _ => rfl, fun _ => rfl, fun _ => rfl, fun _ => rfl, fun _ => rfl⟩

/-- The instruction has the effect `f` on the live core `s` and on every live core that agrees with it in what it reads. -/
def HasEffect (i : Instr) (s : State) (f : Effect) : Prop :=
  f.Fits i s ∧ ∀ s', SameInputs i s s' → exec i s' = live s' (f.apply s')

/-- Every command but RDSR has an effect: the case split over the instructions that the frames below are read off from. -/
theorem exec_effect (i : Instr) (s : State) (hi : isRdsr i = false) : ∃ f, HasEffect i s f := by
  cases i with
  | badd rd ra rb =>
    exact ⟨.setB rd (addP (s.getB ra) (s.getB rb)), rfl, fun s' h => by simp [exec, execBadd, Effect.apply, h.b]⟩
  | bsub rd ra rb =>
    exact ⟨.setB rd (subP (s.getB ra) (s.getB rb)), rfl, fun s' h => by simp [exec, execBsub, Effect.apply, h.b]⟩
  | bmul rd ra rb =>
    exact ⟨.setB rd (mulP (s.getB ra) (s.getB rb)), rfl, fun s' h => by simp [exec, execBmul, Effect.apply, h.b]⟩
  | bneg rd ra => exact ⟨.setB rd (negP (s.getB ra)), rfl, fun s' h => by simp [exec, execBneg, Effect.apply, h.b]⟩
  | binv rd ra =>
    by_cases hz : s.getB ra = 0
    · exact ⟨.fault .divisionByZero, trivial, fun s' h => by simp [exec, execBinv, Effect.apply, h.b, hz]⟩
    · exact ⟨.setB rd (invP (s.getB ra)), rfl, fun s' h => by simp only [exec, execBinv, Effect.apply, h.b, if_neg hz]⟩
  | bdiv rd ra rb =>
    by_cases hz : s.getB rb = 0
    · exact ⟨.fault .divisionByZero, trivial, fun s' h => by simp [exec, execBdiv, Effect.apply, h.b, hz]⟩
    · exact ⟨.setB rd (mulP (s.getB ra) (invP (s.getB rb))), rfl, fun s' h => by
        simp only [exec, execBdiv, Effect.apply, h.b, if_neg hz]⟩
  | beq ra rb => exact ⟨.test (s.getB ra == s.getB rb), rfl, fun s' h => by simp [exec, execBeq, Effect.apply, h.b]⟩
  | bmov rd ra => exact ⟨.setB rd (s.getB ra), rfl, fun s' h => by simp [exec, execBmov, Effect.apply, h.b]⟩
  | eadd rd ra rb =>
    exact ⟨.setE rd (eAdd (s.getE ra) (s.getE rb)), rfl, fun s' h => by simp [exec, execEadd, Effect.apply, h.e]⟩
  | esub rd ra rb =>
    exact ⟨.setE rd (eSub (s.getE ra) (s.getE rb)), rfl, fun s' h => by simp [exec, execEsub, Effect.apply, h.e]⟩
  | emul rd ra rb =>
    exact ⟨.setE rd (eMul (s.getE ra) (s.getE rb)), rfl, fun s' h => by simp [exec, execEmul, Effect.apply, h.e]⟩
  | esqr rd ra => exact ⟨.setE rd (eSqr (s.getE ra)), rfl, fun s' h => by simp [exec, execEsqr, Effect.apply, h.e]⟩
  | eneg rd ra => exact ⟨.setE rd (eNeg (s.getE ra)), rfl, fun s' h => by simp [exec, execEneg, Effect.apply, h.e]⟩
  | einv rd ra =>
    by_cases hz : s.getE ra = Ext5.zero
    · exact ⟨.fault .divisionByZero, trivial, fun s' h => by simp [exec, execEinv, Effect.apply, h.e, hz]⟩
    · exact ⟨.setE rd (eInv (s.getE ra)), rfl, fun s' h => by simp [exec, execEinv, Effect.apply, h.e, hz]⟩
  | eeq ra rb => exact ⟨.test (eEq (s.getE ra) (s.getE rb)), rfl, fun s' h => by simp [exec, execEeq, Effect.apply, h.e]⟩
  | emov rd ra => exact ⟨.setE rd (s.getE ra), rfl, fun s' h => by simp [exec, execEmov, Effect.apply, h.e]⟩
  | efromb rd ra => exact ⟨.setE rd (eFrom (s.getB ra)), rfl, fun s' h => by simp [exec, execEfromb, Effect.apply, h.b]⟩
  | emuli rd ra imm8 =>
    exact ⟨.setE rd (eMuli (s.getE ra) (immValue imm8)), rfl, fun s' h => by simp [exec, execEmuli, Effect.apply, h.e]⟩
  | kred rd ra => exact ⟨.setK rd (kReduce (s.getK ra)), rfl, fun s' h => by simp [exec, execKred, Effect.apply, h.k]⟩
  | keq ra rb => exact ⟨.test (kEq (s.getK ra) (s.getK rb)), rfl, fun s' h => by simp [exec, execKeq, Effect.apply, h.k]⟩
  | krnd rd =>
    cases hw : drawKey s.rnd with
    | none => exact ⟨.wait, rfl, fun s' h => by simp [exec, execKrnd, Effect.apply, h.rnd rfl, hw]⟩
    | some w =>
      obtain ⟨c, rest⟩ := w
      exact ⟨.draw rd (limbs c) rest, rfl, fun s' h => by simp [exec, execKrnd, Effect.apply, h.rnd rfl, hw]⟩
  | kmov rd ra => exact ⟨.setK rd (s.getK ra), rfl, fun s' h => by simp [exec, execKmov, Effect.apply, h.k]⟩
  | padd rd ra rb =>
    cases hR : ptAdd (s.getP ra) (s.getP rb) with
    | none => exact ⟨.fault .divisionByZero, trivial, fun s' h => by simp [exec, execPadd, Effect.apply, h.p, hR]⟩
    | some R => exact ⟨.setP rd R, rfl, fun s' h => by simp [exec, execPadd, Effect.apply, h.p, hR]⟩
  | pdbl rd ra =>
    cases hR : ptDbl (s.getP ra) with
    | none => exact ⟨.fault .divisionByZero, trivial, fun s' h => by simp [exec, execPdbl, Effect.apply, h.p, hR]⟩
    | some R => exact ⟨.setP rd R, rfl, fun s' h => by simp [exec, execPdbl, Effect.apply, h.p, hR]⟩
  | pneg rd ra => exact ⟨.setP rd (ptNeg (s.getP ra)), rfl, fun s' h => by simp [exec, execPneg, Effect.apply, h.p]⟩
  | peq ra rb => exact ⟨.test (ptEq (s.getP ra) (s.getP rb)), rfl, fun s' h => by simp [exec, execPeq, Effect.apply, h.p]⟩
  | pmul rd ra rb =>
    cases hR : ptMul (s.getP ra) (s.getK rb).val with
    | none => exact ⟨.fault .divisionByZero, trivial, fun s' h => by simp [exec, execPmul, Effect.apply, h.p, h.k, hR]⟩
    | some R => exact ⟨.setP rd R, rfl, fun s' h => by simp [exec, execPmul, Effect.apply, h.p, h.k, hR]⟩
  | pchk ra =>
    cases hc : onCurve (s.getP ra) with
    | true => exact ⟨.test true, rfl, fun s' h => by simp [exec, execPchk, Effect.apply, h.p, hc]⟩
    | false => exact ⟨.fault .invalidPoint, trivial, fun s' h => by simp [exec, execPchk, Effect.apply, h.p, hc]⟩
  | pgen rd => exact ⟨.setP rd generator, rfl, fun _ _ => rfl⟩
  | pmov rd ra => exact ⟨.setP rd (s.getP ra), rfl, fun s' h => by simp [exec, execPmov, Effect.apply, h.p]⟩
  | gpub rd ra =>
    cases hR : ptMul generator (s.getK ra).val with
    | none => exact ⟨.fault .divisionByZero, trivial, fun s' h => by simp [exec, execGpub, Effect.apply, h.k, hR]⟩
    | some R => exact ⟨.setP rd R, rfl, fun s' h => by simp [exec, execGpub, Effect.apply, h.k, hR]⟩
  | genc rd ra rb rc re =>
    by_cases hne : rd = ra
    · exact ⟨.fault .illegalCommand, trivial, fun s' h => by simp [exec, execGenc, Effect.apply, hne]⟩
    cases hR : encrypt (s.getP rb) (s.getP rc) (s.getK re).val with
    | none => exact ⟨.fault .divisionByZero, trivial, fun s' h => by simp [exec, execGenc, Effect.apply, h.p, h.k, hne, hR]⟩
    | some R => exact ⟨.setPP rd ra R.1 R.2, rfl, fun s' h => by simp [exec, execGenc, Effect.apply, h.p, h.k, hne, hR]⟩
  | grmk rd ra rb rc re rf =>
    by_cases hne : rd = ra
    · exact ⟨.fault .illegalCommand, trivial, fun s' h => by simp [exec, execGrmk, Effect.apply, hne]⟩
    cases hR : remask (s.getP rb) (s.getP rc) (s.getP re) (s.getK rf).val with
    | none => exact ⟨.fault .divisionByZero, trivial, fun s' h => by simp [exec, execGrmk, Effect.apply, h.p, h.k, hne, hR]⟩
    | some R => exact ⟨.setPP rd ra R.1 R.2, rfl, fun s' h => by simp [exec, execGrmk, Effect.apply, h.p, h.k, hne, hR]⟩
  | gdec rd ra rb rc =>
    cases hR : decrypt (s.getK ra).val (s.getP rb) (s.getP rc) with
    | none => exact ⟨.fault .divisionByZero, trivial, fun s' h => by simp [exec, execGdec, Effect.apply, h.p, h.k, hR]⟩
    | some R => exact ⟨.setP rd R, rfl, fun s' h => by simp [exec, execGdec, Effect.apply, h.p, h.k, hR]⟩
  | wrb r => exact ⟨.setB r (fromInt64 s.wdata), rfl, fun s' h => by simp [exec, execWrb, Effect.apply, h.wdata rfl]⟩
  | rdb r => exact ⟨.read (s.getB r), rfl, fun s' h => by simp [exec, execRdb, Effect.apply, h.b]⟩
  | wre r slot =>
    exact ⟨.setE r ((s.getE r).setCoeff slot (fromInt64 s.wdata)), rfl, fun s' h => by
      simp [exec, execWre, State.writeE, Effect.apply, h.e, h.wdata rfl]⟩
  | rde r slot => exact ⟨.read (s.readE r slot), rfl, fun s' h => by simp [exec, execRde, State.readE, Effect.apply, h.e]⟩
  | wrk r slot =>
    cases hf : limbFits s.wdata with
    | true =>
      exact ⟨.setK r ((s.getK r).setLimb slot (limbOfWord s.wdata)), rfl, fun s' h => by
        simp [exec, execWrk, State.writeK, Effect.apply, h.k, h.wdata rfl, hf]⟩
    | false => exact ⟨.fault .invalidScalarLength, trivial, fun s' h => by simp [exec, execWrk, Effect.apply, h.wdata rfl, hf]⟩
  | rdk r slot => exact ⟨.read (s.readK r slot), rfl, fun s' h => by simp [exec, execRdk, State.readK, Effect.apply, h.k]⟩
  | wrp r slot =>
    cases hf : pointWordFits slot s.wdata with
    | true =>
      exact ⟨.setP r ((s.getP r).setSlot slot s.wdata), rfl, fun s' h => by
        simp [exec, execWrp, State.writeP, Effect.apply, h.p, h.wdata rfl, hf]⟩
    | false => exact ⟨.fault .invalidPoint, trivial, fun s' h => by simp [exec, execWrp, Effect.apply, h.wdata rfl, hf]⟩
  | rdp r slot => exact ⟨.read (s.readP r slot), rfl, fun s' h => by simp [exec, execRdp, State.readP, Effect.apply, h.p]⟩
  | rdsr slot => cases hi

theorem isRdsr_eq_false {i : Instr} (h : ∀ slot, i ≠ .rdsr slot) : isRdsr i = false := by
  cases i with
  | rdsr slot => exact absurd rfl (h slot)
  | _ => rfl

/-- What a command answers, with its effect when it runs. -/
theorem exec_next_effect {i : Instr} {s t : State} (h : exec i s = .next t) :
    (∃ slot, i = .rdsr slot ∧ t = s.complete (s.statusRead slot)) ∨
    (isRdsr i = false ∧ s.fault = true ∧ t = s.refuse) ∨
    (isRdsr i = false ∧ s.fault = false ∧ ∃ f, HasEffect i s f ∧ t = f.apply s) := by
  obtain ⟨slot, hi, ht⟩ | ⟨hf, hi, ht⟩ | ⟨hf, hi, -⟩ := exec_next_cases h
  · exact .inl ⟨slot, hi, ht⟩
  · exact .inr (.inl ⟨isRdsr_eq_false hi, hf, ht⟩)
  · obtain ⟨f, fits, run⟩ := exec_effect i s (isRdsr_eq_false hi)
    rw [run s (sameInputs_refl i s), live_of_not_fault hf] at h
    cases h
    exact .inr (.inr ⟨isRdsr_eq_false hi, hf, f, ⟨fits, run⟩, rfl⟩)

/-! ### The files a command writes (O22) -/

section Frames

variable {f : Effect} {i : Instr} {s : State} (hf : f.Fits i s) (u : State) {r : RegNum}

include hf

theorem Effect.Fits.getB_eq (hr : destB i ≠ some r) : (f.apply u).getB r = u.getB r := by
  cases f with
  | setB rd v => exact u.getB_setB_ne rd r v fun h => hr (h ▸ hf)
  | _ => rfl

theorem Effect.Fits.getE_eq (hr : destE i ≠ some r) : (f.apply u).getE r = u.getE r := by
  cases f with
  | setE rd v => exact u.getE_setE_ne rd r v fun h => hr (h ▸ hf)
  | _ => rfl

theorem Effect.Fits.getK_eq (hr : destK i ≠ some r) : (f.apply u).getK r = u.getK r := by
  cases f with
  | setK rd v => exact u.getK_setK_ne rd r v fun h => hr (h ▸ hf)
  | draw rd v rest =>
    cases hf
    exact (u.setRnd rest).getK_setK_ne rd r v fun h => hr (h ▸ rfl)
  | _ => rfl

theorem Effect.Fits.getP_eq (hr : r ∉ destP i) : (f.apply u).getP r = u.getP r := by
  cases f with
  | setP rd v =>
    have hd : destP i = [rd] := hf
    exact u.getP_setP_ne rd r v (by simpa [hd] using hr)
  | setPP rd ra v w =>
    have hd : destP i = [rd, ra] := hf
    have ⟨hrd, hra⟩ : r ≠ rd ∧ r ≠ ra := by simpa [hd] using hr
    exact ((u.setP rd v).getP_setP_ne ra r w hra).trans (u.getP_setP_ne rd r v hrd)
  | _ => rfl

end Frames

/-- A command changes no register but its destinations (R32). -/
theorem exec_frame {i : Instr} {s t : State} (h : exec i s = .next t) :
    (∀ r, destB i ≠ some r → t.getB r = s.getB r) ∧ (∀ r, destE i ≠ some r → t.getE r = s.getE r) ∧
    (∀ r, destK i ≠ some r → t.getK r = s.getK r) ∧ (∀ r, r ∉ destP i → t.getP r = s.getP r) := by
  obtain ⟨slot, -, rfl⟩ | ⟨-, -, rfl⟩ | ⟨-, -, f, ⟨fits, -⟩, rfl⟩ := exec_next_effect h
  · exact ⟨fun _ _ => rfl, fun _ _ => rfl, fun _ _ => rfl, fun _ _ => rfl⟩
  · exact ⟨fun _ _ => rfl, fun _ _ => rfl, fun _ _ => rfl, fun _ _ => rfl⟩
  · exact ⟨fun _ => fits.getB_eq s, fun _ => fits.getE_eq s, fun _ => fits.getK_eq s, fun _ => fits.getP_eq s⟩

/-- A command that does not complete with err 0 leaves the four files and T as they are. -/
theorem exec_not_completed {i : Instr} {s t : State} (h : exec i s = .next t) (hn : ¬ ∃ w, t.rsp = some ⟨0, w⟩) :
    (∀ r, t.getB r = s.getB r) ∧ (∀ r, t.getE r = s.getE r) ∧ (∀ r, t.getK r = s.getK r) ∧ (∀ r, t.getP r = s.getP r) ∧
    t.t = s.t := by
  obtain ⟨slot, -, rfl⟩ | ⟨-, -, rfl⟩ | ⟨-, -, ends⟩ := exec_next_cases h
  · exact absurd ⟨_, rfl⟩ hn
  · exact ⟨fun _ => rfl, fun _ => rfl, fun _ => rfl, fun _ => rfl, rfl⟩
  · cases ends with
    | completes u w => exact absurd ⟨w, rfl⟩ hn
    | faults c => exact ⟨fun _ => rfl, fun _ => rfl, fun _ => rfl, fun _ => rfl, rfl⟩
    | waits => exact ⟨fun _ => rfl, fun _ => rfl, fun _ => rfl, fun _ => rfl, rfl⟩

/-- FAULT, CAUSE and FCMD change on fault entry only (R195, R196). -/
theorem exec_status {i : Instr} {s t : State} (h : exec i s = .next t) :
    (t.fault = s.fault ∧ t.cause = s.cause ∧ t.fcmd = s.fcmd) ∨ (s.Live ∧ ∃ c : FaultCode, FaultEntered s t c.code) := by
  obtain ⟨slot, -, rfl⟩ | ⟨-, -, rfl⟩ | ⟨hf, -, ends⟩ := exec_next_cases h
  · exact .inl ⟨rfl, rfl, rfl⟩
  · exact .inl ⟨rfl, rfl, rfl⟩
  · cases ends with
    | completes u w hw =>
      obtain ⟨fault, cause, fcmd, -⟩ := hw
      exact .inl ⟨fault, cause, fcmd⟩
    | faults c => exact .inr ⟨hf, c, faultEntered_takeFault s c⟩
    | waits => exact .inl ⟨rfl, rfl, rfl⟩

/-- Settles O22: a command that runs writes its destinations only, and one that does not complete writes none. -/
theorem filesWritten : Obligations.FilesWritten := by
  refine ⟨fun _ _ _ => exec_frame, fun i s t h hn => ?_, fun _ _ _ => exec_status⟩
  obtain ⟨hb, he, hk, hp, -⟩ := exec_not_completed h hn
  exact ⟨hb, he, hk, hp⟩

/-! ### The test flag (O21) -/

theorem Effect.Fits.t_eq {f : Effect} {i : Instr} {s : State} (hf : f.Fits i s) (hi : isTest i = false) (u : State) :
    (f.apply u).t = u.t := by
  cases f with
  | test v =>
    have ht : isTest i = true := hf
    simp [hi] at ht
  | _ => rfl

/-- The five tests compare or fault, and do nothing else: they have no destination and read out no word. -/
theorem Effect.Fits.of_isTest {f : Effect} {i : Instr} {s : State} (hf : f.Fits i s) (hi : isTest i = true) :
    (∃ v, f = .test v) ∨ ∃ c, f = .fault c := by
  cases f with
  | test v => exact .inl ⟨v, rfl⟩
  | fault c => exact .inr ⟨c, rfl⟩
  | _ => cases i <;> cases hi <;> cases hf

/-- No effect depends on the old T, except that a command that is no test keeps it. -/
theorem Effect.apply_setT (f : Effect) (s : State) (b : Bool) :
    (f.apply (s.setT b)).setT false = (f.apply s).setT false := by
  cases f <;> rfl

theorem t_of_live_compare {s t : State} {v : Bool} (hs : s.Live) (h : live s (s.compare v) = .next t) : t.t = v := by
  rw [live_of_not_fault hs] at h
  cases h
  rfl

theorem exec_t_of_not_test {i : Instr} {s t : State} (h : exec i s = .next t) (hi : isTest i = false) : t.t = s.t := by
  obtain ⟨slot, -, rfl⟩ | ⟨-, -, rfl⟩ | ⟨-, -, f, ⟨fits, -⟩, rfl⟩ := exec_next_effect h
  · rfl
  · rfl
  · exact fits.t_eq hi s

/-- PCHK is refused, sets T, or takes InvalidPoint (R146). -/
theorem exec_pchk_cases {ra : RegNum} {s t : State} (h : exec (.pchk ra) s = .next t) :
    t = s.refuse ∨ t = s.compare true ∨ t = s.takeFault .invalidPoint := by
  simp only [exec, execPchk, live, Host.Outcome.next.injEq] at h
  split at h
  · exact .inl h.symm
  · split at h
    · exact .inr (.inl h.symm)
    · exact .inr (.inr h.symm)

theorem exec_t_of_err {i : Instr} {s t : State} {r : Response} (h : exec i s = .next t) (hr : t.rsp = some r)
    (he : r.err ≠ 0) : t.t = s.t := by
  obtain ⟨-, -, -, -, ht⟩ := exec_not_completed h fun ⟨w, hw⟩ => he (by cases hr.symm.trans hw; rfl)
  exact ht

/-- Any command but RDSR does the same whatever T was, up to T itself, and a test that completes gives the same T. -/
theorem exec_setT {i : Instr} {s t : State} (b : Bool) (hi : isRdsr i = false) (h : exec i s = .next t) :
    ∃ u, exec i (s.setT b) = .next u ∧ u.setT false = t.setT false ∧
      (isTest i = true → ∀ w, t.rsp = some ⟨0, w⟩ → u.t = t.t) := by
  obtain ⟨f, fits, run⟩ := exec_effect i s hi
  have run' := run _ (sameInputs_setT i s b)
  rw [run s (sameInputs_refl i s)] at h
  cases hf : s.fault with
  | true =>
    rw [live_of_fault hf] at h
    cases h
    exact ⟨_, run'.trans (live_of_fault (s := s.setT b) hf _), rfl, fun _ w hw => by simp [haltedCode] at hw⟩
  | false =>
    rw [live_of_not_fault hf] at h
    cases h
    refine ⟨_, run'.trans (live_of_not_fault (s := s.setT b) hf _), f.apply_setT s b, fun ht w hw => ?_⟩
    obtain ⟨v, rfl⟩ | ⟨c, rfl⟩ := fits.of_isTest ht
    · rfl
    · exact absurd (congrArg Response.err (Option.some.inj hw)) c.code_ne_zero

/-- T is in bit 0 of STATUS and in no other (R27). -/
theorem statusWord_setT_getLsbD (s : State) (b : Bool) {n : Nat} (hn : 1 ≤ n) :
    (s.setT b).statusWord.getLsbD n = s.statusWord.getLsbD n := by
  obtain ⟨m, rfl⟩ : ∃ m, n = m + 1 := ⟨n - 1, by omega⟩
  have half (c : Bool) : (c.toNat + s.fault.toNat * 2 + s.cause.toNat * 2 ^ 4) / 2 = s.fault.toNat + s.cause.toNat * 2 ^ 3 := by
    have := c.toNat_le
    omega
  simp only [State.statusWord, BitVec.getLsbD_ofNat, Nat.testBit_succ, State.setT_t, State.setT_fault, State.setT_cause, half]

/-- What T changes in what RDSR answers: bit 0 of STATUS (R26, R27, R28). -/
theorem statusRead_setT (s : State) (b : Bool) (slot : Fin 2) :
    (slot = 1 → s.statusRead slot = (s.setT b).statusRead slot) ∧
    ∀ n, 1 ≤ n → (s.statusRead slot).getLsbD n = ((s.setT b).statusRead slot).getLsbD n := by
  match slot with
  | 0 => exact ⟨nofun, fun n hn => (statusWord_setT_getLsbD s b hn).symm⟩
  | 1 => exact ⟨fun _ => rfl, fun _ _ => rfl⟩

/-- Settles O21: who writes T and to what, that a fault leaves it, and that only RDSR's STATUS shows it. -/
theorem testFlagUse : Obligations.TestFlagUse := by
  refine ⟨fun _ _ _ => exec_t_of_not_test, ?beq, ?eeq, ?keq, ?peq, ?pchk, ?pchkDone, fun _ _ _ _ => exec_t_of_err,
    fun _ _ _ => exec_setT, ?rdsr⟩
  case beq => intro ra rb s t hs h; rw [t_of_live_compare hs h, beq_iff_eq]
  case eeq => intro ra rb s t hs h; rw [t_of_live_compare hs h, eEq_iff]
  case keq => intro ra rb s t hs h; rw [t_of_live_compare hs h, kEq_iff]
  case peq => intro ra rb s t hs h; rw [t_of_live_compare hs h]
  case pchk =>
    intro ra s t h
    obtain rfl | rfl | rfl := exec_pchk_cases h
    exacts [.inl rfl, .inr rfl, .inl rfl]
  case pchkDone =>
    intro ra s t _ h hr
    obtain rfl | rfl | rfl := exec_pchk_cases h
    · cases hr
    · rfl
    · cases hr
  case rdsr =>
    intro slot s t u b ht hu
    cases ht
    cases hu
    obtain ⟨fcmd, bits⟩ := statusRead_setT s b slot
    exact ⟨_, _, rfl, rfl, fcmd, bits, rfl⟩

end Sys2Proof.Machine
end

/-! ### The port: how a command runs, what it answers, and what it reads (O1, O19, O20, O23)

A command gives one response or is a KRND that waits (`exec_next_cases`), and whether the data word or the random words are read
is told by its effect (`exec_next_effect`): the same effect applied to a state that differs in them only. -/

section
namespace Sys2Proof.Machine

open Sys2Proof

/-! ### Steps and the decoded command (O1) -/

theorem runCommand_of_decode {s : State} {i : Instr} (h : decode s.cmd = some i) : s.runCommand = exec i s := by
  simp [State.runCommand, h]

/-- With a command in flight, whatever the host would do but a reset, the command goes on (R41, R210). -/
theorem step_busy {s : State} (hb : s.busy = true) (hh : ∀ rest, s.host ≠ .reset :: rest) : step s = s.runCommand := by
  obtain ⟨rest, hr, -⟩ | ⟨-, -, he⟩ | ⟨hn, -⟩ | ⟨_, _, _, hn, -⟩ | ⟨_, _, _, hn, -⟩ := step_cases s
  · exact absurd hr (hh rest)
  · exact he
  all_goals exact absurd (hn.symm.trans hb) nofun

theorem step_idle {s : State} (hb : s.busy = false) (hh : s.host = []) : step s = .next s := by
  simp [step, State.hostStep, hb, hh]

/-- Settles O1: a ready core takes the host's command or idles, a busy one goes on. -/
theorem stepRunsDecodedCommand : Obligations.StepRunsDecodedCommand :=
  ⟨fun _ _ _ _ _ hb hh hd => (step_command hb hh).trans (runCommand_of_decode hd),
    fun _ => step_idle,
    fun _ _ hb hh hd => (step_busy hb hh).trans (runCommand_of_decode hd)⟩

/-! ### One response each (O19) -/

/-- What KRND answers: a refusal, the first acceptable word's scalar, or the wait (R125, R197, R221). -/
theorem exec_krnd_cases {rd : RegNum} {s t : State} (h : exec (.krnd rd) s = .next t) :
    t = s.refuse ∨
    (∃ c rest, drawKey s.rnd = some (c, rest) ∧ t = ((s.setRnd rest).setK rd (limbs c)).complete 0) ∨
    (drawKey s.rnd = none ∧ t = s.awaitRandom) := by
  simp only [exec, execKrnd, live, Host.Outcome.next.injEq] at h
  split at h
  · exact .inl h.symm
  · split at h
    case h_1 c rest hd => exact .inr (.inl ⟨c, rest, hd, h.symm⟩)
    case h_2 hd => exact .inr (.inr ⟨hd, h.symm⟩)

theorem exec_krnd_waits {rd : RegNum} {s : State} (hf : s.fault = false) (hd : drawKey s.rnd = none) :
    exec (.krnd rd) s = .next s.awaitRandom := by
  simp [exec, execKrnd, live_of_not_fault hf, hd]

/-- A core that waits for the random source is where waiting puts it. -/
theorem awaitRandom_eq_self {s : State} (hb : s.busy = true) (hr : s.rsp = none) (hw : s.rnd = []) : s.awaitRandom = s := by
  cases s
  cases hb
  cases hr
  cases hw
  rfl

/-- A command answers, or it is a KRND on a live core whose source has no acceptable word left, and it waits (R42, R221). -/
theorem exec_answers_or_waits {i : Instr} {s t : State} (h : exec i s = .next t) :
    (t.busy = false ∧ ∃ r, t.rsp = some r) ∨
    (s.fault = false ∧ (∃ rd, i = .krnd rd) ∧ drawKey s.rnd = none ∧ t = s.awaitRandom) := by
  obtain ⟨slot, -, rfl⟩ | ⟨-, -, rfl⟩ | ⟨hf, -, ends⟩ := exec_next_cases h
  · exact .inl ⟨rfl, _, rfl⟩
  · exact .inl ⟨rfl, _, rfl⟩
  · cases ends with
    | completes u w => exact .inl ⟨rfl, _, rfl⟩
    | faults c => exact .inl ⟨rfl, _, rfl⟩
    | waits rd hi hd => exact .inr ⟨hf, ⟨rd, hi⟩, hd, rfl⟩

/-- The same of the word on the port: an illegal one is always answered (R194, R197). -/
theorem runCommand_answers_or_waits {s t : State} (h : s.runCommand = .next t) :
    (t.busy = false ∧ ∃ r, t.rsp = some r) ∨
    (s.fault = false ∧ (∃ rd, decode s.cmd = some (.krnd rd)) ∧ drawKey s.rnd = none ∧ t = s.awaitRandom) := by
  obtain ⟨i, hi, he⟩ | ⟨-, -, he⟩ | ⟨-, -, he⟩ := runCommand_cases s
  · refine (exec_answers_or_waits (he.symm.trans h)).imp_right ?_
    rintro ⟨hf, ⟨rd, rfl⟩, hd, ht⟩
    exact ⟨hf, ⟨rd, hi⟩, hd, ht⟩
  · cases he.symm.trans h
    exact .inl ⟨rfl, _, rfl⟩
  · cases he.symm.trans h
    exact .inl ⟨rfl, _, rfl⟩

/-- A waiting KRND stays as it is until a reset (R221). -/
theorem step_waiting {s : State} (hp : s.PortLegal) (hb : s.busy = true) (hh : ∀ rest, s.host ≠ .reset :: rest) :
    step s = .next s := by
  obtain ⟨hr, hf, hw, rd, hd⟩ := hp.2 hb
  have none_left : drawKey s.rnd = none := by rw [hw]; rfl
  rw [step_busy hb hh, runCommand_of_decode hd, exec_krnd_waits hf none_left, awaitRandom_eq_self hb hr hw]

/-- Settles O19: the command taken answers or waits, and a waiting one goes on waiting. -/
theorem oneResponseEach : Obligations.OneResponseEach := by
  refine ⟨fun s t cmd wdata rest hb hh h => ?_, fun _ => step_waiting⟩
  refine (runCommand_answers_or_waits ((step_command hb hh).symm.trans h)).imp_right ?_
  rintro ⟨hf, hi, hd, rfl⟩
  exact ⟨hf, hi, (drawKey_eq_none_iff s.rnd).1 hd, rfl, rfl, rfl, fun _ => rfl, fun _ => rfl, fun _ => rfl, fun _ => rfl, rfl, hf⟩

/-! ### A command run on a state that agrees in what it reads -/

theorem exec_halted {i : Instr} {s : State} (hi : isRdsr i = false) (hf : s.fault = true) : exec i s = .next s.refuse := by
  obtain ⟨f, -, run⟩ := exec_effect i s hi
  rw [run s (sameInputs_refl i s), live_of_fault hf]

theorem HasEffect.exec_live {i : Instr} {s s' : State} {f : Effect} (h : HasEffect i s f) (hs : SameInputs i s s')
    (hf : s'.fault = false) : exec i s' = .next (f.apply s') := by
  obtain ⟨-, run⟩ := h
  rw [run s' hs, live_of_not_fault hf]

/-! ### The data word and rdata (O20) -/

/-- The core with another data word on its port (R44). -/
def State.setWdata (s : State) (w : Word) : State := { s with wdata := w }

theorem sameInputs_setWdata {i : Instr} (hi : isWrite i = false) (s : State) (w : Word) : SameInputs i s (s.setWdata w) :=
  ⟨fun _ => rfl, fun _ => rfl, fun _ => rfl, fun _ => rfl, fun h => absurd (hi.symm.trans h) nofun, fun _ => rfl⟩

theorem Effect.apply_setWdata (f : Effect) (s : State) (w : Word) : f.apply (s.setWdata w) = (f.apply s).setWdata w := by
  cases f <;> rfl

/-- A command that is no write does the same whatever the data word is (R44). -/
theorem exec_setWdata {i : Instr} {s t : State} (w : Word) (hi : isWrite i = false) (h : exec i s = .next t) :
    exec i (s.setWdata w) = .next (t.setWdata w) := by
  obtain ⟨slot, rfl, rfl⟩ | ⟨hn, hf, rfl⟩ | ⟨-, hf, f, eff, rfl⟩ := exec_next_effect h
  · rfl
  · exact exec_halted hn hf
  · rw [eff.exec_live (sameInputs_setWdata hi s w) hf, f.apply_setWdata]

theorem exec_rsp_legal {i : Instr} {s t : State} {r : Response} (h : exec i s = .next t) (hr : t.rsp = some r) : r.Legal := by
  obtain ⟨slot, -, rfl⟩ | ⟨-, -, rfl⟩ | ⟨-, -, ends⟩ := exec_next_cases h
  · cases hr
    exact legal_completed _
  · cases hr
    exact legal_refused
  · cases ends with
    | completes u w =>
      cases hr
      exact legal_completed w
    | faults c =>
      cases hr
      exact legal_faulted c
    | waits => cases hr

/-- A command that reads out a word does that or faults, and nothing else: it has no destination and is no test. -/
theorem Effect.Fits.of_wordRead {f : Effect} {i : Instr} {s : State} {w : Word} (hf : f.Fits i s) (hi : wordRead i s = some w) :
    f = .read w ∨ ∃ c, f = .fault c := by
  cases f with
  | read v => exact .inl (congrArg Effect.read (Option.some.inj (Eq.trans (Eq.symm hf) hi)))
  | fault c => exact .inr ⟨c, rfl⟩
  | _ => cases i <;> cases hi <;> cases hf

/-- The data word an effect answers when it completes: the word read, the flag tested, else 0 (R44). -/
def Effect.rdata : Effect → Word
  | .read w => w
  | .test v => flagWord v
  | _ => 0

/-- Only a completed effect answers err 0, with its data word; a fault has a code and a wait no response. -/
theorem Effect.rsp_of_err_zero {f : Effect} {s : State} {r : Response} (hr : (f.apply s).rsp = some r) (he : r.err = 0) :
    (∀ c, f ≠ .fault c) ∧ r.rdata = f.rdata := by
  cases f with
  | fault c =>
    cases hr
    exact absurd he c.code_ne_zero
  | wait => cases hr
  | _ =>
    cases hr
    exact ⟨nofun, rfl⟩

/-- The data word of a command that completes with err 0 (R44). -/
theorem exec_rdata {i : Instr} {s t : State} {r : Response} (h : exec i s = .next t) (hr : t.rsp = some r) (he : r.err = 0) :
    (∀ w, wordRead i s = some w → r.rdata = w) ∧ (isTest i = true → r.rdata.toNat = t.t.toNat) ∧
    (wordRead i s = none → isTest i = false → r.rdata = 0) := by
  obtain ⟨slot, rfl, rfl⟩ | ⟨-, -, rfl⟩ | ⟨-, -, f, ⟨fits, -⟩, rfl⟩ := exec_next_effect h
  · cases hr
    exact ⟨fun w hw => Option.some.inj hw, nofun, nofun⟩
  · cases hr
    exact absurd he nofun
  · obtain ⟨no_fault, rdata⟩ := Effect.rsp_of_err_zero hr he
    rw [rdata]
    refine ⟨fun w hw => ?read, fun ht => ?test, fun hw ht => ?other⟩
    case read =>
      obtain rfl | ⟨c, rfl⟩ := fits.of_wordRead hw
      · rfl
      · exact absurd rfl (no_fault c)
    case test =>
      obtain ⟨v, rfl⟩ | ⟨c, rfl⟩ := fits.of_isTest ht
      · exact flagWord_toNat v
      · exact absurd rfl (no_fault c)
    case other =>
      cases f with
      | read w => exact absurd (hw.symm.trans fits) nofun
      | test v => exact absurd (ht.symm.trans fits) nofun
      | _ => rfl

/-- An illegal word on the port is answered with rdata 0 (R194, R197). -/
theorem runCommand_illegal_rdata {s t : State} {r : Response} (hd : decode s.cmd = none) (h : s.runCommand = .next t)
    (hr : t.rsp = some r) : r.rdata = 0 := by
  obtain ⟨i, hi, -⟩ | ⟨-, -, he⟩ | ⟨-, -, he⟩ := runCommand_cases s
  · exact absurd (hd.symm.trans hi) nofun
  · cases he.symm.trans h
    cases hr
    rfl
  · cases he.symm.trans h
    cases hr
    rfl

/-- Settles O20: no command but a write reads the data word, and rdata is what the command's effect answers. -/
theorem dataWordUse : Obligations.DataWordUse := by
  refine ⟨fun i s t w => exec_setWdata w, fun i s t r h hr he => ?_, fun i s t r => exec_rdata,
    fun s t cmd wdata rest r hb hh hd h => ?_⟩
  · obtain ⟨-, rdata_zero⟩ := exec_rsp_legal h hr
    exact rdata_zero he
  · exact runCommand_illegal_rdata (s := s.take cmd wdata rest) hd ((step_command hb hh).symm.trans h)

/-! ### The random words (O23) -/

theorem sameInputs_setRnd {i : Instr} (hi : isKrnd i = false) (s : State) (ws : List RandomWord) : SameInputs i s (s.setRnd ws) :=
  ⟨fun _ => rfl, fun _ => rfl, fun _ => rfl, fun _ => rfl, fun _ => rfl, fun h => absurd (hi.symm.trans h) nofun⟩

/-- The effects of a command that is no KRND neither draw nor wait, and carry any list of random words along (R49). -/
theorem Effect.Fits.apply_setRnd {f : Effect} {i : Instr} {s : State} (hf : f.Fits i s) (hi : isKrnd i = false) (u : State) :
    (f.apply u).busy = false ∧ ∀ ws, f.apply (u.setRnd ws) = (f.apply u).setRnd ws := by
  cases f with
  | draw rd v rest =>
    cases hf
    cases hi
  | wait => exact absurd (hi.symm.trans hf) nofun
  | _ => exact ⟨rfl, fun _ => rfl⟩

/-- A command that is no KRND asks for no random word and does the same whatever the words are (R49). -/
theorem exec_setRnd {i : Instr} {s t : State} (hi : isKrnd i = false) (h : exec i s = .next t) :
    t.busy = false ∧ ∀ ws, exec i (s.setRnd ws) = .next (t.setRnd ws) := by
  obtain ⟨slot, rfl, rfl⟩ | ⟨hn, hf, rfl⟩ | ⟨-, hf, f, eff, rfl⟩ := exec_next_effect h
  · exact ⟨rfl, fun _ => rfl⟩
  · exact ⟨rfl, fun _ => exec_halted hn hf⟩
  · obtain ⟨ready, commutes⟩ := eff.left.apply_setRnd hi s
    refine ⟨ready, fun ws => ?_⟩
    rw [eff.exec_live (sameInputs_setRnd hi s ws) hf, commutes ws]

/-- It leaves the random words as they are: running it on the state's own words puts them back. -/
theorem exec_rnd_of_not_krnd {i : Instr} {s t : State} (hi : isKrnd i = false) (h : exec i s = .next t) : t.rnd = s.rnd := by
  obtain ⟨-, commutes⟩ := exec_setRnd hi h
  have kept : t = t.setRnd s.rnd := Host.Outcome.next.inj (h.symm.trans (commutes s.rnd))
  simpa using congrArg State.rnd kept

theorem drawKey_suffix {ws rest : List RandomWord} {c : Nat} (h : drawKey ws = some (c, rest)) : rest <:+ ws := by
  obtain ⟨pre, w, rfl, -⟩ := (drawKey_eq_some_iff ws c rest).1 h
  exact (List.suffix_cons w rest).trans (List.suffix_append pre _)

/-- KRND consumes random words from the front (R49, R125). -/
theorem exec_krnd_rnd_suffix {rd : RegNum} {s t : State} (h : exec (.krnd rd) s = .next t) : t.rnd <:+ s.rnd := by
  obtain rfl | ⟨c, rest, hd, rfl⟩ | ⟨-, rfl⟩ := exec_krnd_cases h
  · exact List.suffix_rfl
  · exact drawKey_suffix hd
  · exact List.nil_suffix

theorem exec_rnd_suffix {i : Instr} {s t : State} (h : exec i s = .next t) : t.rnd <:+ s.rnd := by
  cases hi : isKrnd i with
  | false => exact exec_rnd_of_not_krnd hi h ▸ List.suffix_rfl
  | true =>
    cases i with
    | krnd rd => exact exec_krnd_rnd_suffix h
    | _ => cases hi

theorem runCommand_rnd_suffix {s t : State} (h : s.runCommand = .next t) : t.rnd <:+ s.rnd := by
  obtain ⟨i, -, he⟩ | ⟨-, -, he⟩ | ⟨-, -, he⟩ := runCommand_cases s
  · exact exec_rnd_suffix (he.symm.trans h)
  · cases he.symm.trans h
    exact List.suffix_rfl
  · cases he.symm.trans h
    exact List.suffix_rfl

/-- No step consumes random words but from the front; a reset during a command drops those it had drawn (R49, R212). -/
theorem step_rnd_suffix {s t : State} (h : step s = .next t) : t.rnd <:+ s.rnd := by
  obtain ⟨_, -, he⟩ | ⟨-, -, he⟩ | ⟨-, -, he⟩ | ⟨_, _, _, -, -, he⟩ | ⟨_, _, _, -, -, he⟩ := step_cases s
  · cases he.symm.trans h
    exact List.suffix_rfl
  · exact runCommand_rnd_suffix (he.symm.trans h)
  · cases he.symm.trans h
    exact List.suffix_rfl
  · exact runCommand_rnd_suffix (s := s.take _ _ _) (he.symm.trans h)
  · cases he.symm.trans h
    exact List.drop_suffix _ _

/-- Settles O23: a command that is no KRND does the same on any random words, and what is left is always a suffix. -/
theorem randomPortUse : Obligations.RandomPortUse := by
  refine ⟨fun i s t ws hi h => ?_, fun _ _ _ h => (exec_krnd_rnd_suffix h).imp fun _ => Eq.symm,
    fun _ _ h => (step_rnd_suffix h).imp fun _ => Eq.symm⟩
  obtain ⟨ready, commutes⟩ := exec_setRnd hi h
  exact ⟨exec_rnd_of_not_krnd hi h, ready, commutes ws⟩

end Sys2Proof.Machine
end

/-! ### The encoding (O9, O10, O11)

The decoder inverts the encoder, format by format. In the other direction every row of R64 decides the words with its opcode byte
(`TableRow.Decides`): the word is spelt by the row and is the encoding of the row's command, or it is illegal. The rows' shapes are
proved once each, and what the table says of all words is read off from `decode_cases`. -/

section
namespace Sys2Proof

/-! ### What the decoder reads from an encoded word (O9) -/

/-- The register fields of a format R word hold its registers (R61). -/
theorem formatR_registers (op : Nat) (rd ra rb rc re rf : RegNum) (h : op < 256) :
    rdField (formatR op rd ra rb rc re rf) = rd ∧ raField (formatR op rd ra rb rc re rf) = ra ∧
    rbField (formatR op rd ra rb rc re rf) = rb ∧ rcField (formatR op rd ra rb rc re rf) = rc ∧
    reField (formatR op rd ra rb rc re rf) = re ∧ rfField (formatR op rd ra rb rc re rf) = rf := by
  obtain ⟨-, hd, ha, hb, hc, he, hf, -⟩ := formatR_fields op rd ra rb rc re rf h
  exact ⟨regField_eq hd, regField_eq ha, regField_eq hb, regField_eq hc, regField_eq he, regField_eq hf⟩

/-- The operand fields of a format I word (R62). -/
theorem formatI_operands (op : Nat) (rd ra : RegNum) (imm8 : BitVec 8) (h : op < 256) :
    rdField (formatI op rd ra imm8) = rd ∧ raField (formatI op rd ra imm8) = ra ∧ immField (formatI op rd ra imm8) = imm8 := by
  obtain ⟨-, hd, ha, -, hi⟩ := formatI_fields op rd ra imm8 h
  exact ⟨regField_eq hd, regField_eq ha, BitVec.eq_of_toNat_eq ((immField_toNat _).trans hi)⟩

theorem rdField_formatX (op : Nat) (r : RegNum) (slot : Nat) (h : op < 256) (hs : slot < 256) :
    rdField (formatX op r slot) = r := by
  obtain ⟨-, hr, -⟩ := formatX_fields op r slot h hs
  exact regField_eq hr

/-- A transfer of a window of `n` slots reads back the slot written into its word (R63). -/
theorem transfer_formatX (op : Nat) (r : RegNum) {n : Nat} (slot : Fin n) (mk : Fin n → Instr) (h : op < 256) (hn : n ≤ 256) :
    transfer (formatX op r slot) n mk = some (mk slot) := by
  obtain ⟨-, -, reserved, slot_eq⟩ := formatX_fields op r slot h (by omega)
  rw [transfer_eq_some_iff]
  refine ⟨reserved, by omega, congrArg mk (Fin.ext slot_eq)⟩

/-- A GENC is well formed when its two destinations differ (R66 d). -/
theorem wellFormed_genc (rd ra rb rc re : RegNum) : (Instr.genc rd ra rb rc re).wellFormed = (rd != ra) := by
  simp [Instr.wellFormed, bne, Bool.beq_eq_decide_eq]

/-- A GRMK is well formed when its two destinations differ (R66 d). -/
theorem wellFormed_grmk (rd ra rb rc re rf : RegNum) : (Instr.grmk rd ra rb rc re rf).wellFormed = (rd != ra) := by
  simp [Instr.wellFormed, bne, Bool.beq_eq_decide_eq]

/-- The decoder inverts the encoder, format by format (R61 to R63). -/
theorem decode_encode {i : Instr} (h : i.wellFormed = true) : decode (encode i) = some i := by
  cases i with
  | emuli => simp [encode, decode, formatI_fields, formatI_operands]
  | genc =>
    rw [wellFormed_genc] at h
    simp [encode, decode, formatR_fields, formatR_registers, h]
  | grmk =>
    rw [wellFormed_grmk] at h
    simp [encode, decode, formatR_fields, formatR_registers, h]
  | wrb | rdb => simp [encode, decode, formatX_fields, rdField_formatX]
  | wre r slot | rde r slot | wrk r slot | rdk r slot | wrp r slot | rdp r slot | rdsr slot =>
    have hs : slot.val < 256 := by omega
    simp [encode, decode, formatX_fields, rdField_formatX, transfer_formatX, hs]
  | _ => simp [encode, decode, formatR_fields, formatR_registers]

/-- Settles O9, by the formats of R61 to R63. -/
theorem decodeEncode : Obligations.DecodeEncode := fun _ => decode_encode

end Sys2Proof

namespace Sys2Proof.Machine

open Sys2Proof

/-! ### The word built from a word's own fields (R61 to R63) -/

section Fields

variable {w : CommandWord} {op : Nat}

theorem opcode_lt (hop : bits w 24 8 = op) : op < 256 := hop ▸ Nat.mod_lt _ (by decide)

/-- Format R puts a word's own fields back together. -/
theorem formatR_eq_self {rd ra rb rc re rf : RegNum} (hop : bits w 24 8 = op) (hd : rd.val = bits w 20 4)
    (ha : ra.val = bits w 16 4) (hb : rb.val = bits w 12 4) (hc : rc.val = bits w 8 4) (he : re.val = bits w 4 4)
    (hf : rf.val = bits w 0 4) : formatR op rd ra rb rc re rf = w := by
  have lt := opcode_lt hop
  apply BitVec.eq_of_toNat_eq
  rw [formatR_toNat _ _ _ _ _ _ _ lt, toNat_eq_fields w, hop, hd, ha, hb, hc, he, hf]

/-- Format I puts a word's own fields back together when bits 15:8 are 0 (R62). -/
theorem formatI_eq_self (hop : bits w 24 8 = op) (h : bits w 8 8 = 0) :
    formatI op (rdField w) (raField w) (immField w) = w := by
  have lt := opcode_lt hop
  have split := bits_split w
  apply BitVec.eq_of_toNat_eq
  rw [formatI_toNat _ _ _ _ lt, toNat_eq_fields w, hop, immField_toNat, rdField, raField, regField_val, regField_val]
  omega

/-- Format X puts a word's own fields back together when bits 19:8 are 0 (R63). -/
theorem formatX_eq_self {r : RegNum} (hop : bits w 24 8 = op) (hr : r.val = bits w 20 4) (h : bits w 8 12 = 0) :
    formatX op r (bits w 0 8) = w := by
  have lt := opcode_lt hop
  have slot_lt : bits w 0 8 < 256 := Nat.mod_lt _ (by decide)
  have split := bits_split w
  apply BitVec.eq_of_toNat_eq
  rw [formatX_toNat _ _ _ lt slot_lt, toNat_eq_fields w, hop, hr]
  omega

/-- A 4-bit field within reserved low bits is 0 (R65). -/
theorem zero_eq_field {len lo : Nat} (h : bits w 0 len = 0) (hl : lo + 4 ≤ len := by decide) : (0 : RegNum).val = bits w lo 4 := by
  have whole : 2 ^ len ∣ w.toNat := Nat.dvd_of_mod_eq_zero (by simpa [bits] using h)
  have part : 2 ^ lo * 2 ^ 4 ∣ w.toNat := (Nat.pow_add 2 lo 4 ▸ Nat.pow_dvd_pow 2 hl).trans whole
  rw [bits, ← Nat.mod_mul_right_div_self, Nat.mod_eq_zero_of_dvd part, Nat.zero_div]
  rfl

theorem bits_length_zero (w : CommandWord) (lo : Nat) : bits w lo 0 = 0 := Nat.mod_one _

end Fields

/-! ### The table's conditions as fields of the word (R64) -/

/-- The opcode byte of a row. -/
def TableRow.opcode (row : TableRow) : Nat := bits row.pattern 24 8

theorem toNat_opcodeByte (w : CommandWord) : (w >>> 24).toNat = bits w 24 8 := by
  have := w.isLt
  rw [BitVec.toNat_ushiftRight, Nat.shiftRight_eq_div_pow, bits]
  omega

theorem opcodeByte_eq_iff (row : TableRow) (w : CommandWord) : w >>> 24 = row.pattern >>> 24 ↔ bits w 24 8 = row.opcode := by
  rw [← BitVec.toNat_inj, toNat_opcodeByte, toNat_opcodeByte, TableRow.opcode]

theorem slotAtMost_eq (n : Nat) (w : CommandWord) : slotAtMost n w = decide (bits w 0 8 ≤ n) := by
  rw [slotAtMost, BitVec.toNat_and, bits, Nat.pow_zero, Nat.div_one]
  exact congrArg (fun slot => decide (slot ≤ n)) (Nat.and_two_pow_sub_one_eq_mod w.toNat 8)

theorem toNat_nibble (w : CommandWord) (lo : Nat) : (w >>> lo &&& 0xF#32).toNat = bits w lo 4 := by
  rw [BitVec.toNat_and, BitVec.toNat_ushiftRight, Nat.shiftRight_eq_div_pow]
  exact Nat.and_two_pow_sub_one_eq_mod _ 4

/-- A register field read with shift and mask. -/
theorem nibble_eq_iff (w : CommandWord) (lo hi : Nat) :
    w >>> lo &&& 0xF#32 = w >>> hi &&& 0xF#32 ↔ regField w lo = regField w hi := by
  rw [← BitVec.toNat_inj, toNat_nibble, toNat_nibble, Fin.ext_iff, regField_val, regField_val]

theorem twoDestinations_eq (w : CommandWord) : twoDestinations w = (rdField w != raField w) := by
  rw [Bool.eq_iff_iff, twoDestinations, bne_iff_ne, bne_iff_ne, Ne, nibble_eq_iff]
  rfl

/-- A row that reserves one field beside the opcode byte holds when that field is 0 and its extra condition holds. -/
theorem spells_opcode_field {w : CommandWord} {op : Nat} (hop : bits w 24 8 = op) (name : String) (extra : CommandWord → Bool)
    (lo len : Nat) (h : lo + len ≤ 24) :
    TableRow.spells ⟨name, fieldMask 24 8 ||| fieldMask lo len, (BitVec.ofNat 8 op).setWidth 32 <<< 24, extra⟩ w
      = (bits w lo len == 0 && extra w) := by
  have lt := opcode_lt hop
  rw [TableRow.spells, Bool.eq_iff_iff]
  simp only [Bool.and_eq_true, beq_iff_eq]
  rw [and_two_fields_iff w 24 8 lo len _ (by decide) h, BitVec.toNat_ofNat, Nat.mod_eq_of_lt lt]
  simp [hop]

/-- A row that reserves also bits 23:20, `rd` of a format without a destination. -/
theorem spells_opcode_rd_field {w : CommandWord} {op : Nat} (hop : bits w 24 8 = op) (name : String)
    (extra : CommandWord → Bool) (lo len : Nat) (h : lo + len ≤ 20) :
    TableRow.spells ⟨name, fieldMask 20 12 ||| fieldMask lo len, (BitVec.ofNat 12 (op * 16)).setWidth 32 <<< 20, extra⟩ w
      = (bits w lo len == 0 && bits w 20 4 == 0 && extra w) := by
  have lt := opcode_lt hop
  have upper : bits w 20 12 = bits w 24 8 * 16 + bits w 20 4 := by
    have := w.isLt
    simp only [bits]
    omega
  rw [TableRow.spells, Bool.eq_iff_iff]
  simp only [Bool.and_eq_true, beq_iff_eq]
  rw [and_two_fields_iff w 20 12 lo len _ (by decide) h, BitVec.toNat_ofNat, Nat.mod_eq_of_lt (by omega), upper, hop]
  simp [and_comm]

/-! ### What each row decides -/

/-- The row decides the word: it holds and the word is its command, encoded, or it fails and the word is illegal (R64, R68). -/
def TableRow.Decides (row : TableRow) (w : CommandWord) : Prop :=
  (row.spells w = true ∧ ∃ i, decode w = some i ∧ i.mnemonic = row.mnemonic ∧ i.wellFormed = true ∧ encode i = w) ∨
  (row.spells w = false ∧ decode w = none)

/-- A row decides a word when the decoder's arm asks for the same, and reads a command with the row's name that encodes to the
word. -/
theorem TableRow.Decides.of_legal {row : TableRow} {w : CommandWord} {holds : Bool} {i : Instr}
    (hd : decode w = legal holds i) (hs : row.spells w = holds) (hm : i.mnemonic = row.mnemonic)
    (he : holds = true → i.wellFormed = true ∧ encode i = w) : row.Decides w := by
  cases holds with
  | true => exact .inl ⟨hs, i, hd, hm, he rfl⟩
  | false => exact .inr ⟨hs, hd⟩

/-- The same for a transfer, which asks for bits 19:8 to be 0 and the slot to be in the window (R63). -/
theorem TableRow.Decides.of_transfer {row : TableRow} {w : CommandWord} {n : Nat} {mk : Fin n → Instr}
    (hd : decode w = transfer w n mk) (hs : row.spells w = (bits w 8 12 == 0 && decide (bits w 0 8 < n)))
    (hm : ∀ slot, (mk slot).mnemonic = row.mnemonic) (hwf : ∀ slot, (mk slot).wellFormed = true)
    (he : bits w 8 12 = 0 → ∀ h : bits w 0 8 < n, encode (mk ⟨bits w 0 8, h⟩) = w) : row.Decides w := by
  by_cases h : bits w 0 8 < n
  · refine .of_legal (hd.trans (dif_pos h)) (by simp [hs, h]) (hm _) fun h0 => ⟨hwf _, he (beq_iff_eq.1 h0) h⟩
  · exact .inr ⟨by simp [hs, h], hd.trans (dif_neg h)⟩

/-- A row whose command reserves one field. -/
theorem TableRow.Decides.of_field {name : String} {w : CommandWord} {op : Nat} {i : Instr} (lo len : Nat) (h : lo + len ≤ 24)
    (hop : bits w 24 8 = op) (hd : decode w = legal (bits w lo len == 0) i) (hm : i.mnemonic = name)
    (hwf : i.wellFormed = true) (he : bits w lo len = 0 → encode i = w) :
    TableRow.Decides ⟨name, fieldMask 24 8 ||| fieldMask lo len, (BitVec.ofNat 8 op).setWidth 32 <<< 24, noExtra⟩ w :=
  .of_legal hd ((spells_opcode_field hop name noExtra lo len h).trans (Bool.and_true _)) hm fun h0 =>
    ⟨hwf, he (beq_iff_eq.1 h0)⟩

/-- A row whose command has no destination, and reserves `rd` and one field more. -/
theorem TableRow.Decides.of_rd_field {name : String} {w : CommandWord} {op : Nat} {i : Instr} (lo len : Nat)
    (h : lo + len ≤ 20) (hop : bits w 24 8 = op) (hd : decode w = legal (bits w lo len == 0 && bits w 20 4 == 0) i)
    (hm : i.mnemonic = name) (hwf : i.wellFormed = true) (he : bits w lo len = 0 → bits w 20 4 = 0 → encode i = w) :
    TableRow.Decides
      ⟨name, fieldMask 20 12 ||| fieldMask lo len, (BitVec.ofNat 12 (op * 16)).setWidth 32 <<< 20, noExtra⟩ w := by
  refine .of_legal hd ((spells_opcode_rd_field hop name noExtra lo len h).trans (Bool.and_true _)) hm fun h0 => ⟨hwf, ?_⟩
  obtain ⟨field_zero, rd_zero⟩ : bits w lo len = 0 ∧ bits w 20 4 = 0 := by simpa using h0
  exact he field_zero rd_zero

/-! The shapes that several rows share. What a row adds to its shape, that the decoder's arm for its opcode reads `mk` and how
`mk` is named and encoded, is told by computing. -/

section Shapes

variable {w : CommandWord} {name : String}

/-- Three registers: bits 11:0 are reserved. -/
theorem TableRow.Decides.threeRegisters (op : Nat) (hop : bits w 24 8 = op) (mk : RegNum → RegNum → RegNum → Instr)
    (hd : bits w 24 8 = op → decode w = legal (bits w 0 12 == 0) (mk (rdField w) (raField w) (rbField w))
      := by intro h; simp only [decode, h])
    (hm : (mk (rdField w) (raField w) (rbField w)).mnemonic = name := by rfl)
    (hwf : (mk (rdField w) (raField w) (rbField w)).wellFormed = true := by rfl)
    (he : encode (mk (rdField w) (raField w) (rbField w)) = formatR op (rdField w) (raField w) (rbField w) 0 0 0 := by rfl) :
    TableRow.Decides ⟨name, fieldMask 24 8 ||| fieldMask 0 12, (BitVec.ofNat 8 op).setWidth 32 <<< 24, noExtra⟩ w :=
  .of_field 0 12 (by decide) hop (hd hop) hm hwf fun h0 => he.trans <|
    formatR_eq_self hop (regField_val w 20) (regField_val w 16) (regField_val w 12) (zero_eq_field h0)
      (zero_eq_field h0) (zero_eq_field h0)

/-- A destination and one source: bits 15:0 are reserved. -/
theorem TableRow.Decides.twoRegisters (op : Nat) (hop : bits w 24 8 = op) (mk : RegNum → RegNum → Instr)
    (hd : bits w 24 8 = op → decode w = legal (bits w 0 16 == 0) (mk (rdField w) (raField w))
      := by intro h; simp only [decode, h])
    (hm : (mk (rdField w) (raField w)).mnemonic = name := by rfl)
    (hwf : (mk (rdField w) (raField w)).wellFormed = true := by rfl)
    (he : encode (mk (rdField w) (raField w)) = formatR op (rdField w) (raField w) 0 0 0 0 := by rfl) :
    TableRow.Decides ⟨name, fieldMask 24 8 ||| fieldMask 0 16, (BitVec.ofNat 8 op).setWidth 32 <<< 24, noExtra⟩ w :=
  .of_field 0 16 (by decide) hop (hd hop) hm hwf fun h0 => he.trans <|
    formatR_eq_self hop (regField_val w 20) (regField_val w 16) (zero_eq_field h0) (zero_eq_field h0) (zero_eq_field h0)
      (zero_eq_field h0)

/-- A destination alone: bits 19:0 are reserved. -/
theorem TableRow.Decides.destination (op : Nat) (hop : bits w 24 8 = op) (mk : RegNum → Instr)
    (hd : bits w 24 8 = op → decode w = legal (bits w 0 20 == 0) (mk (rdField w)) := by intro h; simp only [decode, h])
    (hm : (mk (rdField w)).mnemonic = name := by rfl) (hwf : (mk (rdField w)).wellFormed = true := by rfl)
    (he : encode (mk (rdField w)) = formatR op (rdField w) 0 0 0 0 0 := by rfl) :
    TableRow.Decides ⟨name, fieldMask 24 8 ||| fieldMask 0 20, (BitVec.ofNat 8 op).setWidth 32 <<< 24, noExtra⟩ w :=
  .of_field 0 20 (by decide) hop (hd hop) hm hwf fun h0 => he.trans <|
    formatR_eq_self hop (regField_val w 20) (zero_eq_field h0) (zero_eq_field h0) (zero_eq_field h0) (zero_eq_field h0)
      (zero_eq_field h0)

/-- Two sources and no destination: bits 23:20 and 11:0 are reserved. -/
theorem TableRow.Decides.twoSources (op : Nat) (hop : bits w 24 8 = op) (mk : RegNum → RegNum → Instr)
    (hd : bits w 24 8 = op → decode w = legal (bits w 0 12 == 0 && bits w 20 4 == 0) (mk (raField w) (rbField w))
      := by intro h; simp only [decode, h])
    (hm : (mk (raField w) (rbField w)).mnemonic = name := by rfl)
    (hwf : (mk (raField w) (rbField w)).wellFormed = true := by rfl)
    (he : encode (mk (raField w) (rbField w)) = formatR op 0 (raField w) (rbField w) 0 0 0 := by rfl) :
    TableRow.Decides ⟨name, fieldMask 20 12 ||| fieldMask 0 12, (BitVec.ofNat 12 (op * 16)).setWidth 32 <<< 20, noExtra⟩ w :=
  .of_rd_field 0 12 (by decide) hop (hd hop) hm hwf fun h0 rd_zero => he.trans <|
    formatR_eq_self hop rd_zero.symm (regField_val w 16) (regField_val w 12) (zero_eq_field h0) (zero_eq_field h0)
      (zero_eq_field h0)

/-- A transfer of a window of one slot: bits 19:8 are reserved and the slot is 0. -/
theorem TableRow.Decides.oneSlot (op : Nat) (hop : bits w 24 8 = op) (mk : RegNum → Instr)
    (hd : bits w 24 8 = op → decode w = legal (bits w 0 8 == 0 && bits w 8 12 == 0) (mk (rdField w))
      := by intro h; simp only [decode, h])
    (hm : (mk (rdField w)).mnemonic = name := by rfl) (hwf : (mk (rdField w)).wellFormed = true := by rfl)
    (he : encode (mk (rdField w)) = formatX op (rdField w) 0 := by rfl) :
    TableRow.Decides ⟨name, fieldMask 24 8 ||| fieldMask 8 12, (BitVec.ofNat 8 op).setWidth 32 <<< 24, slotAtMost 0⟩ w := by
  refine .of_legal (hd hop) ?_ hm fun h0 => ⟨hwf, he.trans ?_⟩
  · rw [spells_opcode_field hop name _ 8 12 (by decide), slotAtMost_eq, Bool.eq_iff_iff]
    simp [and_comm]
  · obtain ⟨slot_zero, reserved_zero⟩ : bits w 0 8 = 0 ∧ bits w 8 12 = 0 := by simpa using h0
    rw [← slot_zero]
    exact formatX_eq_self hop (regField_val w 20) reserved_zero

/-- A transfer of a window whose last slot is `last`: bits 19:8 are reserved. -/
theorem TableRow.Decides.window (op last : Nat) (hop : bits w 24 8 = op) (mk : RegNum → Fin (last + 1) → Instr)
    (hd : bits w 24 8 = op → decode w = transfer w (last + 1) (mk (rdField w)) := by intro h; simp only [decode, h])
    (hm : ∀ slot, (mk (rdField w) slot).mnemonic = name := by intro _; rfl)
    (hwf : ∀ slot, (mk (rdField w) slot).wellFormed = true := by intro _; rfl)
    (he : ∀ slot, encode (mk (rdField w) slot) = formatX op (rdField w) slot.val := by intro _; rfl) :
    TableRow.Decides ⟨name, fieldMask 24 8 ||| fieldMask 8 12, (BitVec.ofNat 8 op).setWidth 32 <<< 24, slotAtMost last⟩ w := by
  refine .of_transfer (hd hop) ?_ hm hwf fun h0 h => (he _).trans (formatX_eq_self hop (regField_val w 20) h0)
  rw [spells_opcode_field hop name _ 8 12 (by decide), slotAtMost_eq]
  simp only [Nat.lt_succ_iff]

end Shapes

/-! ### Every row of R64 decides the words with its opcode -/

section Rows

variable (w : CommandWord)

theorem decides_tableB : ∀ row ∈ tableB, bits w 24 8 = row.opcode → row.Decides w := by
  simp only [tableB, List.forall_mem_cons]
  exact ⟨fun h => .threeRegisters 0x10 h .badd, fun h => .threeRegisters 0x11 h .bsub,
    fun h => .threeRegisters 0x12 h .bmul, fun h => .twoRegisters 0x13 h .bneg,
    fun h => .twoRegisters 0x14 h .binv, fun h => .threeRegisters 0x15 h .bdiv,
    fun h => .twoSources 0x16 h .beq, fun h => .twoRegisters 0x17 h .bmov, List.forall_mem_nil _⟩

theorem decides_emuli (h : bits w 24 8 = 0x29) : TableRow.Decides ⟨"EMULI", 0xFF00FF00, 0x29000000, noExtra⟩ w :=
  .of_field 8 8 (by decide) (op := 0x29) h (i := .emuli (rdField w) (raField w) (immField w))
    (by simp only [decode, h]) rfl rfl (formatI_eq_self h)

theorem decides_tableE : ∀ row ∈ tableE, bits w 24 8 = row.opcode → row.Decides w := by
  simp only [tableE, List.forall_mem_cons]
  exact ⟨fun h => .threeRegisters 0x20 h .eadd, fun h => .threeRegisters 0x21 h .esub,
    fun h => .threeRegisters 0x22 h .emul, fun h => .twoRegisters 0x23 h .esqr,
    fun h => .twoRegisters 0x24 h .eneg, fun h => .twoRegisters 0x25 h .einv, fun h => .twoSources 0x26 h .eeq,
    fun h => .twoRegisters 0x27 h .emov, fun h => .twoRegisters 0x28 h .efromb, decides_emuli w,
    List.forall_mem_nil _⟩

theorem decides_tableK : ∀ row ∈ tableK, bits w 24 8 = row.opcode → row.Decides w := by
  simp only [tableK, List.forall_mem_cons]
  exact ⟨fun h => .twoRegisters 0x30 h .kred, fun h => .twoSources 0x31 h .keq,
    fun h => .destination 0x32 h .krnd, fun h => .twoRegisters 0x33 h .kmov, List.forall_mem_nil _⟩

theorem decides_pchk (h : bits w 24 8 = 0x45) : TableRow.Decides ⟨"PCHK", 0xFFF0FFFF, 0x45000000, noExtra⟩ w :=
  .of_rd_field 0 16 (by decide) (op := 0x45) h (i := .pchk (raField w)) (by simp only [decode, h]) rfl rfl fun h0 rd_zero =>
    formatR_eq_self h rd_zero.symm (regField_val w 16) (zero_eq_field h0) (zero_eq_field h0) (zero_eq_field h0) (zero_eq_field h0)

theorem decides_tableP : ∀ row ∈ tableP, bits w 24 8 = row.opcode → row.Decides w := by
  simp only [tableP, List.forall_mem_cons]
  exact ⟨fun h => .threeRegisters 0x40 h .padd, fun h => .twoRegisters 0x41 h .pdbl,
    fun h => .twoRegisters 0x42 h .pneg, fun h => .twoSources 0x43 h .peq,
    fun h => .threeRegisters 0x44 h .pmul, decides_pchk w, fun h => .destination 0x46 h .pgen,
    fun h => .twoRegisters 0x47 h .pmov, List.forall_mem_nil _⟩

theorem decides_genc (h : bits w 24 8 = 0x51) : TableRow.Decides ⟨"GENC", 0xFF00000F, 0x51000000, twoDestinations⟩ w := by
  refine .of_legal (holds := bits w 0 4 == 0 && rdField w != raField w)
    (i := .genc (rdField w) (raField w) (rbField w) (rcField w) (reField w)) (by simp only [decode, h]) ?_ rfl fun h0 => ?_
  · rw [← twoDestinations_eq]
    exact spells_opcode_field h "GENC" twoDestinations 0 4 (by decide)
  · obtain ⟨rf_zero, destinations⟩ : bits w 0 4 = 0 ∧ (rdField w != raField w) = true := by simpa using h0
    exact ⟨(wellFormed_genc ..).trans destinations, formatR_eq_self h (regField_val w 20) (regField_val w 16)
      (regField_val w 12) (regField_val w 8) (regField_val w 4) rf_zero.symm⟩

theorem decides_grmk (h : bits w 24 8 = 0x52) : TableRow.Decides ⟨"GRMK", 0xFF000000, 0x52000000, twoDestinations⟩ w := by
  refine .of_legal (holds := rdField w != raField w)
    (i := .grmk (rdField w) (raField w) (rbField w) (rcField w) (reField w) (rfField w)) (by simp only [decode, h]) ?_ rfl
    fun h0 => ⟨(wellFormed_grmk ..).trans h0, formatR_eq_self h (regField_val w 20) (regField_val w 16) (regField_val w 12)
      (regField_val w 8) (regField_val w 4) (regField_val w 0)⟩
  rw [← twoDestinations_eq]
  refine (spells_opcode_field h "GRMK" twoDestinations 0 0 (by decide)).trans ?_
  rw [bits_length_zero, beq_self_eq_true, Bool.true_and]

theorem decides_gdec (h : bits w 24 8 = 0x53) : TableRow.Decides ⟨"GDEC", 0xFF0000FF, 0x53000000, noExtra⟩ w :=
  .of_field 0 8 (by decide) (op := 0x53) h (i := .gdec (rdField w) (raField w) (rbField w) (rcField w))
    (by simp only [decode, h]) rfl rfl fun h0 =>
    formatR_eq_self h (regField_val w 20) (regField_val w 16) (regField_val w 12) (regField_val w 8) (zero_eq_field h0)
      (zero_eq_field h0)

theorem decides_tableG : ∀ row ∈ tableG, bits w 24 8 = row.opcode → row.Decides w := by
  simp only [tableG, List.forall_mem_cons]
  exact ⟨fun h => .twoRegisters 0x50 h .gpub, decides_genc w, decides_grmk w, decides_gdec w,
    List.forall_mem_nil _⟩

theorem decides_rdsr (h : bits w 24 8 = 0x68) : TableRow.Decides ⟨"RDSR", 0xFFFFFF00, 0x68000000, slotAtMost 1⟩ w := by
  have hs := spells_opcode_rd_field h "RDSR" (slotAtMost 1) 8 12 (by decide)
  have hd : decode w = if bits w 20 4 = 0 then transfer w 2 .rdsr else none := by simp only [decode, h]
  by_cases h20 : bits w 20 4 = 0
  · refine .of_transfer (hd.trans (if_pos h20)) (hs.trans ?_) (fun _ => rfl) (fun _ => rfl)
      fun h0 _ => formatX_eq_self h h20.symm h0
    simp only [slotAtMost_eq, h20, beq_self_eq_true, Bool.and_true, Nat.lt_succ_iff]
  · exact .inr ⟨hs.trans (by simp [h20]), hd.trans (if_neg h20)⟩

theorem decides_tableX : ∀ row ∈ tableX, bits w 24 8 = row.opcode → row.Decides w := by
  simp only [tableX, List.forall_mem_cons]
  exact ⟨fun h => .oneSlot 0x60 h .wrb, fun h => .oneSlot 0x61 h .rdb, fun h => .window 0x62 4 h .wre,
    fun h => .window 0x63 4 h .rde, fun h => .window 0x64 9 h .wrk, fun h => .window 0x65 9 h .rdk,
    fun h => .window 0x66 10 h .wrp, fun h => .window 0x67 10 h .rdp, decides_rdsr w, List.forall_mem_nil _⟩

theorem decides_of_opcode {row : TableRow} (hrow : row ∈ opcodeTable) (h : bits w 24 8 = row.opcode) : row.Decides w := by
  simp only [opcodeTable, List.mem_append] at hrow
  obtain ((((hB | hE) | hK) | hP) | hG) | hX := hrow
  · exact decides_tableB w row hB h
  · exact decides_tableE w row hE h
  · exact decides_tableK w row hK h
  · exact decides_tableP w row hP h
  · exact decides_tableG w row hG h
  · exact decides_tableX w row hX h

end Rows

/-! ### Decoding follows the table (O10) -/

/-- An opcode byte is one R66 (a) lists as unassigned or the opcode of a row. -/
theorem unassigned_or_row : ∀ op < 256, UnassignedOpcode op ∨ ∃ row ∈ opcodeTable, op = row.opcode := by decide +kernel

theorem decode_unassigned {w : CommandWord} (h : UnassignedOpcode (bits w 24 8)) : decode w = none := by
  unfold decode
  split
  case h_44 => rfl
  all_goals
    rename_i hop
    rw [hop] at h
    exact absurd h (by decide)

/-- Every word has an unassigned opcode and is illegal, or has the opcode of a row that decides it (R66, R68). -/
theorem decode_cases (w : CommandWord) :
    (UnassignedOpcode (bits w 24 8) ∧ decode w = none) ∨
    ∃ row ∈ opcodeTable, bits w 24 8 = row.opcode ∧ row.Decides w := by
  obtain h | ⟨row, hrow, h⟩ := unassigned_or_row (bits w 24 8) (Nat.mod_lt _ (by decide))
  · exact .inl ⟨h, decode_unassigned h⟩
  · exact .inr ⟨row, hrow, h, decides_of_opcode w hrow h⟩

theorem TableRow.Decides.decode_eq_none_iff {row : TableRow} {w : CommandWord} (h : row.Decides w) :
    decode w = none ↔ row.spells w = false := by
  obtain ⟨hs, i, hi, -⟩ | ⟨hs, hn⟩ := h <;> simp_all

/-- A legal word is spelt by the row of its command, and is the command's encoding (R64, R68). -/
theorem row_of_decode {w : CommandWord} {i : Instr} (h : decode w = some i) :
    ∃ row ∈ opcodeTable, row.mnemonic = i.mnemonic ∧ row.spells w = true ∧ i.wellFormed = true ∧ encode i = w := by
  obtain ⟨-, hn⟩ | ⟨row, hrow, -, ⟨hs, j, hj, hm, hwf, he⟩ | ⟨-, hn⟩⟩ := decode_cases w
  · cases hn.symm.trans h
  · cases hj.symm.trans h
    exact ⟨row, hrow, hm.symm, hs, hwf, he⟩
  · cases hn.symm.trans h

theorem wellFormed_of_decode {w : CommandWord} {i : Instr} (h : decode w = some i) : i.wellFormed = true := by
  obtain ⟨-, -, -, -, hwf, -⟩ := row_of_decode h
  exact hwf

/-- No two rows have one mnemonic (R64). -/
theorem row_eq_of_mnemonic_eq {row row' : TableRow} (hrow : row ∈ opcodeTable) (hrow' : row' ∈ opcodeTable)
    (h : row.mnemonic = row'.mnemonic) : row = row' :=
  List.inj_on_of_nodup_map (f := TableRow.mnemonic) (by decide) hrow hrow' h

/-- The mask of every row covers the opcode byte (R64). -/
theorem mask_opcodeByte : ∀ row ∈ opcodeTable, row.mask >>> 24 = 0xFF#32 := by decide

theorem opcode_of_spells {row : TableRow} {w : CommandWord} (hrow : row ∈ opcodeTable) (h : row.spells w = true) :
    bits w 24 8 = row.opcode := by
  obtain ⟨masked, -⟩ : w &&& row.mask = row.pattern ∧ row.extra w = true := by simpa [TableRow.spells] using h
  rw [← opcodeByte_eq_iff, ← masked, BitVec.ushiftRight_and_distrib, mask_opcodeByte row hrow, ← BitVec.toNat_inj,
    BitVec.toNat_and, toNat_opcodeByte]
  exact ((Nat.and_two_pow_sub_one_eq_mod _ 8).trans (Nat.mod_mod _ _)).symm

/-- A row spells exactly the words that decode to its command (R64, R68). -/
theorem spells_iff_decode {row : TableRow} (hrow : row ∈ opcodeTable) (w : CommandWord) :
    (∃ i, decode w = some i ∧ i.mnemonic = row.mnemonic) ↔ row.spells w = true := by
  constructor
  · rintro ⟨i, hi, hm⟩
    obtain ⟨row', hrow', hm', hs, -⟩ := row_of_decode hi
    rwa [row_eq_of_mnemonic_eq hrow hrow' (hm.symm.trans hm'.symm)]
  · intro hs
    obtain ⟨-, i, hi, hm, -⟩ | ⟨hn, -⟩ := decides_of_opcode w hrow (opcode_of_spells hrow hs)
    · exact ⟨i, hi, hm⟩
    · cases hn.symm.trans hs

theorem TableRow.spells_eq_false_iff (row : TableRow) (w : CommandWord) :
    row.spells w = false ↔ w &&& row.mask ≠ row.pattern ∨ row.extra w = false := by
  rw [TableRow.spells, Bool.and_eq_false_iff, beq_eq_false_iff_ne]

/-- The illegal words are those with an unassigned opcode and those their opcode's row rejects (R66, R68). -/
theorem decode_eq_none_iff (w : CommandWord) : decode w = none ↔ IllegalWord w := by
  simp only [IllegalWord, toNat_opcodeByte, opcodeByte_eq_iff, ← TableRow.spells_eq_false_iff]
  constructor
  · intro hn
    obtain ⟨hu, -⟩ | ⟨row, hrow, hop, hd⟩ := decode_cases w
    · exact .inl hu
    · exact .inr ⟨row, hrow, hop, hd.decode_eq_none_iff.1 hn⟩
  · rintro (hu | ⟨row, hrow, hop, hs⟩)
    · exact decode_unassigned hu
    · exact (decides_of_opcode w hrow hop).decode_eq_none_iff.2 hs

/-- Settles O10: the row with the word's opcode decides it. -/
theorem decodeFollowsTable : Obligations.DecodeFollowsTable := by
  refine ⟨rfl, fun row hrow => spells_iff_decode hrow, decode_eq_none_iff, fun w i h => ?_, fun w i h => ?_⟩
  · obtain ⟨row, hrow, hm, hs, -⟩ := row_of_decode h
    exact ⟨row, hrow, hm, hs⟩
  · obtain ⟨-, -, -, -, hwf, he⟩ := row_of_decode h
    exact ⟨hwf, he⟩

/-! ### The four classes of illegal words (O11) -/

/-- The opcode bytes of the transfers and of RDSR, each with the last slot of its window (R45, R66 c). -/
def windowEnds : List (CommandWord × Nat) :=
  [(0x60#32, 0), (0x61#32, 0), (0x62#32, 4), (0x63#32, 4), (0x64#32, 9), (0x65#32, 9), (0x66#32, 10), (0x67#32, 10), (0x68#32, 1)]

/-- The three kinds of extra condition in the table (R64). -/
theorem extra_cases : ∀ row ∈ opcodeTable, row.extra = noExtra ∨
    (∃ last, (row.pattern >>> 24, last) ∈ windowEnds ∧ row.extra = slotAtMost last) ∨
    ((row.pattern >>> 24 = 0x51#32 ∨ row.pattern >>> 24 = 0x52#32) ∧ row.extra = twoDestinations) := by
  simp [opcodeTable, tableB, tableE, tableK, tableP, tableG, tableX, windowEnds]

theorem window_row : ∀ e ∈ windowEnds, ∃ row ∈ opcodeTable, e.1 = row.pattern >>> 24 ∧ row.extra = slotAtMost e.2 := by
  simp [opcodeTable, tableB, tableE, tableK, tableP, tableG, tableX, windowEnds]

theorem twoDestinations_row {op : CommandWord} (h : op = 0x51#32 ∨ op = 0x52#32) :
    ∃ row ∈ opcodeTable, op = row.pattern >>> 24 ∧ row.extra = twoDestinations := by
  obtain rfl | rfl := h <;> simp [opcodeTable, tableB, tableE, tableK, tableP, tableG, tableX]

theorem slotAtMost_eq_false_iff (last : Nat) (w : CommandWord) : slotAtMost last w = false ↔ last < (w &&& 0xFF#32).toNat := by
  rw [slotAtMost, decide_eq_false_iff_not, Nat.not_le]

theorem twoDestinations_eq_false_iff (w : CommandWord) :
    twoDestinations w = false ↔ w >>> 20 &&& 0xF#32 = w >>> 16 &&& 0xF#32 := by
  rw [twoDestinations, bne_eq_false_iff_eq]

/-- A row's extra condition fails for a slot above the window's last slot and for equal destinations only (R66 c, d). -/
theorem extra_fails_iff (w : CommandWord) :
    (∃ row ∈ opcodeTable, w >>> 24 = row.pattern >>> 24 ∧ row.extra w = false) ↔
    (∃ last, (w >>> 24, last) ∈ windowEnds ∧ last < (w &&& 0xFF#32).toNat) ∨
    ((w >>> 24 = 0x51#32 ∨ w >>> 24 = 0x52#32) ∧ w >>> 20 &&& 0xF#32 = w >>> 16 &&& 0xF#32) := by
  simp only [← slotAtMost_eq_false_iff, ← twoDestinations_eq_false_iff]
  constructor
  · rintro ⟨row, hrow, hop, fails⟩
    rw [hop]
    obtain he | ⟨last, hlast, he⟩ | ⟨hg, he⟩ := extra_cases row hrow <;> rw [he] at fails
    · cases fails
    · exact .inl ⟨last, hlast, fails⟩
    · exact .inr ⟨hg, fails⟩
  · rintro (⟨last, hlast, fails⟩ | ⟨hg, fails⟩)
    · obtain ⟨row, hrow, hop, he⟩ := window_row _ hlast
      exact ⟨row, hrow, hop, he ▸ fails⟩
    · obtain ⟨row, hrow, hop, he⟩ := twoDestinations_row hg
      exact ⟨row, hrow, hop, he ▸ fails⟩

/-- R66's four classes: R68's illegal words, with the failing row's two ways to fail told apart. -/
theorem illegalWord_iff (w : CommandWord) : IllegalWord w ↔
    UnassignedOpcode (w >>> 24).toNat ∨
    (∃ row ∈ opcodeTable, w >>> 24 = row.pattern >>> 24 ∧ w &&& row.mask ≠ row.pattern) ∨
    (∃ last, (w >>> 24, last) ∈ windowEnds ∧ last < (w &&& 0xFF#32).toNat) ∨
    ((w >>> 24 = 0x51#32 ∨ w >>> 24 = 0x52#32) ∧ w >>> 20 &&& 0xF#32 = w >>> 16 &&& 0xF#32) := by
  simp only [IllegalWord, and_or_left, exists_or, extra_fails_iff]

/-- A command answers with what it does when it runs, or Halted. -/
theorem live_rsp_ne {s act t : State} {r : Response} (h : live s act = .next t) (hr : r ≠ ⟨haltedCode, 0⟩)
    (ha : act.rsp ≠ some r) : t.rsp ≠ some r := by
  cases hf : s.fault with
  | true =>
    cases (live_of_fault hf act).symm.trans h
    exact fun e => hr (Option.some.inj e).symm
  | false =>
    cases (live_of_not_fault hf act).symm.trans h
    exact ha

/-- No well-formed command raises IllegalCommand: the only arms that do are those of GENC and GRMK with rd = ra (R194; log 9). -/
theorem exec_rsp_ne_illegal {i : Instr} {s t : State} (hwf : i.wellFormed = true) (h : exec i s = .next t) :
    t.rsp ≠ some ⟨FaultCode.illegalCommand.code, 0⟩ := by
  cases i with
  | rdsr slot =>
    cases h
    nofun
  | binv | bdiv | einv | krnd | padd | pdbl | pmul | pchk | gpub | gdec | wrk | wrp =>
    refine live_rsp_ne h nofun ?_
    split <;> nofun
  | genc rd ra =>
    refine live_rsp_ne h nofun ?_
    rw [if_neg (of_decide_eq_true hwf)]
    split <;> nofun
  | grmk rd ra =>
    refine live_rsp_ne h nofun ?_
    rw [if_neg (of_decide_eq_true hwf)]
    split <;> nofun
  | _ => exact live_rsp_ne h nofun nofun

/-- A live core with a command word on its port raises IllegalCommand exactly for an illegal word (R194). -/
theorem runCommand_raises_illegal_iff {s t : State} (hf : s.fault = false) (h : s.runCommand = .next t) :
    FaultEntered s t FaultCode.illegalCommand.code ↔ decode s.cmd = none := by
  obtain ⟨i, hd, he⟩ | ⟨hd, -, he⟩ | ⟨-, hf', -⟩ := runCommand_cases s
  · have answers := exec_rsp_ne_illegal (wellFormed_of_decode hd) (he.symm.trans h)
    refine ⟨fun ⟨_, _, _, _, raised, _⟩ => absurd raised answers, fun hn => absurd (hd.symm.trans hn) nofun⟩
  · cases he.symm.trans h
    exact ⟨fun _ => hd, fun _ => faultEntered_takeFault s _⟩
  · cases hf.symm.trans hf'

theorem runCommand_next (s : State) : ∃ t, s.runCommand = .next t := by
  obtain ⟨i, -, he⟩ | ⟨-, -, he⟩ | ⟨-, -, he⟩ := runCommand_cases s
  · obtain ⟨_, -, hn⟩ | ⟨-, -, hn⟩ | ⟨-, -, _, hn, -⟩ := exec_cases i s <;> exact ⟨_, he.trans hn⟩
  · exact ⟨_, he⟩
  · exact ⟨_, he⟩

/-- Settles O11: R68's illegal words fall into the four classes, and running the word taken raises IllegalCommand for no other. -/
theorem opcodeMapIllegal : Obligations.OpcodeMapIllegal := by
  refine ⟨fun w => (decode_eq_none_iff w).trans (illegalWord_iff w), by decide, by decide, by decide +kernel,
    fun s cmd wdata rest hb hh => ?_⟩
  obtain ⟨t, ht⟩ := runCommand_next (s.take cmd wdata rest)
  exact ⟨t, (step_command hb hh).trans ht, and_congr_right fun hf => runCommand_raises_illegal_iff hf ht⟩

end Sys2Proof.Machine
end

/-! ### The base field, the moves and the comparisons (O12, O24 to O30)

A command that completes leaves the same trace whatever it computes: the `completes_` lemmas say so once for each file, and each
statement then adds the word that the encoder gives its command and the value that its field function has. -/

section
namespace Sys2Proof.Machine

open Sys2Proof

/-! ### The words of R61 -/

/-- R61's word decodes to the command whose encoding it is. -/
theorem decode_wordR {op : CommandWord} {rd ra rb rc re rf : RegNum} {i : Instr} (hwf : i.wellFormed = true)
    (he : encode i = formatR op.toNat rd ra rb rc re rf) (hop : op.toNat < 256 := by decide) :
    decode (wordR op rd ra rb rc re rf) = some i := by
  rw [wordR_eq _ _ _ _ _ _ _ hop, ← he]
  exact decode_encode hwf

/-- The four comparisons have no destination, so that a word with one is illegal (R65). -/
theorem decode_comparison_rd {w : CommandWord} (hop : bits w 24 8 ∈ [0x16, 0x26, 0x31, 0x43]) (hrd : bits w 20 4 ≠ 0) :
    decode w = none := by
  simp only [List.mem_cons, List.not_mem_nil, or_false] at hop
  obtain h | h | h | h := hop <;> simp [decode, h, hrd, legal_eq_none_iff]

/-- Settles O12: each printed word is the encoder's word for the command. -/
theorem specWordsDecode : Obligations.SpecWordsDecode :=
  ⟨decode_encode (i := .badd 3 1 2) rfl, decode_encode (i := .emuli 1 0 4) rfl, decode_encode (i := .krnd 3) rfl,
    decode_encode (i := .pmul 2 1 0) rfl, decode_encode (i := .gpub 1 0) rfl, decode_encode (i := .wrp 1 10) rfl,
    decode_encode (i := .rdsr 0) rfl⟩

/-! ### A live command that writes one register, writes T, or faults -/

section Completes

variable {s : State} {i : Instr} {rd : RegNum} (hs : s.Live)

include hs

theorem completes_setB {v : Word} (he : exec i s = live s ((s.setB rd v).complete 0)) :
    ∃ t, exec i s = .next t ∧ Done s t 0 ∧ OnlyB rd s t ∧ t.getB rd = v :=
  ⟨_, he.trans (live_of_not_fault hs _), done_setB s 0 rd v, onlyB_setB s 0 rd v, by simp⟩

theorem completes_setE {v : Ext5} (he : exec i s = live s ((s.setE rd v).complete 0)) :
    ∃ t, exec i s = .next t ∧ Done s t 0 ∧ OnlyE rd s t ∧ t.getE rd = v :=
  ⟨_, he.trans (live_of_not_fault hs _), done_setE s 0 rd v, onlyE_setE s 0 rd v, by simp⟩

theorem completes_setK {v : Scalar} (he : exec i s = live s ((s.setK rd v).complete 0)) :
    ∃ t, exec i s = .next t ∧ Done s t 0 ∧ OnlyK rd s t ∧ t.getK rd = v :=
  ⟨_, he.trans (live_of_not_fault hs _), done_setK s 0 rd v, onlyK_setK s 0 rd v, by simp⟩

theorem completes_setP {v : Point} (he : exec i s = live s ((s.setP rd v).complete 0)) :
    ∃ t, exec i s = .next t ∧ Done s t 0 ∧ OnlyP rd s t ∧ t.getP rd = v :=
  ⟨_, he.trans (live_of_not_fault hs _), done_setP s 0 rd v, onlyP_setP s 0 rd v, by simp⟩

/-- A comparison answers the truth value of what it compares, in T and in rdata (R26, R44). -/
theorem completes_compare {v : Bool} {q : Prop} (he : exec i s = live s (s.compare v)) (hq : v = true ↔ q) :
    ∃ t b, exec i s = .next t ∧ Done s t (if b = true then 1 else 0) ∧ OnlyT s t ∧ t.t = b ∧ (b = true ↔ q) := by
  have flag : flagWord v = if v = true then 1 else 0 := by cases v <;> rfl
  exact ⟨_, v, he.trans (live_of_not_fault hs _), flag ▸ done_compare s v, onlyT_compare s v, rfl, hq⟩

theorem faults_takeFault {c : FaultCode} (he : exec i s = live s (s.takeFault c)) :
    ∃ t, exec i s = .next t ∧ FaultEntered s t c.code :=
  ⟨_, he.trans (live_of_not_fault hs _), faultEntered_takeFault s c⟩

end Completes

/-- Settles O29: a move is a write of the source register as it stands. -/
theorem moves : Obligations.Moves :=
  ⟨fun _ _ => decode_wordR rfl rfl, fun _ _ => decode_wordR rfl rfl, fun _ _ => decode_wordR rfl rfl,
    fun _ _ => decode_wordR rfl rfl,
    fun _ _ _ hs => ⟨completes_setB hs rfl, completes_setE hs rfl, completes_setK hs rfl, completes_setP hs rfl⟩⟩

/-! ### Equality of the composite values (R111, R123, R144) -/

/-- Ext5 values are equal when their five coefficients are (R101). -/
theorem ext5_eq_iff_coeff (a b : Ext5) : a = b ↔ ∀ k, a.coeff k = b.coeff k := by
  refine ⟨fun h k => congrArg (·.coeff k) h, fun h => ?_⟩
  rw [Ext5.mk.injEq]
  exact ⟨h 0, h 1, h 2, h 3, h 4⟩

/-- Scalars are equal when their ten limbs are (R123). -/
theorem scalar_eq_iff_limb (a b : Scalar) : a = b ↔ ∀ j, a.limb j = b.limb j := by
  refine ⟨fun h j => congrArg (·.limb j) h, fun h => ?_⟩
  rw [Scalar.mk.injEq]
  exact ⟨h 0, h 1, h 2, h 3, h 4, h 5, h 6, h 7, h 8, h 9⟩

theorem scalar_eq_iff_val (a b : Scalar) : a = b ↔ a.val = b.val := ⟨congrArg Scalar.val, val_injective⟩

/-- Equality of points looks at the coordinates of finite points only (R137). -/
theorem ptEq_eq_true_iff (P Q : Point) : ptEq P Q = true ↔
    (P.inf = true ∧ Q.inf = true) ∨ (P.inf = false ∧ Q.inf = false ∧ P.x = Q.x ∧ P.y = Q.y) := by
  cases hP : P.inf <;> cases hQ : Q.inf <;> simp [ptEq, hP, hQ]

/-- Settles O28: a comparison completes with the truth value of its equality, and the equality is read component by component. -/
theorem comparisons : Obligations.Comparisons := by
  refine ⟨fun _ _ => decode_wordR rfl rfl, fun _ _ => decode_wordR rfl rfl, fun _ _ => decode_wordR rfl rfl,
    fun _ _ => decode_wordR rfl rfl, fun op hop rd ra rb hrd => ?_, fun s ra rb hs => ⟨?beq, ?eeq, ?keq, ?peq⟩⟩
  · have hlt : ∀ op ∈ [0x16#32, 0x26#32, 0x31#32, 0x43#32], op.toNat < 256 ∧ op.toNat ∈ [0x16, 0x26, 0x31, 0x43] := by simp
    obtain ⟨lt, mem⟩ := hlt op hop
    obtain ⟨opcode, dest, -⟩ := formatR_fields op.toNat rd ra rb 0 0 0 lt
    rw [wordR_eq _ _ _ _ _ _ _ lt]
    exact decode_comparison_rd (opcode.symm ▸ mem) fun h => hrd (Fin.ext (dest.symm.trans h))
  case beq => exact completes_compare hs rfl beq_iff_eq
  case eeq => exact completes_compare hs rfl ((eEq_iff _ _).trans (ext5_eq_iff_coeff _ _))
  case keq =>
    obtain ⟨t, b, ht, done, only, hb, heq⟩ := completes_compare hs (i := .keq ra rb) rfl (kEq_iff _ _)
    exact ⟨t, b, ht, done, only, hb, heq.trans (scalar_eq_iff_limb _ _), heq.trans (scalar_eq_iff_val _ _)⟩
  case peq => exact completes_compare hs rfl (ptEq_eq_true_iff _ _)

/-! ### The value of each field function (R92) -/

theorem addP_toNat (a b : Word) : (addP a b).toNat = (a.toNat + b.toNat) % Config.pMod := redNat_toNat _

theorem mulP_toNat (a b : Word) : (mulP a b).toNat = a.toNat * b.toNat % Config.pMod := redNat_toNat _

theorem subP_toNat (a : Word) {b : Word} (hb : Canonical b) :
    (subP a b).toNat = (a.toNat + Config.pMod - b.toNat) % Config.pMod := by
  have value := redInt_toNat ((a.toNat : Int) - b.toNat)
  have shift : ((a.toNat : Int) - b.toNat) % Config.pMod = ((a.toNat + Config.pMod - b.toNat : Nat) : Int) % Config.pMod := by
    rw [← Int.add_emod_right, Int.ofNat_sub (by unfold Canonical at hb; omega), Nat.cast_add]
    congr 1
    ring
  exact Int.ofNat_inj.1 (value.trans shift)

theorem negP_eq_subP (a : Word) : negP a = subP 0 a := by simp [negP, subP]

theorem negP_toNat {a : Word} (ha : Canonical a) : (negP a).toNat = (Config.pMod - a.toNat) % Config.pMod := by
  simpa [negP_eq_subP] using subP_toNat 0 ha

section Cases

variable {a b : Word} (ha : Canonical a) (hb : Canonical b)

include ha hb

/-- The sum of two field elements exceeds p at most once (R92). -/
theorem addP_toNat_cases : (addP a b).toNat =
    if a.toNat + b.toNat < Config.pMod then a.toNat + b.toNat else a.toNat + b.toNat - Config.pMod := by
  rw [addP_toNat]
  unfold Canonical at *
  split <;> simp only [Config.pMod] at * <;> omega

/-- The difference of two field elements falls below 0 by less than p (R92). -/
theorem subP_toNat_cases : (subP a b).toNat =
    if b.toNat ≤ a.toNat then a.toNat - b.toNat else a.toNat + Config.pMod - b.toNat := by
  rw [subP_toNat a hb]
  unfold Canonical at *
  split <;> simp only [Config.pMod] at * <;> omega

end Cases

/-- Negation fixes 0 and takes every other field element from p (R92). -/
theorem negP_toNat_cases {a : Word} (ha : Canonical a) : (negP a).toNat = if a = 0 then 0 else Config.pMod - a.toNat := by
  have zero : a = 0 ↔ a.toNat = 0 := ⟨fun h => h ▸ rfl, fun h => BitVec.eq_of_toNat_eq h⟩
  rw [negP_toNat ha]
  unfold Canonical at ha
  split <;> simp only [zero, Config.pMod] at * <;> omega

/-- Settles O24: each command writes its field function of the sources, whose value R92's cases give. -/
theorem baseAddSubNeg : Obligations.BaseAddSubNeg := by
  refine ⟨fun _ _ _ => decode_wordR rfl rfl, fun _ _ _ => decode_wordR rfl rfl, fun _ _ => decode_wordR rfl rfl,
    fun s hs hl => ⟨fun rd ra rb => ?badd, fun rd ra rb => ?bsub, fun rd ra => ?bneg⟩⟩
  case badd =>
    obtain ⟨t, ht, done, only, value⟩ := completes_setB hs (i := .badd rd ra rb) rfl
    exact ⟨t, ht, done, only, value ▸ addP_toNat_cases (hl.1 ra) (hl.1 rb)⟩
  case bsub =>
    obtain ⟨t, ht, done, only, value⟩ := completes_setB hs (i := .bsub rd ra rb) rfl
    exact ⟨t, ht, done, only, value ▸ subP_toNat_cases (hl.1 ra) (hl.1 rb)⟩
  case bneg =>
    obtain ⟨t, ht, done, only, value⟩ := completes_setB hs (i := .bneg rd ra) rfl
    exact ⟨t, ht, done, only, value ▸ negP_toNat_cases (hl.1 ra)⟩

/-- Settles O25: BMUL writes the field product. -/
theorem baseMultiply : Obligations.BaseMultiply := by
  refine ⟨fun _ _ _ => decode_wordR rfl rfl, fun s rd ra rb hs => ?_⟩
  obtain ⟨t, ht, done, only, value⟩ := completes_setB hs (i := .bmul rd ra rb) rfl
  exact ⟨t, ht, done, only, value ▸ mulP_toNat _ _⟩

/-! ### The inverse and the quotient (R83) -/

section Inverse

variable {a : Word} (ha : Canonical a) (hz : a ≠ 0)

include ha hz

theorem fp_mul_invP : fp a * fp (invP a) = 1 := fp_invP a fun h => hz ((fp_eq_zero_iff ha).1 h)

theorem mulP_invP : mulP a (invP a) = 1 :=
  fp_injective (canonical_mulP _ _) (by decide) (by simpa using fp_mul_invP ha hz)

/-- The inverse is the only field element whose product with `a` is 1. -/
theorem eq_invP_of_mulP_eq_one {c : Word} (hc : Canonical c) (h : mulP a c = 1) : c = invP a := by
  have product : fp a * fp c = 1 := by simpa using congrArg fp h
  exact fp_injective hc (canonical_invP a) (inv_unique product (fp_mul_invP ha hz))

/-- The quotient times the divisor is the dividend (R89). -/
theorem mulP_mulP_invP {b : Word} (hb : Canonical b) : mulP (mulP b (invP a)) a = b := by
  apply fp_injective (canonical_mulP _ _) hb
  rw [fp_mulP, fp_mulP, mul_assoc, mul_comm (fp (invP a)), fp_mul_invP ha hz, mul_one]

theorem toNat_mul_invP : a.toNat * (invP a).toNat % Config.pMod = 1 := by rw [← mulP_toNat, mulP_invP ha hz]; rfl

theorem eq_toNat_invP {c : Nat} (hc : c < Config.pMod) (h : a.toNat * c % Config.pMod = 1) : c = (invP a).toNat := by
  have word : (redNat c).toNat = c := by rw [redNat_toNat, Nat.mod_eq_of_lt hc]
  have product : mulP a (redNat c) = 1 := BitVec.eq_of_toNat_eq (by rw [mulP_toNat, word, h]; rfl)
  rw [← eq_invP_of_mulP_eq_one ha hz (canonical_redNat c) product, word]

end Inverse

/-- Settles O26: on 0 the fault, on every other element Fermat's inverse, which is the only one. -/
theorem baseInvert : Obligations.BaseInvert := by
  refine ⟨fun _ _ => decode_wordR rfl rfl, fun s rd ra hs hl => ⟨fun hz => ?_, fun hz => ?_⟩⟩
  · exact faults_takeFault hs (c := .divisionByZero) (congrArg (live s) (if_pos hz))
  · obtain ⟨t, ht, done, only, value⟩ := completes_setB hs (i := .binv rd ra) (congrArg (live s) (if_neg hz))
    refine ⟨t, ht, done, only, ?_⟩
    rw [value]
    exact ⟨canonical_invP _, toNat_mul_invP (hl.1 ra) hz, fun c hc h => eq_toNat_invP (hl.1 ra) hz hc h⟩

/-- Settles O27: on a zero divisor the fault, on every other the product with its inverse. -/
theorem baseDivide : Obligations.BaseDivide := by
  refine ⟨fun _ _ _ => decode_wordR rfl rfl, fun s rd ra rb hs hl => ⟨fun hz => ?_, fun hz => ?_⟩⟩
  · exact faults_takeFault hs (c := .divisionByZero) (congrArg (live s) (if_pos hz))
  · obtain ⟨t, ht, done, only, value⟩ := completes_setB hs (i := .bdiv rd ra rb) (congrArg (live s) (if_neg hz))
    have quotient := congrArg BitVec.toNat (mulP_mulP_invP (hl.1 rb) hz (hl.1 ra))
    rw [mulP_toNat, ← value] at quotient
    exact ⟨t, (invP (s.getB rb)).toNat, ht, done, only, canonical_invP _, toNat_mul_invP (hl.1 rb) hz,
      value ▸ mulP_toNat _ _, quotient⟩

/-! ### The datapaths (R81, R82) -/

section Datapaths

variable {a b : Word} (ha : Canonical a) (hb : Canonical b)

include ha hb

/-- Adding ε modulo 2^64 subtracts p: the unit does so exactly when the sum has reached p, with a carry or without (R81). -/
theorem adderAdd_eq_addP : adderAdd a b = addP a b := by
  have corrected : (2 ^ 64 ≤ a.toNat + b.toNat ∨ Config.pMod ≤ (a + b).toNat) ↔ ¬ a.toNat + b.toNat < Config.pMod := by
    rw [BitVec.toNat_add]
    simp only [Canonical, Config.pMod] at *
    omega
  apply BitVec.eq_of_toNat_eq
  rw [addP_toNat_cases ha hb]
  simp only [adderAdd, corrected]
  by_cases h : a.toNat + b.toNat < Config.pMod
  · rw [if_neg (not_not.2 h), if_pos h, BitVec.toNat_add]
    simp only [Config.pMod] at h
    omega
  · rw [if_pos h, if_neg h, BitVec.toNat_add, BitVec.toNat_add, BitVec.toNat_ofNat]
    simp only [Canonical, Config.pMod, Config.eps] at *
    omega

/-- Subtracting ε modulo 2^64 adds p, after a borrow (R81). -/
theorem adderSub_eq_subP : adderSub a b = subP a b := by
  apply BitVec.eq_of_toNat_eq
  rw [subP_toNat_cases ha hb]
  simp only [adderSub]
  by_cases h : b.toNat ≤ a.toNat
  · rw [if_neg (Nat.not_lt.2 h), if_pos h, BitVec.toNat_sub_of_le h]
  · rw [if_pos (Nat.not_le.1 h), if_neg h, BitVec.toNat_sub, BitVec.toNat_sub, BitVec.toNat_ofNat]
    simp only [Canonical, Config.pMod, Config.eps] at *
    omega

end Datapaths

theorem adderNeg_eq_negP {a : Word} (ha : Canonical a) : adderNeg a = negP a := by
  rw [adderNeg, adderSub_eq_subP canonical_zero ha, negP_eq_subP]

/-- A 128-bit number is made of the multiplier's three parts (R82). -/
theorem split_product (x : Nat) : x = x % 2 ^ 64 + 2 ^ 64 * (x / 2 ^ 64 % 2 ^ 32) + 2 ^ 96 * (x / 2 ^ 96) := by omega

/-- The reduction identities, 2^64 = ε + p and 2^96 = −1 + (2^32 + 1)·p, applied to the three parts (R82). -/
theorem natCast_parts (lo hl hh : Nat) :
    ((lo + 2 ^ 64 * hl + 2 ^ 96 * hh : Nat) : ZMod Config.pMod) = lo - hh + (hl * Config.eps : Nat) := by
  have multiple : lo + 2 ^ 64 * hl + 2 ^ 96 * hh + hh = lo + hl * Config.eps + Config.pMod * (hl + (2 ^ 32 + 1) * hh) := by
    simp only [Config.eps, Config.pMod]
    omega
  have reduced := congrArg (Nat.cast (R := ZMod Config.pMod)) multiple
  rw [Nat.cast_add _ hh, Nat.cast_add _ (Config.pMod * _), Nat.cast_mul Config.pMod, ZMod.natCast_self, zero_mul, add_zero,
    Nat.cast_add lo] at reduced
  linear_combination reduced

theorem multiplier_eq_mulP (a b : Word) : multiplier a b = mulP a b := by
  apply fp_injective (canonical_addP _ _) (canonical_mulP _ _)
  simp only [fp_addP, fp_subP, fp_redNat, fp_mulP]
  rw [← natCast_parts, ← split_product, Nat.cast_mul, fp, fp]

theorem product_div_lt (a b : Word) : a.toNat * b.toNat / 2 ^ 96 < 2 ^ 32 := by
  have product : a.toNat * b.toNat < 2 ^ 64 * 2 ^ 64 := Nat.mul_lt_mul'' a.isLt b.isLt
  omega

/-- Settles O30: each datapath is the field function, which gives its value and its range. -/
theorem baseDatapaths : Obligations.BaseDatapaths := by
  intro a b ha hb
  rw [adderAdd_eq_addP ha hb, adderSub_eq_subP ha hb, adderNeg_eq_negP hb, multiplier_eq_mulP]
  have middle : a.toNat * b.toNat / 2 ^ 64 % 2 ^ 32 < 2 ^ 32 := Nat.mod_lt _ (by decide)
  exact ⟨rfl, rfl, rfl, canonical_addP _ _, canonical_subP _ _, canonical_negP _, rfl, mulP_toNat _ _,
    by simp only [Config.eps, Config.pMod]; omega, product_div_lt a b, by decide, by decide⟩

end Sys2Proof.Machine
end

/-! ### The extension field (O31 to O35)

Addition, subtraction, negation and the small product are read coefficient by coefficient; the laws of the product are carried over
from the field Fp[X]/(X^5 − 3) by `toExt`, which tells canonical values apart. -/

section
namespace Sys2Proof.Machine

open Sys2Proof

/-! ### The coefficients of each function (R101, R102) -/

theorem coeff_eAdd (a b : Ext5) (k : Fin 5) : (eAdd a b).coeff k = addP (a.coeff k) (b.coeff k) := by
  fin_cases k <;> rfl

theorem coeff_eSub (a b : Ext5) (k : Fin 5) : (eSub a b).coeff k = subP (a.coeff k) (b.coeff k) := by
  fin_cases k <;> rfl

theorem coeff_eNeg (a : Ext5) (k : Fin 5) : (eNeg a).coeff k = negP (a.coeff k) := by
  fin_cases k <;> rfl

theorem coeff_eMuli (a : Ext5) (m : Nat) (k : Fin 5) : (eMuli a m).coeff k = redNat ((a.coeff k).toNat * m) := by
  fin_cases k <;> rfl

/-- For each k, the five terms of degree k or k + 5 are the ones R102 writes out. -/
theorem coeff_eMul (a b : Ext5) (k : Fin 5) : (eMul a b).coeff k = redNat (foldedProduct a b k) := by
  fin_cases k <;> refine congrArg redNat ?_ <;> simp [foldedProduct, Fin.sum_univ_five, Ext5.coeff, Config.extW] <;> ring

theorem coeff_eMul_toNat (a b : Ext5) (k : Fin 5) : ((eMul a b).coeff k).toNat = foldedProduct a b k % Config.pMod := by
  rw [coeff_eMul, redNat_toNat]

/-! ### The commands that work on each coefficient alone (R105, R106, R109) -/

/-- Settles O31: each command writes its function of the sources, read at one coefficient. -/
theorem extAddSubNeg : Obligations.ExtAddSubNeg := by
  refine ⟨fun _ _ _ => decode_wordR rfl rfl, fun _ _ _ => decode_wordR rfl rfl, fun _ _ => decode_wordR rfl rfl,
    fun s hs ⟨_, legalE, _⟩ => ⟨fun rd ra rb => ?eadd, fun rd ra rb => ?esub, fun rd ra => ?eneg⟩⟩
  case eadd =>
    obtain ⟨t, ht, done, only, value⟩ := completes_setE hs (i := .eadd rd ra rb) rfl
    refine ⟨t, ht, done, only, fun k => ?_⟩
    rw [value, coeff_eAdd, addP_toNat]
  case esub =>
    obtain ⟨t, ht, done, only, value⟩ := completes_setE hs (i := .esub rd ra rb) rfl
    refine ⟨t, ht, done, only, fun k => ?_⟩
    rw [value, coeff_eSub, subP_toNat _ (canonicalExt_coeff (legalE rb) k)]
  case eneg =>
    obtain ⟨t, ht, done, only, value⟩ := completes_setE hs (i := .eneg rd ra) rfl
    refine ⟨t, ht, done, only, fun k => ?_⟩
    rw [value, coeff_eNeg, negP_toNat (canonicalExt_coeff (legalE ra) k)]

/-! ### The product and the square (R102, R103, R107, R108) -/

/-- Settles O32: the two commands write `e_mul` of the sources, the square of one source twice. -/
theorem extMultiplySquare : Obligations.ExtMultiplySquare := by
  refine ⟨fun _ _ _ => decode_wordR rfl rfl, fun _ _ => decode_wordR rfl rfl, fun s rd ra rb hs => ⟨?emul, ?esqr⟩⟩
  case emul =>
    obtain ⟨t, ht, done, only, value⟩ := completes_setE hs (i := .emul rd ra rb) rfl
    exact ⟨t, ht, done, only, value ▸ coeff_eMul_toNat _ _⟩
  case esqr =>
    obtain ⟨t, ht, done, only, value⟩ := completes_setE hs (i := .esqr rd ra) rfl
    exact ⟨t, ht, done, only, value ▸ coeff_eMul_toNat _ _⟩

/-- The squarer adds each mixed product once, with twice its factor (R103). -/
theorem eSqrOptimised_eq_eSqr (a : Ext5) : eSqrOptimised a = eSqr a := by
  rw [eSqr, eMul, eSqrOptimised, Config.extW, Ext5.mk.injEq]
  refine ⟨?_, ?_, ?_, ?_, ?_⟩ <;> congr 1 <;> ring

theorem eMul_comm (a b : Ext5) : eMul a b = eMul b a :=
  toExt_injective (canonicalExt_eMul _ _) (canonicalExt_eMul _ _) (by simp only [toExt_eMul, mul_comm])

theorem eMul_assoc (a b c : Ext5) : eMul (eMul a b) c = eMul a (eMul b c) :=
  toExt_injective (canonicalExt_eMul _ _) (canonicalExt_eMul _ _) (by simp only [toExt_eMul, mul_assoc])

theorem eMul_eAdd (a b c : Ext5) : eMul a (eAdd b c) = eAdd (eMul a b) (eMul a c) :=
  toExt_injective (canonicalExt_eMul _ _) (canonicalExt_eAdd _ _) (by simp only [toExt_eMul, toExt_eAdd, mul_add])

theorem eMul_one {a : Ext5} (ha : CanonicalExt a) : eMul a Ext5.one = a :=
  toExt_injective (canonicalExt_eMul _ _) ha (by rw [toExt_eMul, toExt_one, mul_one])

/-- Settles O33: the folded coefficients, and the laws of the field. -/
theorem extMultiplicationLaws : Obligations.ExtMultiplicationLaws :=
  ⟨coeff_eMul_toNat, fun a => ⟨rfl, eSqrOptimised_eq_eSqr a⟩,
    fun a b c ha _ _ => ⟨eMul_comm a b, eMul_assoc a b c, eMul_eAdd a b c, eMul_one ha⟩⟩

/-! ### The inverse (R104, R110) -/

section ExtInverse

variable {a : Ext5} (ha : CanonicalExt a) (hz : a ≠ Ext5.zero)

include ha hz

theorem toExt_mul_eInv : toExt a * toExt (eInv a) = 1 := toExt_eInv fun h => hz ((toExt_eq_zero_iff ha).1 h)

theorem eMul_eInv : eMul a (eInv a) = Ext5.one :=
  toExt_injective (canonicalExt_eMul _ _) (by decide) (by rw [toExt_eMul, toExt_mul_eInv ha hz, toExt_one])

/-- The inverse is the only Ext5 element whose product with `a` is ONE5. -/
theorem eq_eInv_of_eMul_eq_one {c : Ext5} (hc : CanonicalExt c) (h : eMul a c = Ext5.one) : c = eInv a := by
  have product : toExt a * toExt c = 1 := by rw [← toExt_eMul, h, toExt_one]
  exact toExt_injective hc (canonicalExt_eInv a) (inv_unique product (toExt_mul_eInv ha hz))

end ExtInverse

/-- Settles O34: on ZERO5 the fault, on every other element the inverse by Frobenius, which is the only one. -/
theorem extInvert : Obligations.ExtInvert := by
  refine ⟨fun _ _ => decode_wordR rfl rfl, fun s rd ra hs ⟨_, legalE, _⟩ => ⟨fun hz => ?zero, fun hz => ?nonzero⟩⟩
  case zero => exact faults_takeFault hs (c := .divisionByZero) (congrArg (live s) (if_pos ((eEq_iff _ _).2 hz)))
  case nonzero =>
    obtain ⟨t, ht, done, only, value⟩ :=
      completes_setE hs (i := .einv rd ra) (congrArg (live s) (if_neg fun h => hz ((eEq_iff _ _).1 h)))
    refine ⟨t, ht, done, only, ?_⟩
    rw [value]
    exact ⟨canonicalExt_eInv _, eMul_eInv (legalE ra) hz, fun c hc h => eq_eInv_of_eMul_eq_one (legalE ra) hz hc h⟩

/-! ### Embedding and the product with a small integer (R113, R114) -/

/-- R62's word decodes to the command whose encoding it is. -/
theorem decode_wordI {op : CommandWord} {rd ra : RegNum} {imm8 : BitVec 8} {i : Instr} (hwf : i.wellFormed = true)
    (he : encode i = formatI op.toNat rd ra imm8) (hop : op.toNat < 256 := by decide) : decode (wordI op rd ra imm8) = some i := by
  rw [wordI_eq _ _ _ _ hop, ← he]
  exact decode_encode hwf

/-- The product with an embedded word is the product of every coefficient with that word's integer (R101). -/
theorem eMuli_eq_eMul_eFrom (a : Ext5) (v : Word) : eMuli a v.toNat = eMul a (eFrom v) :=
  toExt_injective (canonicalExt_eMuli _ _) (canonicalExt_eMul _ _) (by
    rw [toExt_eMuli, toExt_eMul, toExt_eFrom, fp, emb_natCast])

theorem immValue_eq_toNat_setWidth (imm8 : BitVec 8) : immValue imm8 = (imm8.setWidth 64).toNat := by
  have := imm8.isLt
  rw [BitVec.toNat_setWidth, Nat.mod_eq_of_lt (by omega), immValue]

/-- Settles O35: EFROMB writes the embedding, EMULI the coefficients' products, which are those of the embedded immediate. -/
theorem extEmbedAndSmallMultiply : Obligations.ExtEmbedAndSmallMultiply := by
  refine ⟨fun _ _ => decode_wordR rfl rfl, fun _ _ _ => decode_wordI rfl rfl,
    fun s rd ra hs => ⟨completes_setE hs rfl, fun imm8 => ?_⟩⟩
  obtain ⟨t, ht, done, only, value⟩ := completes_setE hs (i := .emuli rd ra imm8) rfl
  refine ⟨t, ht, done, only, fun k => ?_, ?_⟩
  · rw [value, coeff_eMuli, redNat_toNat, immValue]
  · rw [value, immValue_eq_toNat_setWidth, eMuli_eq_eMul_eFrom, eFrom]

end Sys2Proof.Machine
end

/-! ### Scalars modulo n and the draw of a random scalar (O36, O37)

KRED's value is a remainder, which the two conditional subtractions of R126 give as well because 2^320 < 3·n. KRND's answer is what
its loop draws; `acceptable` there is the condition of R125 on the low 319 bits of the word. -/

section
namespace Sys2Proof.Machine

open Sys2Proof

/-! ### Reduction modulo n (R122, R126) -/

theorem groupOrder_pos : 0 < groupOrder := by decide

set_option exponentiation.threshold 400 in
theorem groupOrder_lt_scalar : groupOrder < 2 ^ 320 := by
  obtain ⟨-, -, twice, -⟩ := groupOrder_bounds
  omega

theorem kReduce_val (k : Scalar) : (kReduce k).val = k.val % groupOrder :=
  val_limbs ((Nat.mod_lt _ groupOrder_pos).trans groupOrder_lt_scalar)

theorem kReduce_eq_self {k : Scalar} (h : k.val < groupOrder) : kReduce k = k := by
  rw [kReduce, Nat.mod_eq_of_lt h, limbs_val]

theorem subOrderOnce_mod (v : Nat) : subOrderOnce v % groupOrder = v % groupOrder := by
  unfold subOrderOnce
  split
  next h => exact (Nat.mod_eq_sub_mod h).symm
  next => rfl

/-- A conditional subtraction lowers a bound by n, down to n itself. -/
theorem subOrderOnce_lt {v m : Nat} (hm : groupOrder ≤ m) (h : v < m + groupOrder) : subOrderOnce v < m := by
  unfold subOrderOnce
  split <;> omega

/-- Each subtraction keeps the remainder, and below 3·n the second one ends below n (R126). -/
theorem reductionUnit_eq_mod {v : Nat} (h : v < 3 * groupOrder) : reductionUnit v = v % groupOrder := by
  have once : subOrderOnce v < 2 * groupOrder := subOrderOnce_lt (by omega) (by omega)
  have twice : reductionUnit v < groupOrder := subOrderOnce_lt le_rfl (by omega)
  rw [← Nat.mod_eq_of_lt twice, reductionUnit, subOrderOnce_mod, subOrderOnce_mod]

set_option exponentiation.threshold 400 in
/-- Settles O36: KRED writes the remainder, and 2·n < 2^320 < 3·n bounds the quotient. -/
theorem scalarReduce : Obligations.ScalarReduce := by
  obtain ⟨-, -, twice, thrice⟩ := groupOrder_bounds
  refine ⟨fun _ _ => decode_wordR rfl rfl, fun s rd ra hs => ?_, twice, thrice, fun v hv => ?_⟩
  · obtain ⟨t, ht, done, only, value⟩ := completes_setK hs (i := .kred rd ra) rfl
    exact ⟨t, ht, done, only, value ▸ kReduce_val _, fun h => value.trans (kReduce_eq_self h)⟩
  · have below : v < 3 * groupOrder := hv.trans thrice
    exact ⟨Nat.le_of_lt_succ (Nat.div_lt_of_lt_mul (by omega)), reductionUnit_eq_mod below⟩

/-! ### The draw (R125) -/

set_option exponentiation.threshold 400 in
/-- The candidate is the word without bit 319, and the draw accepts it strictly between 0 and n. -/
theorem acceptable_iff_mod (w : RandomWord) : acceptable w = true ↔
    0 < w.toNat % 2 ^ (Config.scalarBits - 1) ∧ w.toNat % 2 ^ (Config.scalarBits - 1) < groupOrder := by
  rw [acceptable_iff, candidate_eq]
  rfl

theorem acceptable_eq_false_iff_mod (w : RandomWord) : acceptable w = false ↔
    ¬ (0 < w.toNat % 2 ^ (Config.scalarBits - 1) ∧ w.toNat % 2 ^ (Config.scalarBits - 1) < groupOrder) := by
  rw [← acceptable_iff_mod, Bool.not_eq_true]

theorem val_limbs_candidate {w : RandomWord} (h : acceptable w = true) : (limbs (candidate w)).val = candidate w :=
  val_limbs (((acceptable_iff w).1 h).2.trans groupOrder_lt_scalar)

/-- With a word to accept, KRND completes: it writes the candidate and keeps the words after it (R49, R125). -/
theorem completes_krnd {rd : RegNum} {s : State} {c : Nat} {rest : List RandomWord} (hs : s.Live)
    (hd : drawKey s.rnd = some (c, rest)) :
    ∃ t, exec (.krnd rd) s = .next t ∧ Done s t 0 ∧ OnlyKOrRnd rd s t ∧ t.getK rd = limbs c ∧ t.rnd = rest :=
  ⟨((s.setRnd rest).setK rd (limbs c)).complete 0, by simp [exec, execKrnd, live_of_not_fault hs, hd],
    done_draw s 0 rd _ rest, onlyKOrRnd_draw s 0 rd _ rest, by simp, rfl⟩

set_option exponentiation.threshold 400 in
/-- Settles O37: the loop's answer is the first acceptable word, or none, and then KRND waits. -/
theorem randomScalar : Obligations.RandomScalar := by
  refine ⟨fun _ => decode_wordR rfl rfl, fun s rd hs => ⟨fun pre w rest hrnd hpre pos lt => ?drawn, fun hnone => ?waits⟩⟩
  case drawn =>
    have accepted : acceptable w = true := (acceptable_iff_mod w).2 ⟨pos, lt⟩
    have draw : drawKey s.rnd = some (candidate w, rest) := (drawKey_eq_some_iff _ _ _).2
      ⟨pre, w, hrnd, fun x hx => (acceptable_eq_false_iff_mod x).2 (hpre x hx), accepted, rfl⟩
    obtain ⟨t, ht, done, only, value, left⟩ := completes_krnd (rd := rd) hs draw
    refine ⟨t, ht, done, only, ?_, left⟩
    rw [value, val_limbs_candidate accepted]
    exact candidate_eq w
  case waits =>
    have draw : drawKey s.rnd = none :=
      (drawKey_eq_none_iff _).2 fun x hx => (acceptable_eq_false_iff_mod x).2 (hnone x hx)
    exact ⟨s.awaitRandom, exec_krnd_waits hs draw, rfl, rfl, rfl, rfl, rfl, fun _ => rfl, fun _ => rfl, fun _ => rfl,
      fun _ => rfl, rfl, rfl, rfl, rfl, rfl, rfl, rfl⟩

end Sys2Proof.Machine
end

/-! ### The group (O38 to O48)

`pt_add` is said case by case, with the third point of a line as `LineResult`, and the ladder by the accumulators it reaches. What
holds on the curve is carried over from the abelian group that `GroupModel` gives to the good points: the group law, the ladder as a
repeated sum, and the closure that every command keeps. -/

section
namespace Sys2Proof.Machine

open Sys2Proof

/-! ### Doubling an Ext5 element (R101) -/

theorem toExt_double_ne_zero {a : Ext5} (ha : CanonicalExt a) (hz : a ≠ Ext5.zero) : toExt (eMuli a 2) ≠ 0 := by
  have := Fact.mk pMod_prime
  have := Fact.mk extPoly_irreducible
  rw [toExt_eMuli]
  exact mul_ne_zero (fun h => hz ((toExt_eq_zero_iff ha).1 h)) two_ne_zero_ext

/-- Only ZERO5 is its own negation, because p is odd (R139 b). -/
theorem eq_eNeg_self_iff {a : Ext5} (ha : CanonicalExt a) : a = eNeg a ↔ a = Ext5.zero := by
  constructor
  · intro h
    by_contra hz
    have self : toExt a = -toExt a := (congrArg toExt h).trans (toExt_eNeg a)
    refine toExt_double_ne_zero ha hz ?_
    rw [toExt_eMuli]
    push_cast
    linear_combination self
  · rintro rfl
    decide

/-! ### Every case of `pt_add` (R135) -/

section PtAdd

variable {P Q : Point}

theorem ptAdd_of_inf_left (hP : P.inf = true) : ptAdd P Q = some Q := if_pos hP

theorem ptAdd_of_inf_right (hP : P.inf = false) (hQ : Q.inf = true) : ptAdd P Q = some P := by simp [ptAdd, hP, hQ]

theorem ptAdd_of_opposite (hP : P.inf = false) (hQ : Q.inf = false) (hx : P.x = Q.x) (hy : P.y = eNeg Q.y) :
    ptAdd P Q = some Point.inf0 := by
  simp [ptAdd, hP, hQ, hx, hy]

theorem ptAdd_tangent (cy : CanonicalExt P.y) (hP : P.inf = false) (hQ : Q.inf = false) (hx : P.x = Q.x)
    (hn : P.y ≠ eNeg Q.y) (hy : P.y = Q.y) :
    ∃ R, ptAdd P Q = some R ∧ LineResult P Q (tangentNumerator P.x) (eMuli P.y 2) R := by
  have hz : P.y ≠ Ext5.zero := fun h => hn (hy ▸ (eq_eNeg_self_iff cy).2 h)
  have hself : P.y ≠ eNeg P.y := mt (eq_eNeg_self_iff cy).1 hz
  have sum : ptAdd P Q = some (chordTangent P Q (tangentNum P.x) (eMuli P.y 2)) := by
    simp [ptAdd, hP, hQ, hx, ← hy, hself]
  exact ⟨_, sum, lineResult_chordTangent P Q (canonicalExt_eAdd _ _) (toExt_double_ne_zero cy hz)⟩

theorem ptAdd_chord (cP : CanonicalPoint P) (cQ : CanonicalPoint Q) (hP : P.inf = false) (hQ : Q.inf = false) (hx : P.x ≠ Q.x) :
    ∃ R, ptAdd P Q = some R ∧ LineResult P Q (eSub Q.y P.y) (eSub Q.x P.x) R := by
  have hd : toExt (eSub Q.x P.x) ≠ 0 := by
    rw [toExt_eSub, sub_ne_zero]
    exact fun h => hx (toExt_injective cP.1 cQ.1 h.symm)
  exact ⟨_, by simp [ptAdd, hP, hQ, hx], lineResult_chordTangent P Q (canonicalExt_eSub _ _) hd⟩

end PtAdd

/-! ### PADD, PDBL and PNEG (R141 to R143) -/

section Commands

variable {s : State} {rd ra rb : RegNum} {R : Point} (hs : s.Live)

include hs

theorem completes_padd (h : ptAdd (s.getP ra) (s.getP rb) = some R) :
    ∃ t, exec (.padd rd ra rb) s = .next t ∧ Done s t 0 ∧ OnlyP rd s t ∧ t.getP rd = R :=
  completes_setP hs (by simp [exec, execPadd, h])

theorem completes_pdbl (h : ptAdd (s.getP ra) (s.getP ra) = some R) :
    ∃ t, exec (.pdbl rd ra) s = .next t ∧ Done s t 0 ∧ OnlyP rd s t ∧ t.getP rd = R :=
  completes_setP hs (by simp [exec, execPdbl, ptDbl, h])

end Commands

/-- Settles O38: the command does what `pt_add` does in the case of R135 that holds. -/
theorem pointAdd : Obligations.PointAdd := by
  refine ⟨fun _ _ _ => decode_wordR rfl rfl, fun s rd ra rb hs ⟨_, _, legalP, _⟩ P Q hP hQ => ?_⟩
  subst hP hQ
  refine ⟨fun infP => completes_padd hs (ptAdd_of_inf_left infP),
    fun finP infQ => completes_padd hs (ptAdd_of_inf_right finP infQ),
    fun finP finQ hx hy => completes_padd hs (ptAdd_of_opposite finP finQ hx hy),
    fun finP finQ hx hn hy => ?tangent, fun finP finQ hx hn hy => ?case5, fun finP finQ hx => ?chord⟩
  case tangent =>
    obtain ⟨R, sum, line⟩ := ptAdd_tangent (legalP ra).2 finP finQ hx hn hy
    obtain ⟨t, ht, done, only, value⟩ := completes_padd (rd := rd) hs sum
    exact ⟨t, ht, done, only, value ▸ line⟩
  case case5 =>
    have noSum : ptAdd (s.getP ra) (s.getP rb) = none := (ptAdd_eq_none_iff _ _).2 ⟨finP, finQ, hx, hy, hn⟩
    exact faults_takeFault hs (c := .divisionByZero) (by simp [exec, execPadd, noSum])
  case chord =>
    obtain ⟨R, sum, line⟩ := ptAdd_chord (legalP ra) (legalP rb) finP finQ hx
    obtain ⟨t, ht, done, only, value⟩ := completes_padd (rd := rd) hs sum
    exact ⟨t, ht, done, only, value ▸ line⟩

/-- What doubling answers: it has no case that faults (R136). -/
theorem ptAdd_self {P : Point} (cy : CanonicalExt P.y) :
    ∃ R, ptAdd P P = some R ∧ (P.inf = true → R = P) ∧ (P.inf = false → P.y = Ext5.zero → R = Point.inf0) ∧
      (P.inf = false → P.y ≠ Ext5.zero → LineResult P P (tangentNumerator P.x) (eMuli P.y 2) R) := by
  cases hi : P.inf with
  | true => exact ⟨P, ptAdd_of_inf_left hi, fun _ => rfl, nofun, nofun⟩
  | false =>
    by_cases hz : P.y = Ext5.zero
    · exact ⟨_, ptAdd_of_opposite hi hi rfl ((eq_eNeg_self_iff cy).2 hz), nofun, fun _ _ => rfl, fun _ h => absurd hz h⟩
    · obtain ⟨R, sum, line⟩ := ptAdd_tangent cy hi hi rfl (mt (eq_eNeg_self_iff cy).1 hz) rfl
      exact ⟨R, sum, nofun, fun _ h => absurd h hz, fun _ _ => line⟩

/-- Settles O39: the command writes what `pt_add` answers for its operand twice. -/
theorem pointDouble : Obligations.PointDouble := by
  refine ⟨fun _ _ => decode_wordR rfl rfl, fun s rd ra hs ⟨_, _, legalP, _⟩ P hP => ?_⟩
  subst hP
  obtain ⟨R, sum, copy, zero, tangent⟩ := ptAdd_self (legalP ra).2
  obtain ⟨t, ht, done, only, rfl⟩ := completes_pdbl (rd := rd) hs sum
  exact ⟨t, ht, done, only, sum, copy, zero, tangent⟩

theorem ptNeg_of_inf {P : Point} (h : P.inf = true) : ptNeg P = P := if_pos h

theorem ptNeg_of_finite {P : Point} (h : P.inf = false) : ptNeg P = ⟨P.x, eNeg P.y, false⟩ := if_neg (by simp [h])

/-- Settles O40: the command writes `pt_neg`, read at one coefficient of y. -/
theorem pointNegate : Obligations.PointNegate := by
  refine ⟨fun _ _ => decode_wordR rfl rfl, fun s rd ra hs ⟨_, _, legalP, _⟩ => ?_⟩
  obtain ⟨t, ht, done, only, value⟩ := completes_setP hs (i := .pneg rd ra) rfl
  refine ⟨t, ht, done, only, fun hi => value.trans (ptNeg_of_inf hi), fun hi => ?_⟩
  rw [value, ptNeg_of_finite hi]
  refine ⟨rfl, rfl, fun k => ?_⟩
  rw [coeff_eNeg]
  exact negP_toNat (canonicalExt_coeff (legalP ra).2 k)

/-! ### The ladder and its accumulators (R138) -/

section Ladder

variable (P : Point) (k : Nat)

/-- `ladder_reaches` for the whole ladder. -/
theorem ptMul_reaches : (∃ R, ptMul P k = some R ∧ LadderAcc P k 0 R) ∨ (ptMul P k = none ∧ MulFaults P k) :=
  ladder_reaches Config.scalarBits .start

theorem ptMul_eq_some_iff (R : Point) : ptMul P k = some R ↔ LadderAcc P k 0 R := by
  refine ⟨fun h => ?_, fun h => ladderAcc_ladder h⟩
  obtain ⟨S, hS, acc⟩ | ⟨hN, -⟩ := ptMul_reaches P k
  · cases hS.symm.trans h
    exact acc
  · cases hN.symm.trans h

theorem ptMul_eq_none_iff : ptMul P k = none ↔ MulFaults P k := by
  constructor
  · intro h
    obtain ⟨R, hR, -⟩ | ⟨-, faults⟩ := ptMul_reaches P k
    · cases h.symm.trans hR
    · exact faults
  · rintro ⟨n, acc, d, reached, hd, hb, case5⟩
    have stuck : ladderStep P (k.testBit n) acc = none := by
      simp [ladderStep, ptDbl, hd, hb, (ptAdd_eq_none_iff d P).2 case5]
    rw [ladderAcc_ladder reached, ladder, stuck]

end Ladder

/-- The leading zeros of the scalar leave INF0 in the accumulator (R138). -/
theorem ladder_leading_zeros (P : Point) {k m : Nat} (hk : k < 2 ^ m) (d : Nat) :
    ladder P k (m + d) Point.inf0 = ladder P k m Point.inf0 := by
  induction d with
  | zero => rfl
  | succ d ih =>
    have bit : k.testBit (m + d) = false := Nat.testBit_lt_two_pow (hk.trans_le (Nat.pow_le_pow_right (by decide) (by omega)))
    have iteration : ladderStep P false Point.inf0 = some Point.inf0 := rfl
    rw [← Nat.add_assoc, ladder, bit, iteration, ← ih]

theorem ptMul_eq_ladder {k m : Nat} (P : Point) (hm : m ≤ Config.scalarBits) (hk : k < 2 ^ m) :
    ptMul P k = ladder P k m Point.inf0 := by
  rw [ptMul, ← Nat.add_sub_cancel' hm, ladder_leading_zeros P hk]

theorem ptMul_zero (P : Point) : ptMul P 0 = some Point.inf0 := ptMul_eq_ladder P (Nat.zero_le _) Nat.one_pos

/-- The leading one loads P (R138). -/
theorem ptMul_leading_one {k : Nat} (P : Point) (h0 : k ≠ 0) (hk : k < 2 ^ Config.scalarBits) :
    ptMul P k = ladder P k k.log2 P := by
  have bit : k.testBit k.log2 = true := Nat.testBit_log2 h0
  have iteration : ladderStep P true Point.inf0 = some P := rfl
  rw [ptMul_eq_ladder P ((Nat.log2_lt h0).2 hk) Nat.lt_log2_self, ladder, bit, iteration]

theorem ptMul_one (P : Point) : ptMul P 1 = some P := ptMul_leading_one P one_ne_zero (Nat.one_lt_two_pow (by decide))

/-- An infinite accumulator that is P stays P: doubling and adding copy it (R138). -/
theorem ladder_of_inf {P : Point} (hP : P.inf = true) (k n : Nat) : ladder P k n P = some P := by
  induction n with
  | zero => rfl
  | succ n ih =>
    have iteration : ladderStep P (k.testBit n) P = some P := by simp [ladderStep, ptDbl, ptAdd_of_inf_left hP]
    rw [ladder, iteration]
    exact ih

theorem ptMul_of_inf {P : Point} {k : Nat} (hP : P.inf = true) (h0 : 0 < k) (hk : k < 2 ^ Config.scalarBits) : ptMul P k = some P :=
  (ptMul_leading_one P h0.ne' hk).trans (ladder_of_inf hP k _)

/-! ### The bits of a scalar (R8, R138) -/

/-- Bit i of a list of limbs is bit i mod 32 of limb i div 32. -/
theorem testBit_limbsValue (ls : List Limb) (i : Nat) : (limbsValue ls).testBit i = (ls.getD (i / 32) 0).getLsbD (i % 32) := by
  induction ls generalizing i with
  | nil => simp [limbsValue]
  | cons l ls ih =>
    rw [limbsValue, Nat.add_comm, Nat.testBit_two_pow_mul_add _ l.isLt]
    split
    next h => simp [Nat.div_eq_of_lt h, Nat.mod_eq_of_lt h, BitVec.testBit_toNat]
    next h =>
      have quotient : i / 32 = (i - 32) / 32 + 1 := by omega
      have remainder : i % 32 = (i - 32) % 32 := by omega
      rw [ih, quotient, remainder, List.getD_cons_succ]

theorem limb_eq_getD (K : Scalar) (j : Fin 10) : K.limb j = K.limbList.getD j.val 0 := by fin_cases j <;> rfl

/-- Settles O41: the ladder's answers by its accumulators, and the corner cases by the scalar's leading one. -/
theorem ladderIsDoubleAndAdd : Obligations.LadderIsDoubleAndAdd :=
  ⟨ptMul_eq_some_iff, ptMul_eq_none_iff, fun K i h => (testBit_limbsValue K.limbList i).trans (by rw [limb_eq_getD]),
    ptMul_zero, fun P _ => ptMul_one P, fun _ _ => ptMul_of_inf⟩

/-! ### Closure of the curve under the point functions (R139, R140) -/

section Closure

variable {P Q S : Point}

theorem goodPoint_inf0 : GoodPoint Point.inf0 := ⟨canonicalPoint_inf0, rfl⟩

theorem goodPoint_ptNeg (hP : GoodPoint P) : GoodPoint (ptNeg P) := by
  obtain ⟨G, _, R, m⟩ := groupModel_exists
  obtain ⟨p, rP⟩ := (m.good P).1 hP
  exact (m.good _).2 ⟨_, m.neg rP⟩

/-- On the curve `pt_add` never faults and stays on the curve (R139 e). -/
theorem exists_ptAdd (hP : GoodPoint P) (hQ : GoodPoint Q) : ∃ S, ptAdd P Q = some S ∧ GoodPoint S := by
  obtain ⟨G, _, R, m⟩ := groupModel_exists
  obtain ⟨p, rP⟩ := (m.good P).1 hP
  obtain ⟨q, rQ⟩ := (m.good Q).1 hQ
  obtain ⟨S, hS, rS⟩ := m.add rP rQ
  exact ⟨S, hS, (m.good S).2 ⟨_, rS⟩⟩

/-- On the curve the ladder never faults and stays on the curve, whatever the scalar (R138, R140). -/
theorem exists_ptMul (hP : GoodPoint P) (k : Nat) : ∃ S, ptMul P k = some S ∧ GoodPoint S := by
  obtain ⟨G, _, R, m⟩ := groupModel_exists
  obtain ⟨p, rP⟩ := (m.good P).1 hP
  obtain ⟨S, hS, rS⟩ := m.ladder rP k Config.scalarBits m.inf0
  exact ⟨S, hS, (m.good S).2 ⟨_, rS⟩⟩

theorem goodPoint_ptAdd (hP : GoodPoint P) (hQ : GoodPoint Q) (h : ptAdd P Q = some S) : GoodPoint S := by
  obtain ⟨S', hS', good⟩ := exists_ptAdd hP hQ
  cases hS'.symm.trans h
  exact good

theorem goodPoint_ptMul {k : Nat} (hP : GoodPoint P) (h : ptMul P k = some S) : GoodPoint S := by
  obtain ⟨S', hS', good⟩ := exists_ptMul hP k
  cases hS'.symm.trans h
  exact good

theorem goodPoint_encrypt {pk M A B : Point} {r : Nat} (hpk : GoodPoint pk) (hM : GoodPoint M)
    (h : encrypt pk M r = some (A, B)) : GoodPoint A ∧ GoodPoint B := by
  obtain ⟨hA, X, hX, hB⟩ := encrypt_eq_some_iff.1 h
  exact ⟨goodPoint_ptMul generator_good hA, goodPoint_ptAdd hM (goodPoint_ptMul hpk hX) hB⟩

theorem goodPoint_remask {ca cb pk A B : Point} {r : Nat} (ha : GoodPoint ca) (hb : GoodPoint cb) (hpk : GoodPoint pk)
    (h : remask ca cb pk r = some (A, B)) : GoodPoint A ∧ GoodPoint B := by
  obtain ⟨⟨X, hX, hA⟩, Y, hY, hB⟩ := remask_eq_some_iff.1 h
  exact ⟨goodPoint_ptAdd ha (goodPoint_ptMul generator_good hX) hA, goodPoint_ptAdd hb (goodPoint_ptMul hpk hY) hB⟩

theorem goodPoint_decrypt {ca cb M : Point} {sk : Nat} (ha : GoodPoint ca) (hb : GoodPoint cb)
    (h : decrypt sk ca cb = some M) : GoodPoint M := by
  obtain ⟨X, hX, hM⟩ := decrypt_eq_some_iff.1 h
  exact goodPoint_ptAdd hb (goodPoint_ptNeg (goodPoint_ptMul ha hX)) hM

end Closure

/-! ### PMUL, PCHK and PGEN (R145 to R147) -/

theorem completes_pmul {s : State} {rd ra rb : RegNum} {R : Point} (hs : s.Live)
    (h : ptMul (s.getP ra) (s.getK rb).val = some R) :
    ∃ t, exec (.pmul rd ra rb) s = .next t ∧ Done s t 0 ∧ OnlyP rd s t ∧ t.getP rd = R :=
  completes_setP hs (by simp [exec, execPmul, h])

/-- A command that completed on a live core has entered no fault. -/
theorem Done.not_faultEntered {s t : State} {w : Word} {c : BitVec 4} (hs : s.Live) (h : Done s t w) : ¬ FaultEntered s t c := by
  rintro ⟨-, fault, -⟩
  obtain ⟨-, -, kept, -⟩ := h
  cases hs.symm.trans (kept.symm.trans fault)

theorem exec_pmul_faults_iff {s : State} {rd ra rb : RegNum} (hs : s.Live) :
    (∃ t, exec (.pmul rd ra rb) s = .next t ∧ FaultEntered s t 1) ↔ ptMul (s.getP ra) (s.getK rb).val = none := by
  cases h : ptMul (s.getP ra) (s.getK rb).val with
  | none =>
    exact iff_of_true (faults_takeFault hs (c := .divisionByZero) (by simp [exec, execPmul, h])) rfl
  | some R =>
    obtain ⟨t, ht, done, -⟩ := completes_pmul (rd := rd) hs h
    refine iff_of_false ?_ nofun
    rintro ⟨u, hu, fault⟩
    cases ht.symm.trans hu
    exact done.not_faultEntered hs fault

/-- What the ladder answers for an infinite point is infinite (R145). -/
theorem ptMul_inf {P : Point} {k : Nat} (hP : P.inf = true) (hk : k < 2 ^ Config.scalarBits) :
    ∃ R, ptMul P k = some R ∧ R.inf = true := by
  cases k with
  | zero => exact ⟨_, ptMul_zero P, rfl⟩
  | succ k => exact ⟨P, ptMul_of_inf hP k.succ_pos hk, hP⟩

/-- Settles O42: the command writes what the ladder answers, and faults when it answers nothing. -/
theorem pointMultiply : Obligations.PointMultiply := by
  refine ⟨fun _ _ _ => decode_wordR rfl rfl, fun s rd ra rb hs P k hP hk => ?_⟩
  rw [hP, hk]
  refine ⟨fun R reached => completes_pmul hs ((ptMul_eq_some_iff _ _ R).2 reached),
    (exec_pmul_faults_iff hs).trans (ptMul_eq_none_iff _ _), ?total, fun good => ?good, fun zero => completes_pmul hs ?zero,
    fun _ one => completes_pmul hs ?one, fun infP => ?infinite⟩
  case total =>
    obtain ⟨R, -, reached⟩ | ⟨-, faults⟩ := ptMul_reaches (s.getP ra) (s.getK rb).val
    · exact .inr ⟨R, reached⟩
    · exact .inl faults
  case good =>
    obtain ⟨R, product, -⟩ := exists_ptMul good (s.getK rb).val
    obtain ⟨t, ht, done, only, rfl⟩ := completes_pmul (rd := rd) hs product
    exact ⟨t, ht, done, only, (ptMul_eq_some_iff _ _ _).1 product⟩
  case zero => rw [zero, ptMul_zero]
  case one => rw [one, ptMul_one]
  case infinite =>
    obtain ⟨R, product, infR⟩ := ptMul_inf infP (val_lt_ladder (s.getK rb))
    obtain ⟨t, ht, done, only, rfl⟩ := completes_pmul (rd := rd) hs product
    exact ⟨t, ht, done, only, infR⟩

/-- The core's check is the curve equation of a finite point (R133). -/
theorem onCurve_iff (P : Point) : onCurve P = true ↔ ¬ OffCurve P := by
  cases h : P.inf <;> simp [onCurve, OffCurve, h, eSqr, curveB]

theorem completes_pchk {s : State} {ra : RegNum} (hs : s.Live) (h : onCurve (s.getP ra) = true) :
    ∃ t, exec (.pchk ra) s = .next t ∧ Done s t 1 ∧ OnlyT s t ∧ t.t = true :=
  ⟨s.compare true, by simp [exec, execPchk, live_of_not_fault hs, h], done_compare s true, onlyT_compare s true, rfl⟩

/-- Settles O43: the check decides, and it passes every infinite point. -/
theorem pointCheck : Obligations.PointCheck := by
  refine ⟨fun _ => decode_wordR rfl rfl, (onCurve_iff _).1 generator_good.2, (onCurve_iff _).1 (by decide), fun s ra hs =>
    ⟨fun off => ?off, fun on => completes_pchk hs ((onCurve_iff _).2 on),
      fun infP => completes_pchk hs (by simp [onCurve, infP])⟩⟩
  case off =>
    have fails : ¬ onCurve (s.getP ra) = true := fun h => (onCurve_iff _).1 h off
    exact faults_takeFault hs (c := .invalidPoint) (congrArg (live s) (if_neg fails))

/-- Settles O44: the command writes the generator, whose words are R131's. -/
theorem pointGenerator : Obligations.PointGenerator := by
  refine ⟨fun _ => decode_wordR rfl rfl, fun s rd hs => ?_⟩
  obtain ⟨t, ht, done, only, value⟩ := completes_setP hs (i := .pgen rd) rfl
  refine ⟨t, ht, done, only, ?_⟩
  rw [value]
  exact ⟨rfl, rfl, rfl, by decide, canonicalPoint_generator⟩

/-! ### The group law and the repeated sum (R135, R138, R139) -/

section GroupModel

variable {G : Type} [AddCommGroup G] {R : Point → G → Prop} (m : GroupModel G R)

include m

/-- What `pt_add` answered stands for the sum (R139 e). -/
theorem GroupModel.sum {P Q S : Point} {A B : G} (hP : R P A) (hQ : R Q B) (h : ptAdd P Q = some S) : R S (A + B) := by
  obtain ⟨S', hS', rS⟩ := m.add hP hQ
  cases hS'.symm.trans h
  exact rS

theorem GroupModel.repeatedSum {P : Point} {A : G} (hP : R P A) (k : Nat) : ∃ S, repeatedSum P k = some S ∧ R S (k • A) := by
  induction k with
  | zero => exact ⟨_, rfl, by rw [zero_smul]; exact m.inf0⟩
  | succ k ih =>
    obtain ⟨S, hS, rS⟩ := ih
    obtain ⟨S', hS', rS'⟩ := m.add rS hP
    exact ⟨S', by rw [Machine.repeatedSum, hS]; exact hS', by rwa [succ_nsmul]⟩

end GroupModel

/-- Settles O45: each law is the law of the abelian group that the points of the curve stand for. -/
theorem groupLaw : Obligations.GroupLaw := by
  intro P Q T hP hQ hT
  obtain ⟨G, _, R, m⟩ := groupModel_exists
  obtain ⟨p, rP⟩ := (m.good P).1 hP
  obtain ⟨q, rQ⟩ := (m.good Q).1 hQ
  obtain ⟨t, rT⟩ := (m.good T).1 hT
  refine ⟨exists_ptAdd hP hQ, goodPoint_ptNeg hP, fun S S' hS hS' => ?comm, fun A B C D hA hB hC hD => ?assoc,
    fun S infQ hS => ?identity, fun S hS => ?inverse⟩
  case comm => exact (m.eq (m.sum rP rQ hS) (m.sum rQ rP hS')).2 (add_comm p q)
  case assoc => exact (m.eq (m.sum (m.sum rP rQ hA) rT hB) (m.sum rP (m.sum rQ rT hC) hD)).2 (add_assoc p q t)
  case identity =>
    have zero : q = 0 := (m.inf_iff rQ).1 infQ
    exact (m.eq (m.sum rP rQ hS) rP).2 (by rw [zero, add_zero])
  case inverse => exact (m.inf_iff (m.sum rP (m.neg rP) hS)).2 (add_neg_cancel p)

/-- Settles O46: the ladder and the repeated sum both stand for the multiple, which is additive. -/
theorem ladderIsRepeatedSum : Obligations.LadderIsRepeatedSum := by
  obtain ⟨G, _, R, m⟩ := groupModel_exists
  refine ⟨fun P k hP hk => ?_, fun P j k hP hjk => ?_⟩ <;> obtain ⟨p, rP⟩ := (m.good P).1 hP
  · obtain ⟨Q, hQ, rQ⟩ := m.mul rP hk
    obtain ⟨S, hS, rS⟩ := m.repeatedSum rP k
    exact ⟨Q, S, hQ, hS, (m.good Q).2 ⟨_, rQ⟩, (m.eq rQ rS).2 rfl⟩
  · obtain ⟨A, hA, rA⟩ := m.mul rP hjk
    obtain ⟨B, hB, rB⟩ := m.mul rP ((Nat.le_add_right j k).trans_lt hjk)
    obtain ⟨C, hC, rC⟩ := m.mul rP ((Nat.le_add_left k j).trans_lt hjk)
    obtain ⟨D, hD, rD⟩ := m.add rB rC
    exact ⟨A, B, C, D, hA, hB, hC, hD, (m.eq rA rD).2 (add_smul j k p)⟩

/-- Settles O47: the four facts about G and N, and the tangent at G. -/
theorem groupFacts : Obligations.GroupFacts :=
  ⟨generator_good.2, by decide, by decide, by decide, by decide +kernel⟩

/-! ### Points of the curve stay on it (R140) -/

/-- Every P register holds a point of the curve. -/
def State.PointsGood (s : State) : Prop := ∀ r, GoodPoint (s.getP r)

section PointsGood

variable {s : State} (hs : s.PointsGood)

include hs

theorem State.PointsGood.setP {v : Point} (hv : GoodPoint v) (rd : RegNum) : (s.setP rd v).PointsGood := fun r => by
  rw [State.getP_setP]
  split
  · exact hv
  · exact hs r

theorem State.PointsGood.complete (w : Word) : (s.complete w).PointsGood := hs

theorem State.PointsGood.takeFault (c : FaultCode) : (s.takeFault c).PointsGood := hs

/-- What PADD, PDBL, PMUL, GPUB and GDEC do with the value of their function. -/
theorem State.PointsGood.setP_or_fault (rd : RegNum) {result : Option Point} :
    (∀ R, result = some R → GoodPoint R) →
      (match result with
        | some R => (s.setP rd R).complete 0
        | none => s.takeFault .divisionByZero).PointsGood := by
  intro good
  cases result with
  | none => exact hs.takeFault _
  | some R => exact (hs.setP (good R rfl) rd).complete 0

/-- What GENC and GRMK do with the value of their function. -/
theorem State.PointsGood.setPP_or_fault (rd ra : RegNum) {result : Option (Point × Point)} :
    (∀ A B, result = some (A, B) → GoodPoint A ∧ GoodPoint B) →
      (if rd = ra then s.takeFault .illegalCommand
        else match result with
          | some (A, B) => ((s.setP rd A).setP ra B).complete 0
          | none => s.takeFault .divisionByZero).PointsGood := by
  intro good
  split
  · exact hs.takeFault _
  · cases result with
    | none => exact hs.takeFault _
    | some R =>
      obtain ⟨goodA, goodB⟩ := good R.1 R.2 rfl
      exact ((hs.setP goodA rd).setP goodB ra).complete 0

/-- A command keeps the points good when its effect on a live core does: the refusal changes no register (R197). -/
theorem State.PointsGood.live {act t : State} (ha : act.PointsGood) (h : live s act = .next t) : t.PointsGood := by
  cases hf : s.fault with
  | true =>
    cases (live_of_fault hf act).symm.trans h
    exact hs
  | false =>
    cases (live_of_not_fault hf act).symm.trans h
    exact ha

end PointsGood

/-- No command but WRP makes a point off the curve: those that write P registers write values of the point functions, and the
others leave the file as it is (R32, R140). -/
theorem exec_keeps_pointsGood {i : Instr} {s t : State} (hi : ∀ r slot, i ≠ .wrp r slot) (hs : s.PointsGood)
    (h : exec i s = .next t) : t.PointsGood := by
  obtain ⟨-, -, -, frame⟩ := exec_frame h
  cases i with
  | wrp r slot => exact absurd rfl (hi r slot)
  | pneg rd ra => exact hs.live ((hs.setP (goodPoint_ptNeg (hs ra)) rd).complete 0) h
  | pgen rd => exact hs.live ((hs.setP generator_good rd).complete 0) h
  | pmov rd ra => exact hs.live ((hs.setP (hs ra) rd).complete 0) h
  | padd rd ra rb => exact hs.live (hs.setP_or_fault rd fun _ => goodPoint_ptAdd (hs ra) (hs rb)) h
  | pdbl rd ra => exact hs.live (hs.setP_or_fault rd fun _ => goodPoint_ptAdd (hs ra) (hs ra)) h
  | pmul rd ra rb => exact hs.live (hs.setP_or_fault rd fun _ => goodPoint_ptMul (hs ra)) h
  | gpub rd ra => exact hs.live (hs.setP_or_fault rd fun _ => goodPoint_ptMul generator_good) h
  | gdec rd ra rb rc => exact hs.live (hs.setP_or_fault rd fun _ => goodPoint_decrypt (hs rb) (hs rc)) h
  | genc rd ra rb rc re => exact hs.live (hs.setPP_or_fault rd ra fun _ _ => goodPoint_encrypt (hs rb) (hs rc)) h
  | grmk rd ra rb rc re rf => exact hs.live (hs.setPP_or_fault rd ra fun _ _ => goodPoint_remask (hs rb) (hs rc) (hs re)) h
  | _ => exact fun r => (frame r List.not_mem_nil).symm ▸ hs r

/-- Settles O48: reset holds INF0 everywhere, and no command but WRP leaves the curve. -/
theorem pointsStayOnCurve : Obligations.PointsStayOnCurve :=
  ⟨fun r => by rw [State.getP_reset]; exact goodPoint_inf0, fun _ _ _ hi hs h => exec_keeps_pointsGood hi hs h⟩

end Sys2Proof.Machine
end

/-! ### ElGamal (O49 to O54)

Each G command writes what its function of R161 to R164 answers and faults when it answers nothing; the statements read the function
off by the accumulators of its ladders. R166's properties are computations in the abelian group that `GroupModel` gives. -/

section
namespace Sys2Proof.Machine

open Sys2Proof

/-! ### GENC and GRMK with one destination twice (R66 d) -/

theorem decode_genc_same (rd rb rc re : RegNum) : decode (wordR 0x51 rd rd rb rc re 0) = none := by
  rw [wordR_eq _ _ _ _ _ _ _ (by decide)]
  simp [decode, formatR_fields, formatR_registers, legal]

theorem decode_grmk_same (rd rb rc re rf : RegNum) : decode (wordR 0x52 rd rd rb rc re rf) = none := by
  rw [wordR_eq _ _ _ _ _ _ _ (by decide)]
  simp [decode, formatR_fields, formatR_registers, legal]

/-! ### What the functions answer, by the accumulators of their ladders (R162 to R164, R191) -/

section Answers

variable {pk M ca cb A B : Point} {r sk : Nat}

theorem encrypt_eq_some_iff_ladderAcc : encrypt pk M r = some (A, B) ↔
    LadderAcc generator r 0 A ∧ ∃ X, LadderAcc pk r 0 X ∧ ptAdd M X = some B := by
  simp only [encrypt_eq_some_iff, ptMul_eq_some_iff]

theorem remask_eq_some_iff_ladderAcc : remask ca cb pk r = some (A, B) ↔
    (∃ X, LadderAcc generator r 0 X ∧ ptAdd ca X = some A) ∧ ∃ Y, LadderAcc pk r 0 Y ∧ ptAdd cb Y = some B := by
  simp only [remask_eq_some_iff, ptMul_eq_some_iff]

theorem decrypt_eq_some_iff_ladderAcc : decrypt sk ca cb = some M ↔
    ∃ S, LadderAcc ca sk 0 S ∧ ptAdd cb (ptNeg S) = some M := by
  simp only [decrypt_eq_some_iff, ptMul_eq_some_iff]

/-- The ladder on G always answers, because G is on the curve (R161). -/
theorem exists_ptMul_generator (k : Nat) : ∃ R, ptMul generator k = some R :=
  (exists_ptMul generator_good k).imp fun _ ⟨product, _⟩ => product

theorem encrypt_eq_none_iff : encrypt pk M r = none ↔
    MulFaults pk r ∨ ∃ X, LadderAcc pk r 0 X ∧ AddCase5 M X := by
  obtain ⟨A, hA⟩ := exists_ptMul_generator r
  simp only [← ptMul_eq_none_iff, ← ptMul_eq_some_iff, ← ptAdd_eq_none_iff, encrypt, hA]
  cases ptMul pk r with
  | none => simp
  | some X => cases h : ptAdd M X <;> simp [h]

theorem remask_eq_none_iff : remask ca cb pk r = none ↔
    (∃ X, LadderAcc generator r 0 X ∧ AddCase5 ca X) ∨ MulFaults pk r ∨ ∃ Y, LadderAcc pk r 0 Y ∧ AddCase5 cb Y := by
  obtain ⟨X, hX⟩ := exists_ptMul_generator r
  simp only [← ptMul_eq_none_iff, ← ptMul_eq_some_iff, ← ptAdd_eq_none_iff, remask, hX]
  cases ptMul pk r with
  | none => simp
  | some Y => cases hA : ptAdd ca X <;> cases hB : ptAdd cb Y <;> simp [hA, hB]

theorem decrypt_eq_none_iff : decrypt sk ca cb = none ↔
    MulFaults ca sk ∨ ∃ S, LadderAcc ca sk 0 S ∧ AddCase5 cb (ptNeg S) := by
  simp only [← ptMul_eq_none_iff, ← ptMul_eq_some_iff, ← ptAdd_eq_none_iff, decrypt]
  cases ptMul ca sk <;> simp

end Answers

/-! ### The corner cases (R162 to R164) -/

/-- Adding INF0 copies a finite point and answers INF0 for an infinite one (R135, cases 1 and 2). -/
theorem ptAdd_inf0 (P : Point) : ptAdd P Point.inf0 = some (if P.inf = true then Point.inf0 else P) := by
  cases h : P.inf with
  | true => exact ptAdd_of_inf_left h
  | false => exact ptAdd_of_inf_right h rfl

theorem eNeg_eNeg {a : Ext5} (ha : CanonicalExt a) : eNeg (eNeg a) = a :=
  toExt_injective (canonicalExt_eNeg _) ha (by rw [toExt_eNeg, toExt_eNeg, neg_neg])

theorem ptAdd_ptNeg_self {P : Point} (cy : CanonicalExt P.y) (hP : P.inf = false) : ptAdd P (ptNeg P) = some Point.inf0 := by
  rw [ptNeg_of_finite hP]
  exact ptAdd_of_opposite hP rfl rfl (eNeg_eNeg cy).symm

theorem encrypt_zero (pk M : Point) : encrypt pk M 0 = some (Point.inf0, if M.inf = true then Point.inf0 else M) :=
  encrypt_eq_some_iff.2 ⟨ptMul_zero _, _, ptMul_zero _, ptAdd_inf0 _⟩

theorem remask_zero (ca cb pk : Point) : remask ca cb pk 0 =
    some (if ca.inf = true then Point.inf0 else ca, if cb.inf = true then Point.inf0 else cb) :=
  remask_eq_some_iff.2 ⟨⟨_, ptMul_zero _, ptAdd_inf0 _⟩, _, ptMul_zero _, ptAdd_inf0 _⟩

theorem decrypt_zero (ca cb : Point) : decrypt 0 ca cb = some (if cb.inf = true then Point.inf0 else cb) :=
  decrypt_eq_some_iff.2 ⟨_, ptMul_zero _, ptAdd_inf0 _⟩

/-! ### The functions on the curve (R139 e, R166) -/

section OnCurve

variable {pk M ca cb : Point}

theorem exists_encrypt (hpk : GoodPoint pk) (hM : GoodPoint M) (r : Nat) : ∃ A B, encrypt pk M r = some (A, B) := by
  obtain ⟨A, hA, -⟩ := exists_ptMul generator_good r
  obtain ⟨X, hX, goodX⟩ := exists_ptMul hpk r
  obtain ⟨B, hB, -⟩ := exists_ptAdd hM goodX
  exact ⟨A, B, encrypt_eq_some_iff.2 ⟨hA, X, hX, hB⟩⟩

theorem exists_remask (ha : GoodPoint ca) (hb : GoodPoint cb) (hpk : GoodPoint pk) (r : Nat) :
    ∃ A B, remask ca cb pk r = some (A, B) := by
  obtain ⟨X, hX, goodX⟩ := exists_ptMul generator_good r
  obtain ⟨Y, hY, goodY⟩ := exists_ptMul hpk r
  obtain ⟨A, hA, -⟩ := exists_ptAdd ha goodX
  obtain ⟨B, hB, -⟩ := exists_ptAdd hb goodY
  exact ⟨A, B, remask_eq_some_iff.2 ⟨⟨X, hX, hA⟩, Y, hY, hB⟩⟩

theorem exists_decrypt (ha : GoodPoint ca) (hb : GoodPoint cb) (sk : Nat) : ∃ N, decrypt sk ca cb = some N := by
  obtain ⟨S, hS, goodS⟩ := exists_ptMul ha sk
  obtain ⟨N, hN, -⟩ := exists_ptAdd hb (goodPoint_ptNeg goodS)
  exact ⟨N, decrypt_eq_some_iff.2 ⟨S, hS, hN⟩⟩

end OnCurve

section GroupModel

variable {G : Type} [AddCommGroup G] {R : Point → G → Prop} (m : GroupModel G R) {A B N pk M ca cb : Point} {g a b p q : G}
  {r sk : Nat}

include m

/-- What `pt_mul` answered stands for the multiple (R138). -/
theorem GroupModel.multiple {P Q : Point} {k : Nat} (hk : k < 2 ^ Config.scalarBits) (hP : R P p) (h : ptMul P k = some Q) :
    R Q (k • p) := by
  obtain ⟨Q', hQ', rQ⟩ := m.mul hP hk
  cases hQ'.symm.trans h
  exact rQ

theorem GroupModel.encrypted (hr : r < 2 ^ Config.scalarBits) (hg : R generator g) (hpk : R pk p) (hM : R M q)
    (h : encrypt pk M r = some (A, B)) : R A (r • g) ∧ R B (q + r • p) := by
  obtain ⟨hA, X, hX, hB⟩ := encrypt_eq_some_iff.1 h
  exact ⟨m.multiple hr hg hA, m.sum hM (m.multiple hr hpk hX) hB⟩

theorem GroupModel.remasked (hr : r < 2 ^ Config.scalarBits) (hg : R generator g) (ha : R ca a) (hb : R cb b) (hpk : R pk p)
    (h : remask ca cb pk r = some (A, B)) : R A (a + r • g) ∧ R B (b + r • p) := by
  obtain ⟨⟨X, hX, hA⟩, Y, hY, hB⟩ := remask_eq_some_iff.1 h
  exact ⟨m.sum ha (m.multiple hr hg hX) hA, m.sum hb (m.multiple hr hpk hY) hB⟩

theorem GroupModel.decrypted (hk : sk < 2 ^ Config.scalarBits) (ha : R ca a) (hb : R cb b) (h : decrypt sk ca cb = some N) :
    R N (b - sk • a) := by
  obtain ⟨S, hS, hN⟩ := decrypt_eq_some_iff.1 h
  rw [sub_eq_add_neg]
  exact m.sum hb (m.neg (m.multiple hk ha hS)) hN

end GroupModel

section Properties

variable {A B N pk M ca cb : Point} {r sk : Nat} (hk : sk < 2 ^ Config.scalarBits) (hr : r < 2 ^ Config.scalarBits)

include hr

/-- Remasking adds r'·G to Ca, and keeps Ca exactly when that is infinite (R166 c). -/
theorem remask_keeps_ca_iff (ha : GoodPoint ca) (hAB : remask ca cb pk r = some (A, B)) :
    ptEq A ca = true ↔ ∃ X, ptMul generator r = some X ∧ X.inf = true := by
  obtain ⟨G, _, R, m⟩ := groupModel_exists
  obtain ⟨g, rG⟩ := (m.good generator).1 generator_good
  obtain ⟨a, rCa⟩ := (m.good ca).1 ha
  obtain ⟨⟨X, hX, hA⟩, -⟩ := remask_eq_some_iff.1 hAB
  have rX : R X (r • g) := m.multiple hr rG hX
  calc ptEq A ca = true ↔ a + r • g = a := m.eq (m.sum rCa rX hA) rCa
    _ ↔ X.inf = true := by rw [add_eq_left, m.inf_iff rX]
    _ ↔ ∃ X, ptMul generator r = some X ∧ X.inf = true := by simp [hX]

include hk

/-- Decrypting an encryption under the public key of `sk`: M + r·(sk·G) − sk·(r·G) = M (R166 a, d). -/
theorem decrypt_encrypt (hpk : ptMul generator sk = some pk) (hM : GoodPoint M) (hAB : encrypt pk M r = some (A, B))
    (hN : decrypt sk A B = some N) : ptEq N M = true ∧ (M.inf = false → N = M) := by
  obtain ⟨G, _, R, m⟩ := groupModel_exists
  obtain ⟨g, rG⟩ := (m.good generator).1 generator_good
  obtain ⟨q, rM⟩ := (m.good M).1 hM
  obtain ⟨rA, rB⟩ := m.encrypted hr rG (m.multiple hk rG hpk) rM hAB
  have unmasked : q + r • sk • g - sk • r • g = q := by rw [smul_comm sk r g, add_sub_cancel_right]
  have rN : R N q := unmasked ▸ m.decrypted hk rA rB hN
  exact ⟨(m.eq rN rM).2 rfl, fun finM => (m.unique rM rN finM).symm⟩

/-- Decrypting a remasked ciphertext under the public key of `sk`: the masks r'·(sk·G) and sk·(r'·G) cancel (R166 b, d). -/
theorem decrypt_remask {N' : Point} (hpk : ptMul generator sk = some pk) (ha : GoodPoint ca) (hb : GoodPoint cb)
    (hAB : remask ca cb pk r = some (A, B)) (hN : decrypt sk A B = some N) (hN' : decrypt sk ca cb = some N') :
    ptEq N N' = true := by
  obtain ⟨G, _, R, m⟩ := groupModel_exists
  obtain ⟨g, rG⟩ := (m.good generator).1 generator_good
  obtain ⟨a, rCa⟩ := (m.good ca).1 ha
  obtain ⟨b, rCb⟩ := (m.good cb).1 hb
  obtain ⟨rA, rB⟩ := m.remasked hr rG rCa rCb (m.multiple hk rG hpk) hAB
  have samePlaintext : b + r • sk • g - sk • (a + r • g) = b - sk • a := by
    rw [smul_add, smul_comm sk r g, add_sub_add_right_eq_sub]
  exact (m.eq (m.decrypted hk rA rB hN) (m.decrypted hk rCa rCb hN')).2 samePlaintext

end Properties

/-! ### A G command completes with its function's answer or takes DivisionByZero (R161 to R164, R191) -/

theorem Done.live {s t : State} {w : Word} (h : Done s t w) (hs : s.Live) : t.Live := by
  obtain ⟨-, -, kept, -⟩ := h
  exact kept.trans hs

section Commands

variable {s : State} {rd ra rb rc re rf : RegNum} {A B R : Point} (hs : s.Live)

include hs

/-- A live command that completes when its function answers, and takes DivisionByZero when it does not, faults in no other case. -/
theorem exec_faults_iff {i : Instr} {α : Type} {result : Option α}
    (faults : result = none → exec i s = live s (s.takeFault .divisionByZero))
    (completes : ∀ R, result = some R → ∃ t, exec i s = .next t ∧ Done s t 0) :
    (∃ t, exec i s = .next t ∧ FaultEntered s t 1) ↔ result = none := by
  cases result with
  | none => exact iff_of_true (faults_takeFault hs (faults rfl)) rfl
  | some R =>
    obtain ⟨t, ht, done⟩ := completes R rfl
    refine iff_of_false ?_ nofun
    rintro ⟨u, hu, fault⟩
    cases ht.symm.trans hu
    exact done.not_faultEntered hs fault

theorem completes_setPP {i : Instr} (hne : rd ≠ ra) (he : exec i s = live s (((s.setP rd A).setP ra B).complete 0)) :
    ∃ t, exec i s = .next t ∧ Done s t 0 ∧ OnlyPP rd ra s t ∧ t.getP rd = A ∧ t.getP ra = B :=
  ⟨_, he.trans (live_of_not_fault hs _), done_setPP s 0 rd ra A B, onlyPP_setPP s 0 rd ra A B,
    by simp [State.getP_setP_ne _ _ _ _ hne], by simp⟩

theorem completes_gpub (h : ptMul generator (s.getK ra).val = some R) :
    ∃ t, exec (.gpub rd ra) s = .next t ∧ Done s t 0 ∧ OnlyP rd s t ∧ t.getP rd = R :=
  completes_setP hs (by simp [exec, execGpub, h])

theorem completes_genc (hne : rd ≠ ra) (h : encrypt (s.getP rb) (s.getP rc) (s.getK re).val = some (A, B)) :
    ∃ t, exec (.genc rd ra rb rc re) s = .next t ∧ Done s t 0 ∧ OnlyPP rd ra s t ∧ t.getP rd = A ∧ t.getP ra = B :=
  completes_setPP hs hne (by simp [exec, execGenc, h, hne])

theorem completes_grmk (hne : rd ≠ ra) (h : remask (s.getP rb) (s.getP rc) (s.getP re) (s.getK rf).val = some (A, B)) :
    ∃ t, exec (.grmk rd ra rb rc re rf) s = .next t ∧ Done s t 0 ∧ OnlyPP rd ra s t ∧ t.getP rd = A ∧ t.getP ra = B :=
  completes_setPP hs hne (by simp [exec, execGrmk, h, hne])

theorem completes_gdec (h : decrypt (s.getK ra).val (s.getP rb) (s.getP rc) = some R) :
    ∃ t, exec (.gdec rd ra rb rc) s = .next t ∧ Done s t 0 ∧ OnlyP rd s t ∧ t.getP rd = R :=
  completes_setP hs (by simp [exec, execGdec, h])

theorem exec_genc_faults_iff (hne : rd ≠ ra) : (∃ t, exec (.genc rd ra rb rc re) s = .next t ∧ FaultEntered s t 1) ↔
    encrypt (s.getP rb) (s.getP rc) (s.getK re).val = none :=
  exec_faults_iff hs (fun h => by simp [exec, execGenc, h, hne]) fun _ h =>
    (completes_genc hs hne h).imp fun _ ⟨ht, done, _⟩ => ⟨ht, done⟩

theorem exec_grmk_faults_iff (hne : rd ≠ ra) : (∃ t, exec (.grmk rd ra rb rc re rf) s = .next t ∧ FaultEntered s t 1) ↔
    remask (s.getP rb) (s.getP rc) (s.getP re) (s.getK rf).val = none :=
  exec_faults_iff hs (fun h => by simp [exec, execGrmk, h, hne]) fun _ h =>
    (completes_grmk hs hne h).imp fun _ ⟨ht, done, _⟩ => ⟨ht, done⟩

theorem exec_gdec_faults_iff : (∃ t, exec (.gdec rd ra rb rc) s = .next t ∧ FaultEntered s t 1) ↔
    decrypt (s.getK ra).val (s.getP rb) (s.getP rc) = none :=
  exec_faults_iff hs (fun h => by simp [exec, execGdec, h]) fun _ h =>
    (completes_gdec hs h).imp fun _ ⟨ht, done, _⟩ => ⟨ht, done⟩

/-- PGEN and then PMUL write the ladder's answer on G (R145, R147, R161). -/
theorem getP_of_pgen_pmul {pt : RegNum} {u v : State} (h : ptMul generator (s.getK ra).val = some R)
    (hu : exec (.pgen pt) s = .next u) (hv : exec (.pmul rd pt ra) u = .next v) : v.getP rd = R := by
  obtain ⟨u', hu', done, ⟨-, -, keptK, -⟩, loaded⟩ := completes_setP hs (i := .pgen pt) rfl
  cases hu'.symm.trans hu
  have product : ptMul (u.getP pt) (u.getK ra).val = some R := by rw [loaded, keptK, h]
  obtain ⟨v', hv', -, -, value⟩ := completes_pmul (rd := rd) (done.live hs) product
  cases hv'.symm.trans hv
  exact value

end Commands

/-- Settles O49: the command writes the ladder's answer on G, and there always is one. -/
theorem publicKey : Obligations.PublicKey := by
  refine ⟨fun _ _ => decode_wordR rfl rfl, fun s rd ra hs => ?_⟩
  obtain ⟨R, product⟩ := exists_ptMul_generator (s.getK ra).val
  obtain ⟨t, ht, done, only, rfl⟩ := completes_gpub (rd := rd) hs product
  refine ⟨t, ht, done, only, (ptMul_eq_some_iff _ _ _).1 product, fun _ _ _ => getP_of_pgen_pmul hs product,
    fun zero => ?zero, fun one => ?one⟩
  case zero =>
    rw [zero, ptMul_zero] at product
    exact (Option.some.inj product).symm
  case one =>
    rw [one, ptMul_one] at product
    exact (Option.some.inj product).symm

/-- Settles O50: the command writes what `encrypt` answers for the sources, and faults when it answers nothing. -/
theorem elGamalEncrypt : Obligations.Encrypt := by
  refine ⟨fun _ _ _ _ _ hne => decode_wordR (by simpa [Instr.wellFormed] using hne) rfl, decode_genc_same,
    fun s rd ra rb rc re hne hs r hr => ?_⟩
  rw [hr]
  refine ⟨fun A X B hA hX hB => completes_genc hs hne (encrypt_eq_some_iff_ladderAcc.2 ⟨hA, X, hX, hB⟩),
    (exec_genc_faults_iff hs hne).trans encrypt_eq_none_iff, fun goodPk goodM => ?good, fun zero finM => ?zero⟩
  case good =>
    obtain ⟨A, B, h⟩ := exists_encrypt goodPk goodM (s.getK re).val
    obtain ⟨t, ht, done, only, rfl, rfl⟩ := completes_genc hs hne h
    obtain ⟨hA, X, hX, hB⟩ := encrypt_eq_some_iff_ladderAcc.1 h
    exact ⟨t, X, ht, done, only, hA, hX, hB⟩
  case zero =>
    obtain ⟨t, ht, done, -, hA, hB⟩ := completes_genc hs hne (by rw [zero, encrypt_zero])
    exact ⟨t, ht, done, hA, by simpa [finM] using hB⟩

/-- Settles O51: the command writes what `remask` answers for the sources, and faults when it answers nothing. -/
theorem elGamalRemask : Obligations.Remask := by
  refine ⟨fun _ _ _ _ _ _ hne => decode_wordR (by simpa [Instr.wellFormed] using hne) rfl, decode_grmk_same,
    fun s rd ra rb rc re rf hne hs r hr => ?_⟩
  rw [hr]
  refine ⟨fun X Y A B hX hY hA hB => completes_grmk hs hne (remask_eq_some_iff_ladderAcc.2 ⟨⟨X, hX, hA⟩, Y, hY, hB⟩),
    (exec_grmk_faults_iff hs hne).trans remask_eq_none_iff, fun goodCa goodCb goodPk => ?good, fun zero => ?zero⟩
  case good =>
    obtain ⟨A, B, h⟩ := exists_remask goodCa goodCb goodPk (s.getK rf).val
    obtain ⟨t, ht, done, only, rfl, rfl⟩ := completes_grmk hs hne h
    obtain ⟨⟨X, hX, hA⟩, Y, hY, hB⟩ := remask_eq_some_iff_ladderAcc.1 h
    exact ⟨t, X, Y, ht, done, only, hX, hY, hA, hB⟩
  case zero =>
    obtain ⟨t, ht, done, -, hA, hB⟩ := completes_grmk hs hne (by rw [zero, remask_zero])
    exact ⟨t, ht, done, hA, hB⟩

/-- Settles O52: the command writes what `decrypt` answers for the sources, and faults when it answers nothing. -/
theorem elGamalDecrypt : Obligations.Decrypt := by
  refine ⟨fun _ _ _ _ => decode_wordR rfl rfl, fun s rd ra rb rc hs k hk => ?_⟩
  rw [hk]
  refine ⟨fun S R hS hR => completes_gdec hs (decrypt_eq_some_iff_ladderAcc.2 ⟨S, hS, hR⟩),
    (exec_gdec_faults_iff hs).trans decrypt_eq_none_iff, fun goodCa goodCb => ?good, fun zero => ?zero,
    fun S hS finS same ⟨_, _, legalP, _⟩ => ?same⟩
  case good =>
    obtain ⟨R, h⟩ := exists_decrypt goodCa goodCb (s.getK ra).val
    obtain ⟨t, ht, done, only, rfl⟩ := completes_gdec (rd := rd) hs h
    obtain ⟨S, hS, hR⟩ := decrypt_eq_some_iff_ladderAcc.1 h
    exact ⟨t, S, ht, done, only, hS, hR⟩
  case zero =>
    obtain ⟨t, ht, done, -, value⟩ := completes_gdec (rd := rd) hs (by rw [zero, decrypt_zero])
    exact ⟨t, ht, done, value⟩
  case same =>
    subst same
    have h := decrypt_eq_some_iff_ladderAcc.2 ⟨_, hS, ptAdd_ptNeg_self (legalP rc).2 finS⟩
    obtain ⟨t, ht, done, -, value⟩ := completes_gdec (rd := rd) hs h
    exact ⟨t, ht, done, value⟩

/-- Settles O53: GDEC reads the two points GENC wrote and the key GENC kept, and `decrypt_encrypt` is about them. -/
theorem decryptUndoesEncrypt : Obligations.DecryptUndoesEncrypt := by
  intro s ca cb pk m o kr ks hs hne hpk goodM
  have goodPk : GoodPoint (s.getP pk) := goodPoint_ptMul generator_good hpk
  obtain ⟨A, B, hAB⟩ := exists_encrypt goodPk goodM (s.getK kr).val
  obtain ⟨goodA, goodB⟩ := goodPoint_encrypt goodPk goodM hAB
  obtain ⟨N, hN⟩ := exists_decrypt goodA goodB (s.getK ks).val
  obtain ⟨eqM, bitsM⟩ := decrypt_encrypt (val_lt_ladder _) (val_lt_ladder _) hpk goodM hAB hN
  obtain ⟨t, ht, done, ⟨-, -, keptK, -⟩, rfl, rfl⟩ := completes_genc hs hne hAB
  rw [← keptK] at hN
  obtain ⟨u, hu, done', -, rfl⟩ := completes_gdec (rd := o) (done.live hs) hN
  exact ⟨t, u, ht, done, hu, done', eqM, bitsM⟩

/-- Settles O54: GDEC reads the two points GRMK wrote and the key GRMK kept, and `decrypt_remask` is about them. -/
theorem remaskKeepsPlaintext : Obligations.RemaskKeepsPlaintext := by
  intro s ca' cb' ca cb pk o kr ks hs hne hpk goodCa goodCb
  have goodPk : GoodPoint (s.getP pk) := goodPoint_ptMul generator_good hpk
  obtain ⟨A, B, hAB⟩ := exists_remask goodCa goodCb goodPk (s.getK kr).val
  obtain ⟨goodA, goodB⟩ := goodPoint_remask goodCa goodCb goodPk hAB
  obtain ⟨N, hN⟩ := exists_decrypt goodA goodB (s.getK ks).val
  obtain ⟨N', hN'⟩ := exists_decrypt goodCa goodCb (s.getK ks).val
  have samePlaintext := decrypt_remask (val_lt_ladder _) (val_lt_ladder _) hpk goodCa goodCb hAB hN hN'
  have keepsCa := remask_keeps_ca_iff (val_lt_ladder _) goodCa hAB
  obtain ⟨t, ht, done, ⟨-, -, keptK, -⟩, rfl, rfl⟩ := completes_grmk hs hne hAB
  rw [← keptK] at hN
  obtain ⟨u, hu, done', -, rfl⟩ := completes_gdec (rd := o) (done.live hs) hN
  obtain ⟨v, hv, done'', -, rfl⟩ := completes_gdec (rd := o) hs hN'
  exact ⟨t, u, v, ht, done, hu, done', hv, done'', samePlaintext, keepsCa⟩

end Sys2Proof.Machine
end

/-! ### The transfer and status commands (O55 to O59)

A word of format X decodes to its transfer exactly when its slot is in the window, whatever the opcode. A write then completes with
one register file written (the `completes_` lemmas above), and a read completes with its word and nothing written. -/

section
namespace Sys2Proof.Machine

open Sys2Proof

/-! ### The words of R63 -/

section Words

variable {op : CommandWord} {r : RegNum} {slot : BitVec 8}

/-- The fields of R63's word. -/
theorem wordX_fields (op : CommandWord) (r : RegNum) (slot : BitVec 8) (hop : op.toNat < 256) :
    bits (wordX op r slot) 24 8 = op.toNat ∧ bits (wordX op r slot) 20 4 = r.val ∧ bits (wordX op r slot) 8 12 = 0 ∧
    bits (wordX op r slot) 0 8 = slot.toNat := by
  rw [wordX_eq _ _ _ hop]
  exact formatX_fields _ _ _ hop slot.isLt

theorem rdField_wordX (hop : op.toNat < 256) : rdField (wordX op r slot) = r := by
  obtain ⟨-, reg, -⟩ := wordX_fields op r slot hop
  exact regField_eq reg

theorem transfer_wordX {n : Nat} (mk : Fin n → Instr) (hop : op.toNat < 256) :
    transfer (wordX op r slot) n mk = if h : slot.toNat < n then some (mk ⟨slot.toNat, h⟩) else none := by
  obtain ⟨-, -, reserved, slot_eq⟩ := wordX_fields op r slot hop
  simp only [transfer, reserved, slot_eq, beq_self_eq_true, legal_true]

/-- R63's word of a window of `n` slots is the transfer of a slot in the window, or illegal (R66 c). -/
theorem decode_wordX_window {n : Nat} (mk : RegNum → Fin n → Instr) (hop : op.toNat < 256)
    (hd : ∀ w, bits w 24 8 = op.toNat → decode w = transfer w n (mk (rdField w))) :
    decode (wordX op r slot) = if h : slot.toNat < n then some (mk r ⟨slot.toNat, h⟩) else none := by
  obtain ⟨opcode, -⟩ := wordX_fields op r slot hop
  rw [hd _ opcode, transfer_wordX _ hop, rdField_wordX hop]

/-- R63's word of a window of one slot is the transfer of slot 0, or illegal (R66 c). -/
theorem decode_wordX_oneSlot (mk : RegNum → Instr) (hop : op.toNat < 256)
    (hd : ∀ w, bits w 24 8 = op.toNat → decode w = legal (bits w 0 8 == 0 && bits w 8 12 == 0) (mk (rdField w))) :
    decode (wordX op r slot) = if slot = 0 then some (mk r) else none := by
  obtain ⟨opcode, -, reserved, slot_eq⟩ := wordX_fields op r slot hop
  rw [hd _ opcode, rdField_wordX hop, reserved, slot_eq]
  refine if_congr ?_ rfl rfl
  rw [← BitVec.toNat_inj, beq_self_eq_true, Bool.and_true, beq_iff_eq]
  rfl

/-- RDSR's word names no register and one of two slots, or it is illegal (R66 b, R179). -/
theorem decode_wordX_rdsr : decode (wordX 0x68 r slot) =
    if r = 0 then if h : slot.toNat < 2 then some (.rdsr ⟨slot.toNat, h⟩) else none else none := by
  obtain ⟨opcode, reg, -⟩ := wordX_fields 0x68 r slot (by decide)
  have hd (w : CommandWord) (h : bits w 24 8 = 0x68) :
      decode w = if bits w 20 4 = 0 then transfer w 2 .rdsr else none := by rw [decode, h]; rfl
  rw [hd _ opcode, reg, transfer_wordX _ (by decide)]
  exact if_congr (Fin.ext_iff (b := (0 : RegNum))).symm rfl rfl

end Words

/-! ### The parts of a point that the slots name (R45, R48) -/

section Slots

variable (P : Point) (k : Fin 5) (w : Word)

theorem setSlot_x (h : k.val < 11) : P.setSlot ⟨k.val, h⟩ w = { P with x := P.x.setCoeff k (fromInt64 w) } := dif_pos k.isLt

theorem setSlot_y (h : k.val + 5 < 11) : P.setSlot ⟨k.val + 5, h⟩ w = { P with y := P.y.setCoeff k (fromInt64 w) } :=
  (dif_neg (by simp)).trans (dif_pos (by simp))

theorem setSlot_flag : P.setSlot 10 w = { P with inf := w.getLsbD 0 } := rfl

theorem slotWord_x (h : k.val < 11) : P.slotWord ⟨k.val, h⟩ = P.x.coeff k := dif_pos k.isLt

theorem slotWord_y (h : k.val + 5 < 11) : P.slotWord ⟨k.val + 5, h⟩ = P.y.coeff k :=
  (dif_neg (by simp)).trans (dif_pos (by simp))

theorem slotWord_flag : P.slotWord 10 = if P.inf = true then 1 else 0 := by
  cases h : P.inf <;> simp [Point.slotWord, h]

end Slots

/-! ### The writes (R171, R173, R175, R177) -/

theorem fromInt64_toNat (w : Word) : (fromInt64 w).toNat = w.toNat % Config.pMod := redNat_toNat _

/-- The coefficient written is the data word reduced (R170), and the other four are kept (R48). -/
theorem coeff_setCoeff_fromInt64 (a : Ext5) (k : Fin 5) (w : Word) :
    ((a.setCoeff k (fromInt64 w)).coeff k).toNat = w.toNat % Config.pMod ∧
    ∀ j, j ≠ k → (a.setCoeff k (fromInt64 w)).coeff j = a.coeff j :=
  ⟨by rw [coeff_setCoeff_same, fromInt64_toNat], fun j => coeff_setCoeff_ne a k j _⟩

theorem limbOfWord_toNat {w : Word} (h : w.toNat < 2 ^ 32) : (limbOfWord w).toNat = w.toNat := by
  rw [limbOfWord, BitVec.toNat_setWidth, Nat.mod_eq_of_lt h]

section Writes

variable {s : State} {r : RegNum} (hs : s.Live)

include hs

theorem completes_wrk {slot : Fin 10} (h : s.wdata.toNat < 2 ^ 32) :
    ∃ t, exec (.wrk r slot) s = .next t ∧ Done s t 0 ∧ OnlyK r s t ∧ t.getK r = (s.getK r).setLimb slot (limbOfWord s.wdata) :=
  completes_setK hs (congrArg (live s) (if_pos (decide_eq_true h)))

theorem completes_wrp {slot : Fin 11} (h : pointWordFits slot s.wdata = true) :
    ∃ t, exec (.wrp r slot) s = .next t ∧ Done s t 0 ∧ OnlyP r s t ∧ t.getP r = (s.getP r).setSlot slot s.wdata :=
  completes_setP hs (congrArg (live s) (if_pos h))

end Writes

/-- A coordinate slot takes every data word (R177). -/
theorem pointWordFits_coordinate {n : Nat} (hn : n < 11) (h : n ≤ 9) (w : Word) : pointWordFits ⟨n, hn⟩ w = true := by
  simp [pointWordFits, h]

/-- The flag's slot takes 0 and 1 (R177). -/
theorem pointWordFits_flag (w : Word) : pointWordFits 10 w = true ↔ w.toNat ≤ 1 := by simp [pointWordFits]

/-- A data word of 0 or 1 is its own bit 0. -/
theorem getLsbD_zero_toNat {w : Word} (h : w.toNat ≤ 1) : (w.getLsbD 0).toNat = w.toNat := by
  rw [BitVec.getLsbD, Nat.toNat_testBit]
  omega

/-- Settles O55: both commands write `from_int64` of the data word. -/
theorem writeFieldWords : Obligations.WriteFieldWords := by
  refine ⟨fun _ _ => decode_wordX_oneSlot .wrb (by decide) fun w h => by rw [decode, h]; rfl,
    fun _ _ => decode_wordX_window .wre (by decide) fun w h => by rw [decode, h]; rfl, fun s r hs => ⟨?wrb, fun slot => ?wre⟩⟩
  case wrb =>
    obtain ⟨t, ht, done, only, value⟩ := completes_setB hs (i := .wrb r) rfl
    exact ⟨t, ht, done, only, value ▸ fromInt64_toNat _⟩
  case wre =>
    obtain ⟨t, ht, done, only, value⟩ := completes_setE hs (i := .wre r slot) rfl
    exact ⟨t, ht, done, only, value ▸ coeff_setCoeff_fromInt64 _ _ _⟩

/-- Settles O56: the command asks whether the data word fits, and writes it as it is. -/
theorem writeLimb : Obligations.WriteLimb := by
  refine ⟨fun _ _ => decode_wordX_window .wrk (by decide) fun w h => by rw [decode, h]; rfl,
    fun s r slot hs => ⟨fun long => ?faults, fun short => ?writes⟩⟩
  case faults =>
    have unfit : ¬ limbFits s.wdata = true := fun h => absurd (of_decide_eq_true h) (Nat.not_lt.2 long)
    exact faults_takeFault hs (c := .invalidScalarLength) (congrArg (live s) (if_neg unfit))
  case writes =>
    obtain ⟨t, ht, done, only, value⟩ := completes_wrk (r := r) (slot := slot) hs short
    refine ⟨t, ht, done, only, ?_, fun j hj => ?_⟩
    · rw [value, limb_setLimb_same, limbOfWord_toNat short]
    · rw [value, limb_setLimb_ne _ _ _ _ hj]

/-- Settles O57: the command writes the part of the point that its slot names, and faults on a flag that is no bit. -/
theorem writePoint : Obligations.WritePoint := by
  refine ⟨fun _ _ => decode_wordX_window .wrp (by decide) fun w h => by rw [decode, h]; rfl,
    fun s r hs => ⟨fun k => ?x, fun k => ?y, fun large => ?faults, fun flag => ?flag⟩⟩
  case x =>
    obtain ⟨t, ht, done, only, value⟩ :=
      completes_wrp (r := r) (slot := ⟨k.val, by omega⟩) hs (pointWordFits_coordinate _ (by omega) _)
    obtain ⟨written, kept⟩ := coeff_setCoeff_fromInt64 (s.getP r).x k s.wdata
    refine ⟨t, ht, done, only, ?_⟩
    rw [value, setSlot_x]
    exact ⟨written, kept, rfl, rfl⟩
  case y =>
    obtain ⟨t, ht, done, only, value⟩ :=
      completes_wrp (r := r) (slot := ⟨k.val + 5, by omega⟩) hs (pointWordFits_coordinate _ (by omega) _)
    obtain ⟨written, kept⟩ := coeff_setCoeff_fromInt64 (s.getP r).y k s.wdata
    refine ⟨t, ht, done, only, ?_⟩
    rw [value, setSlot_y]
    exact ⟨written, kept, rfl, rfl⟩
  case faults =>
    have unfit : ¬ pointWordFits 10 s.wdata = true := fun h => absurd ((pointWordFits_flag _).1 h) (Nat.not_le.2 large)
    exact faults_takeFault hs (c := .invalidPoint) (congrArg (live s) (if_neg unfit))
  case flag =>
    obtain ⟨t, ht, done, only, value⟩ := completes_wrp (r := r) hs ((pointWordFits_flag _).2 flag)
    refine ⟨t, ht, done, only, ?_⟩
    rw [value, setSlot_flag]
    exact ⟨getLsbD_zero_toNat flag, rfl, rfl⟩

/-! ### The reads (R172, R174, R176, R178) -/

/-- A live read answers its word and writes nothing (R44). -/
theorem completes_read {s : State} {i : Instr} {w : Word} (hs : s.Live) (he : exec i s = live s (s.complete w)) :
    ∃ t, exec i s = .next t ∧ SameRegisters s t ∧ Done s t w :=
  ⟨_, he.trans (live_of_not_fault hs _), sameRegisters_complete s w, done_complete s w⟩

/-- Settles O58: each read answers the word its slot names. -/
theorem readWords : Obligations.ReadWords := by
  refine ⟨fun _ _ => decode_wordX_oneSlot .rdb (by decide) fun w h => by rw [decode, h]; rfl,
    fun _ _ => decode_wordX_window .rde (by decide) fun w h => by rw [decode, h]; rfl,
    fun _ _ => decode_wordX_window .rdk (by decide) fun w h => by rw [decode, h]; rfl,
    fun _ _ => decode_wordX_window .rdp (by decide) fun w h => by rw [decode, h]; rfl,
    fun s r hs => ⟨?rdb, fun slot => completes_read hs rfl, fun slot => ?rdk, fun k => ?x, fun k => ?y, ?flag⟩⟩
  case rdb =>
    obtain ⟨t, ht, same, done⟩ := completes_read hs (i := .rdb r) rfl
    exact ⟨t, ht, done, same⟩
  case rdk =>
    obtain ⟨t, ht, same, done⟩ := completes_read hs (i := .rdk r slot) rfl
    exact ⟨t, _, ht, same, done, BitVec.toNat_setWidth_of_le (by decide)⟩
  case x => exact slotWord_x (s.getP r) k _ ▸ completes_read hs rfl
  case y => exact slotWord_y (s.getP r) k _ ▸ completes_read hs rfl
  case flag => exact slotWord_flag (s.getP r) ▸ completes_read hs rfl

/-! ### The status registers (R27, R28, R179) -/

/-- T and FAULT fill the two bits below the reserved ones (R27). -/
theorem status_flags_lt (s : State) : s.t.toNat + s.fault.toNat * 2 < 2 ^ 2 := by
  have := s.t.toNat_le
  have := s.fault.toNat_le
  omega

theorem statusWord_toNat (s : State) : s.statusWord.toNat = s.t.toNat + s.fault.toNat * 2 + s.cause.toNat * 2 ^ 4 := by
  have := status_flags_lt s
  have := s.cause.isLt
  rw [State.statusWord, BitVec.toNat_ofNat]
  omega

/-- T, FAULT and the two zeros above them: the low four bits of STATUS (R27). -/
theorem statusWord_low_bits (s : State) : s.statusWord.getLsbD 0 = s.t ∧ s.statusWord.getLsbD 1 = s.fault ∧
    s.statusWord.getLsbD 2 = false ∧ s.statusWord.getLsbD 3 = false := by
  have low : s.statusWord.toNat % 2 ^ 4 = s.t.toNat + s.fault.toNat * 2 := by
    have := status_flags_lt s
    rw [statusWord_toNat]
    omega
  have bit (n : Nat) (h : n < 4) : s.statusWord.getLsbD n = (s.t.toNat + s.fault.toNat * 2).testBit n := by
    rw [← low, Nat.testBit_mod_two_pow, decide_eq_true h, Bool.true_and, BitVec.getLsbD]
  rw [bit 0 (by decide), bit 1 (by decide), bit 2 (by decide), bit 3 (by decide)]
  cases s.t <;> cases s.fault <;> decide

/-- CAUSE: bits 7:4 of STATUS (R27). -/
theorem statusWord_cause (s : State) : s.statusWord.extractLsb' 4 4 = s.cause := by
  have := status_flags_lt s
  have := s.cause.isLt
  apply BitVec.eq_of_toNat_eq
  rw [BitVec.extractLsb'_toNat, statusWord_toNat, Nat.shiftRight_eq_div_pow]
  omega

/-- STATUS is zero above CAUSE (R27). -/
theorem statusWord_high_bits (s : State) {n : Nat} (hn : 8 ≤ n) : s.statusWord.getLsbD n = false := by
  have := status_flags_lt s
  have := s.cause.isLt
  have lt : s.statusWord.toNat < 2 ^ 8 := by
    rw [statusWord_toNat]
    omega
  exact Nat.testBit_lt_two_pow (lt.trans_le (Nat.pow_le_pow_right (by decide) hn))

/-- Settles O59: RDSR completes on every state with the word its slot names, and a halted core refuses the rest. -/
theorem readStatus : Obligations.ReadStatus := by
  refine ⟨fun _ => decode_wordX_rdsr, fun _ _ hr => decode_wordX_rdsr.trans (if_neg hr),
    fun s => ⟨?status, ?fcmd, fun i hf hi => ?halted⟩⟩
  case status =>
    obtain ⟨t, fault, zero2, zero3⟩ := statusWord_low_bits s
    exact ⟨_, s.statusWord, rfl, sameRegisters_complete s _, done_complete s _, t, fault, zero2, zero3, statusWord_cause s,
      fun n => statusWord_high_bits s⟩
  case fcmd =>
    refine ⟨_, s.fcmdWord, rfl, sameRegisters_complete s _, done_complete s _, ?_, fun n hn => ?_⟩
    · rw [State.fcmdWord, ← BitVec.setWidth_eq_extractLsb' (by decide), BitVec.setWidth_setWidth_of_le _ (by decide),
        BitVec.setWidth_eq]
    · simp [State.fcmdWord, BitVec.getLsbD_of_ge s.fcmd n hn]
  case halted =>
    exact ⟨s.refuse, exec_halted hi hf, rfl, rfl, sameRegisters_refuse s, rfl, rfl, rfl⟩

end Sys2Proof.Machine
end

/-! ### The exceptions (O2, O13 to O18)

What the command word on the port leads to is said once (`runCommand_next_cases`): it completes, faults, is refused or waits. The
response codes are read off from it, and what a halted core answers is said beside it (`runCommand_halted`). Which faults an
instruction can raise at all is `canRaise`; when it raises one is the condition that its meaning tests. -/

section
namespace Sys2Proof.Machine

open Sys2Proof

/-! ### No step stops (O2) -/

theorem exec_next (i : Instr) (s : State) : ∃ t, exec i s = .next t := by
  obtain ⟨_, -, he⟩ | ⟨-, -, he⟩ | ⟨-, -, _, he, -⟩ := exec_cases i s <;> exact ⟨_, he⟩

theorem step_next (s : State) : ∃ t, step s = .next t := by
  obtain ⟨_, -, he⟩ | ⟨-, -, he⟩ | ⟨-, -, he⟩ | ⟨_, _, _, -, -, he⟩ | ⟨_, _, _, -, -, he⟩ := step_cases s
  · exact ⟨_, he⟩
  · exact he ▸ runCommand_next s
  · exact ⟨_, he⟩
  · exact he ▸ runCommand_next _
  · exact ⟨_, he⟩

/-- Settles O2: a command answers in each of its cases, and a step is a reset, an idle core or a command that runs. -/
theorem stepAlwaysNext : Obligations.StepAlwaysNext := ⟨exec_next, step_next⟩

/-! ### What the command word on the port leads to (R42, R194 to R197, R221) -/

/-- A word completes as the command it spells, faults a live core, is refused by a halted one, or is a KRND that waits. -/
theorem runCommand_next_cases {s t : State} (h : s.runCommand = .next t) :
    ((∃ w, t.rsp = some ⟨0, w⟩) ∧ (t.fault = s.fault ∧ t.cause = s.cause ∧ t.fcmd = s.fcmd) ∧
      ∃ i, decode s.cmd = some i ∧ exec i s = .next t) ∨
    (s.fault = false ∧ ∃ c, t = s.takeFault c) ∨ (s.fault = true ∧ t = s.refuse) ∨ (s.fault = false ∧ t = s.awaitRandom) := by
  obtain ⟨i, hd, he⟩ | ⟨-, hf, he⟩ | ⟨-, hf, he⟩ := runCommand_cases s
  · rw [he] at h
    obtain ⟨slot, -, rfl⟩ | ⟨hf, -, rfl⟩ | ⟨hf, -, ends⟩ := exec_next_cases h
    · exact .inl ⟨⟨_, rfl⟩, ⟨rfl, rfl, rfl⟩, i, hd, h⟩
    · exact .inr (.inr (.inl ⟨hf, rfl⟩))
    · cases ends with
      | completes u w hw =>
        obtain ⟨fault, cause, fcmd, -⟩ := hw
        exact .inl ⟨⟨w, rfl⟩, ⟨fault, cause, fcmd⟩, i, hd, h⟩
      | faults c => exact .inr (.inl ⟨hf, c, rfl⟩)
      | waits => exact .inr (.inr (.inr ⟨hf, rfl⟩))
  · cases he.symm.trans h
    exact .inr (.inl ⟨hf, _, rfl⟩)
  · cases he.symm.trans h
    exact .inr (.inr (.inl ⟨hf, rfl⟩))

/-! ### Fault entry (O13) -/

theorem FaultCode.one_le_code (c : FaultCode) : 1 ≤ c.code.toNat := by cases c <;> decide

theorem FaultCode.code_injective {c d : FaultCode} : c.code = d.code → c = d := by
  cases c <;> cases d <;> decide

/-- A command that leaves a live core with FAULT = 1 has entered a fault. -/
theorem exec_faultEntered {i : Instr} {s t : State} (hs : s.Live) (h : exec i s = .next t) (hf : t.fault = true) :
    ∃ c : FaultCode, FaultEntered s t c.code := by
  obtain ⟨kept, -⟩ | ⟨-, entered⟩ := exec_status h
  · cases hs.symm.trans (kept.symm.trans hf)
  · exact entered

/-- The same of the word on the port: an illegal one takes IllegalCommand (R194). -/
theorem runCommand_faultEntered {s t : State} (hs : s.Live) (h : s.runCommand = .next t) (hf : t.fault = true) :
    ∃ c : FaultCode, FaultEntered s t c.code := by
  obtain ⟨i, -, he⟩ | ⟨-, -, he⟩ | ⟨-, halted, -⟩ := runCommand_cases s
  · exact exec_faultEntered hs (he.symm.trans h) hf
  · cases he.symm.trans h
    exact ⟨_, faultEntered_takeFault s _⟩
  · cases hs.symm.trans halted

/-- Settles O13: FAULT rises by fault entry alone, and taking the command changes no register. -/
theorem faultEntryIsPrecise : Obligations.FaultEntryIsPrecise := by
  refine ⟨fun s t cmd wdata rest hs hb hh h hf => ?_, fun _ _ _ => exec_faultEntered⟩
  rw [step_command hb hh] at h
  obtain ⟨c, entered⟩ := runCommand_faultEntered (s := s.take cmd wdata rest) hs h hf
  have ⟨same, _, _, fcmd, _⟩ := entered
  exact ⟨c, entered, same, fcmd, c.one_le_code, c.code_le⟩

/-! ### The halted core (O14, O15) -/

/-- While FAULT = 1 a legal RDSR reads its status register, and every other word, legal or not, is refused (R197). -/
theorem runCommand_halted {s : State} (hf : s.fault = true) :
    (∃ slot, decode s.cmd = some (.rdsr slot) ∧ s.runCommand = .next (s.complete (s.statusRead slot))) ∨
    ((∀ slot, decode s.cmd ≠ some (.rdsr slot)) ∧ s.runCommand = .next s.refuse) := by
  obtain ⟨i, hd, he⟩ | ⟨-, hn, -⟩ | ⟨hd, -, he⟩ := runCommand_cases s
  · obtain ⟨slot, rfl, ht⟩ | ⟨-, hi, ht⟩ | ⟨hn, -⟩ := exec_cases i s
    · exact .inl ⟨slot, hd, he.trans ht⟩
    · exact .inr ⟨fun slot e => hi slot (Option.some.inj (hd.symm.trans e)), he.trans ht⟩
    · cases hf.symm.trans hn
  · cases hf.symm.trans hn
  · exact .inr ⟨fun slot e => absurd (hd.symm.trans e) nofun, he⟩

theorem statusRead_eq (s : State) (slot : Fin 2) : s.statusRead slot = if slot = 0 then s.statusWord else s.fcmd.setWidth 64 := by
  match slot with
  | 0 => rfl
  | 1 => rfl

/-- Settles O14: the word taken is a legal RDSR or is refused. -/
theorem haltedRefusesAll : Obligations.HaltedRefusesAll := by
  intro s cmd wdata rest hf hb hh
  rw [step_command hb hh]
  obtain ⟨slot, hd, he⟩ | ⟨hn, he⟩ := runCommand_halted (s := s.take cmd wdata rest) hf <;> rw [he]
  · refine ⟨fun slot' hd' => ?_, fun hn => absurd hd (hn slot)⟩
    cases hd.symm.trans hd'
    rw [← statusRead_eq]
    exact ⟨_, rfl, done_complete _ _, sameRegisters_complete s (s.statusRead slot)⟩
  · exact ⟨fun slot hd => absurd hd (hn slot), fun _ => ⟨_, rfl, rfl, sameRegisters_refuse s, hf, rfl, rfl, rfl, rfl⟩⟩

/-- While FAULT = 1 the word on the port changes no fault field and no register (R197). -/
theorem runCommand_keeps_halt {s t : State} (hf : s.fault = true) (h : s.runCommand = .next t) :
    t.fault = true ∧ t.cause = s.cause ∧ t.fcmd = s.fcmd ∧ SameRegisters s t := by
  obtain ⟨slot, -, he⟩ | ⟨-, he⟩ := runCommand_halted hf <;> cases he.symm.trans h
  · exact ⟨hf, rfl, rfl, sameRegisters_complete s _⟩
  · exact ⟨hf, rfl, rfl, sameRegisters_refuse s⟩

/-- Settles O15: of the kinds of step, the two resets leave the halt, and an idle core and a command keep it. -/
theorem onlyResetLeavesHalt : Obligations.OnlyResetLeavesHalt := by
  intro s t hf h
  obtain ⟨rest, hh, he⟩ | ⟨-, -, he⟩ | ⟨-, -, he⟩ | ⟨_, _, _, -, -, he⟩ | ⟨cmd, n, rest, -, hh, he⟩ := step_cases s <;> rw [he] at h
  · cases h
    exact .inr ⟨rfl, rfl, rfl, rest, rfl, .inl hh⟩
  · exact .inl (runCommand_keeps_halt hf h)
  · cases h
    exact .inl ⟨hf, rfl, rfl, fun _ => rfl, fun _ => rfl, fun _ => rfl, fun _ => rfl, rfl, rfl⟩
  · exact .inl (runCommand_keeps_halt (s := s.take _ _ _) hf h)
  · cases h
    exact .inr ⟨rfl, rfl, rfl, rest, rfl, .inr ⟨cmd, n, hh⟩⟩

/-! ### The response codes (O18) -/

/-- Settles O18: the code tells which of its cases the word taken had; a KRND that waits has no response. -/
theorem responseCodes : Obligations.ResponseCodes := by
  intro s t cmd wdata rest r hb hh h hr
  rw [step_command hb hh] at h
  obtain ⟨⟨w, hw⟩, ⟨fault, cause, fcmd⟩, run⟩ | ⟨hf, c, rfl⟩ | ⟨hf, rfl⟩ | ⟨-, rfl⟩ := runCommand_next_cases h
  · cases hw.symm.trans hr
    exact .inl ⟨rfl, fault, cause, fcmd, run⟩
  · cases hr
    exact .inr (.inl ⟨c.one_le_code, c.code_le, hf, faultEntered_takeFault _ c⟩)
  · cases hr
    exact .inr (.inr ⟨rfl, hf, sameRegisters_refuse s, rfl, rfl, rfl⟩)
  · cases hr

/-! ### Which faults a command can raise (R191 to R194) -/

/-- Whether an instruction can raise a fault: no rule names another one for it, and the terms GENC and GRMK have IllegalCommand
too, for rd = ra (log 9). -/
def canRaise : Instr → FaultCode → Bool
  | .binv _ _, .divisionByZero | .bdiv _ _ _, .divisionByZero | .einv _ _, .divisionByZero | .padd _ _ _, .divisionByZero
  | .pmul _ _ _, .divisionByZero | .gdec _ _ _ _, .divisionByZero => true
  | .genc _ _ _ _ _, .divisionByZero | .genc _ _ _ _ _, .illegalCommand => true
  | .grmk _ _ _ _ _ _, .divisionByZero | .grmk _ _ _ _ _ _, .illegalCommand => true
  | .pchk _, .invalidPoint | .wrp _ _, .invalidPoint => true
  | .wrk _ _, .invalidScalarLength => true
  | _, _ => false

/-- Whatever fault has been entered from `s` to `t` is one that `i` can raise. -/
def FaultsWithin (i : Instr) (s t : State) : Prop := ∀ c : FaultCode, FaultEntered s t c.code → canRaise i c = true

/-- A command that completes has entered no fault: its response has err 0. -/
theorem not_faultEntered_complete (s u : State) (w : Word) (c : FaultCode) : ¬ FaultEntered s (u.complete w) c.code := by
  rintro ⟨-, -, -, -, rsp, -⟩
  exact c.code_ne_zero (congrArg Response.err (Option.some.inj rsp)).symm

section FaultsWithin

variable {i : Instr} {s : State}

theorem faultsWithin_complete (u : State) (w : Word) : FaultsWithin i s (u.complete w) :=
  fun c entered => absurd entered (not_faultEntered_complete s u w c)

theorem faultsWithin_takeFault {d : FaultCode} (hd : canRaise i d = true) : FaultsWithin i s (s.takeFault d) := by
  rintro c ⟨-, -, cause, -⟩
  exact FaultCode.code_injective cause ▸ hd

theorem faultsWithin_awaitRandom : FaultsWithin i s s.awaitRandom := by
  rintro c ⟨-, -, -, -, rsp, -⟩
  cases rsp

/-- A refusal is no fault entry, so that a command has the faults of what it does when it runs. -/
theorem FaultsWithin.live {act t : State} (ha : FaultsWithin i s act) (hs : s.Live) (h : live s act = .next t) :
    FaultsWithin i s t := by
  cases (live_of_not_fault hs act).symm.trans h
  exact ha

end FaultsWithin

/-- No command raises a fault that is not among its own. The arms of PDBL and GPUB for a sum that fails are never reached (R136,
R161). -/
theorem exec_faultsWithin {i : Instr} {s t : State} (hs : s.Live) (h : exec i s = .next t) : FaultsWithin i s t := by
  cases i with
  | rdsr slot =>
    cases h
    exact faultsWithin_complete _ _
  | krnd rd =>
    refine FaultsWithin.live ?_ hs h
    split
    exacts [faultsWithin_complete _ _, faultsWithin_awaitRandom]
  | binv | bdiv | einv =>
    refine FaultsWithin.live ?_ hs h
    split
    exacts [faultsWithin_takeFault rfl, faultsWithin_complete _ _]
  | padd | pmul | gdec | pchk | wrk | wrp =>
    refine FaultsWithin.live ?_ hs h
    split
    exacts [faultsWithin_complete _ _, faultsWithin_takeFault rfl]
  | genc | grmk =>
    refine FaultsWithin.live ?_ hs h
    split
    · exact faultsWithin_takeFault rfl
    · split
      exacts [faultsWithin_complete _ _, faultsWithin_takeFault rfl]
  | pdbl rd ra =>
    refine FaultsWithin.live ?_ hs h
    split
    case h_1 => exact faultsWithin_complete _ _
    case h_2 noSum => exact absurd noSum (ptDbl_ne_none _)
  | gpub rd ra =>
    obtain ⟨R, product⟩ := exists_ptMul_generator (s.getK ra).val
    refine FaultsWithin.live ?_ hs h
    rw [product]
    exact faultsWithin_complete _ _
  | _ => exact FaultsWithin.live (faultsWithin_complete _ _) hs h

/-! ### When a command that can raise a fault does -/

section Raised

variable {i : Instr} {s t u : State} {c : FaultCode} {p : Prop}

/-- A command whose meaning tests `p` first raises its fault exactly when `p` holds. -/
theorem exec_guard_faults_iff [Decidable p] {w : Word} (hs : s.Live) (h : exec i s = .next t)
    (he : exec i s = live s (if p then s.takeFault c else u.complete w)) : FaultEntered s t c.code ↔ p := by
  rw [he, live_of_not_fault hs] at h
  by_cases hp : p
  · rw [if_pos hp] at h
    cases h
    exact iff_of_true (faultEntered_takeFault s c) hp
  · rw [if_neg hp] at h
    cases h
    exact iff_of_false (not_faultEntered_complete s u w c) hp

/-- The same of a command that tests what lets it complete. -/
theorem exec_guard_completes_iff [Decidable p] {w : Word} (hs : s.Live) (h : exec i s = .next t)
    (he : exec i s = live s (if p then u.complete w else s.takeFault c)) : FaultEntered s t c.code ↔ ¬ p :=
  exec_guard_faults_iff hs h (he.trans (congrArg (live s) (ite_not p _ _).symm))

/-- A command answers one state, so that what some answer satisfies its answer does. -/
theorem exists_next_iff {q : State → Prop} (h : exec i s = .next t) : (∃ u, exec i s = .next u ∧ q u) ↔ q t := by simp [h]

end Raised

/-! ### DivisionByZero (O16) -/

theorem exec_padd_faults_iff {s : State} {rd ra rb : RegNum} (hs : s.Live) :
    (∃ t, exec (.padd rd ra rb) s = .next t ∧ FaultEntered s t 1) ↔ ptAdd (s.getP ra) (s.getP rb) = none :=
  exec_faults_iff hs (fun h => by simp [exec, execPadd, h]) fun _ h =>
    (completes_padd hs h).imp fun _ ⟨ht, done, _⟩ => ⟨ht, done⟩

/-- The condition of R191, command by command: a guard, or a point function that answers nothing. -/
theorem exec_divisionByZero_iff {i : Instr} {s t : State} (hwf : i.wellFormed = true) (hs : s.Live) (h : exec i s = .next t) :
    FaultEntered s t FaultCode.divisionByZero.code ↔ DivisionByZeroWhen i s := by
  cases i with
  | binv rd ra => exact exec_guard_faults_iff (p := s.getB ra = 0) hs h rfl
  | bdiv rd ra rb => exact exec_guard_faults_iff (p := s.getB rb = 0) hs h rfl
  | einv rd ra => exact (exec_guard_faults_iff hs h rfl).trans (eEq_iff _ _)
  | padd rd ra rb => exact (exists_next_iff h).symm.trans ((exec_padd_faults_iff hs).trans (ptAdd_eq_none_iff _ _))
  | pmul rd ra rb => exact (exists_next_iff h).symm.trans ((exec_pmul_faults_iff hs).trans (ptMul_eq_none_iff _ _))
  | genc rd ra rb rc re =>
    exact (exists_next_iff h).symm.trans ((exec_genc_faults_iff hs (of_decide_eq_true hwf)).trans encrypt_eq_none_iff)
  | grmk rd ra rb rc re rf =>
    exact (exists_next_iff h).symm.trans ((exec_grmk_faults_iff hs (of_decide_eq_true hwf)).trans remask_eq_none_iff)
  | gdec rd ra rb rc => exact (exists_next_iff h).symm.trans ((exec_gdec_faults_iff hs).trans decrypt_eq_none_iff)
  | _ => exact iff_of_false (fun entered => Bool.false_ne_true (exec_faultsWithin hs h _ entered)) id

/-- Every accumulator of the ladder on a point of the curve is on the curve (R138, R140). -/
theorem goodPoint_ladderAcc {P R : Point} {k n : Nat} (hP : GoodPoint P) (h : LadderAcc P k n R) : GoodPoint R := by
  induction h with
  | start => exact goodPoint_inf0
  | double _ hd _ ih => exact goodPoint_ptAdd ih ih hd
  | add _ hd _ hr ih => exact goodPoint_ptAdd (goodPoint_ptAdd ih ih hd) hP hr

/-- On the curve no sum reaches case 5 (R139 e). -/
theorem not_addCase5 {P Q : Point} (hP : GoodPoint P) (hQ : GoodPoint Q) : ¬ AddCase5 P Q := by
  obtain ⟨S, hS, -⟩ := exists_ptAdd hP hQ
  rw [← ptAdd_eq_none_iff, hS]
  nofun

theorem not_mulFaults {P : Point} (k : Nat) (hP : GoodPoint P) : ¬ MulFaults P k := by
  obtain ⟨S, hS, -⟩ := exists_ptMul hP k
  rw [← ptMul_eq_none_iff, hS]
  nofun

/-- Settles O16: command by command, and on the curve because every sum there has an answer. -/
theorem divisionByZeroExactly : Obligations.DivisionByZeroExactly :=
  ⟨fun _ _ _ => exec_divisionByZero_iff, fun _ _ => not_addCase5, fun _ k => not_mulFaults k, fun _ _ _ _ => goodPoint_ladderAcc⟩

/-! ### InvalidPoint and InvalidScalarLength (O17) -/

/-- Only the flag's slot is particular about its word, which must be 0 or 1 (R177). -/
theorem not_pointWordFits_iff (slot : Fin 11) (w : Word) : ¬ pointWordFits slot w = true ↔ slot = 10 ∧ w ≠ 0 ∧ w ≠ 1 := by
  simp only [pointWordFits, Bool.or_eq_true, decide_eq_true_eq, Fin.ext_iff, ne_eq, ← BitVec.toNat_inj]
  have := slot.isLt
  change _ ↔ slot.val = 10 ∧ ¬ w.toNat = 0 ∧ ¬ w.toNat = 1
  omega

theorem not_limbFits_iff (w : Word) : ¬ limbFits w = true ↔ 2 ^ 32 ≤ w.toNat := by
  rw [limbFits, decide_eq_true_eq, Nat.not_lt]

theorem exec_invalidPoint_iff {i : Instr} {s t : State} (hs : s.Live) (h : exec i s = .next t) :
    FaultEntered s t FaultCode.invalidPoint.code ↔ InvalidPointWhen i s := by
  cases i with
  | pchk ra => exact (exec_guard_completes_iff hs h rfl).trans ((onCurve_iff _).not.trans not_not)
  | wrp r slot => exact (exec_guard_completes_iff hs h rfl).trans (not_pointWordFits_iff _ _)
  | _ => exact iff_of_false (fun entered => Bool.false_ne_true (exec_faultsWithin hs h _ entered)) id

theorem exec_invalidScalarLength_iff {i : Instr} {s t : State} (hs : s.Live) (h : exec i s = .next t) :
    FaultEntered s t FaultCode.invalidScalarLength.code ↔ InvalidScalarLengthWhen i s := by
  cases i with
  | wrk r slot => exact (exec_guard_completes_iff hs h rfl).trans (not_limbFits_iff _)
  | _ => exact iff_of_false (fun entered => Bool.false_ne_true (exec_faultsWithin hs h _ entered)) id

/-- Settles O17: PCHK, WRP and WRK test just what R192 and R193 name, and no other command can raise these faults. -/
theorem otherFaultsExactly : Obligations.OtherFaultsExactly :=
  fun _ _ _ hs h => ⟨exec_invalidPoint_iff hs h, exec_invalidScalarLength_iff hs h⟩

end Sys2Proof.Machine
end

/-! ### Reset, also during a command (O4, O5)

Both resets put the core into `State.afterReset`; they differ in the random words left. A command abandoned by a reset has consumed
at most the words that KRND's loop draws, which `lt_wordsDrawn_iff` characterises. -/

section
namespace Sys2Proof.Machine

open Sys2Proof

/-! ### The steps that reset (R210, R212) -/

/-- Reset is taken at once, in any state (R210). -/
theorem step_reset {s : State} {rest : List HostEvent} (hh : s.host = .reset :: rest) :
    step s = .next (State.afterReset rest s.rnd) := by
  simp [step, State.hostStep, hh]

theorem step_resetDuring {s : State} {cmd : CommandWord} {drawn : Nat} {rest : List HostEvent} (hb : s.busy = false)
    (hh : s.host = .resetDuring cmd drawn :: rest) : step s = .next (s.takeResetDuring cmd drawn rest) := by
  simp [step, State.hostStep, hb, hh]

/-- Settles O4: the step gives the state after reset, whatever the state was. -/
theorem resetFromAnyState : Obligations.ResetFromAnyState := by
  intro s rest hh
  exact ⟨_, step_reset hh, State.getB_afterReset _ _, State.getE_afterReset _ _, State.getK_afterReset _ _,
    State.getP_afterReset _ _, rfl, rfl, rfl, rfl, rfl, rfl, rfl, rfl, rfl, rfl⟩

/-! ### The words that KRND's loop draws (R49, R125) -/

/-- The loop draws a word exactly when there is one and no word before it was acceptable. -/
theorem lt_wordsDrawn_iff {ws : List RandomWord} {n : Nat} :
    n < wordsDrawn ws ↔ n < ws.length ∧ ∀ w ∈ ws.take n, acceptable w = false := by
  induction ws generalizing n with
  | nil => simp [wordsDrawn]
  | cons w ws ih =>
    by_cases hw : acceptable w = true
    · cases n <;> simp [wordsDrawn, hw]
    · cases n <;> simp [wordsDrawn, hw, ih]

/-- While no word is acceptable the loop goes on drawing. -/
theorem le_wordsDrawn {ws : List RandomWord} {n : Nat} (hn : n ≤ ws.length) (rejected : ∀ w ∈ ws.take n, acceptable w = false) :
    n ≤ wordsDrawn ws := by
  cases n with
  | zero => exact Nat.zero_le _
  | succ n =>
    have rejected_before : ∀ w ∈ ws.take n, acceptable w = false :=
      fun w hw => rejected w (List.take_subset_take_left ws n.le_succ hw)
    exact lt_wordsDrawn_iff.2 ⟨hn, rejected_before⟩

/-- Of the words drawn so far only the last can be acceptable. -/
theorem rejected_of_mem_dropLast_take {ws : List RandomWord} {n : Nat} (hn : n ≤ wordsDrawn ws) :
    ∀ w ∈ (ws.take n).dropLast, acceptable w = false := by
  cases n with
  | zero => simp
  | succ n =>
    obtain ⟨inside, rejected⟩ := lt_wordsDrawn_iff.1 hn
    have all_but_last : (ws.take (n + 1)).dropLast = ws.take n := by
      rw [List.dropLast_eq_take, List.take_take, List.length_take_of_le inside, Nat.succ_sub_one, Nat.min_eq_left n.le_succ]
    rwa [all_but_last]

/-! ### The words an abandoned command has consumed (R212) -/

theorem State.wordsWanted_of_not_krnd {s : State} {cmd : CommandWord} (h : s.fault = true ∨ ∀ rd, decode cmd ≠ some (.krnd rd)) :
    s.wordsWanted cmd = 0 := by
  unfold State.wordsWanted
  split
  case isTrue => rfl
  case isFalse hf =>
    split
    case h_1 rd hd => exact absurd hd (h.resolve_left hf rd)
    case h_2 => rfl

theorem State.wordsWanted_krnd {s : State} {cmd : CommandWord} {rd : RegNum} (hf : s.fault = false)
    (hd : decode cmd = some (.krnd rd)) : s.wordsWanted cmd = wordsDrawn s.rnd := by
  simp [State.wordsWanted, hf, hd]

/-- Settles O5: the state is that after reset, and the words gone are the first ones the loop draws, no more than `drawn`. -/
theorem resetDuringCommand : Obligations.ResetDuringCommand := by
  intro s cmd drawn rest hb hh
  refine ⟨_, step_resetDuring hb hh, State.getB_afterReset _ _, State.getE_afterReset _ _, State.getK_afterReset _ _,
    State.getP_afterReset _ _, rfl, rfl, rfl, rfl, rfl, rfl, rfl, fun no_draw => ?_, fun rd hf hd => ?_⟩
  · rw [State.takeResetDuring, State.wordsWanted_of_not_krnd no_draw, Nat.min_zero]
    rfl
  · rw [State.takeResetDuring, State.wordsWanted_krnd hf hd, State.afterReset_rnd]
    refine ⟨s.rnd.take (min drawn (wordsDrawn s.rnd)), (List.take_append_drop _ _).symm,
      (List.length_take_le _ _).trans (Nat.min_le_left _ _), rejected_of_mem_dropLast_take (Nat.min_le_right _ _),
      fun rejected enough => ?_⟩
    rw [Nat.min_eq_left (le_wordsDrawn enough rejected), List.length_take_of_le enough]

end Sys2Proof.Machine
end
